-- ==== Sys2Proof/Word.lean ====
section
/-! DEFINITION. The two widths of the block: a byte (R52) and a port word (R71). Bit 0 is the least significant (R14). -/

namespace Sys2Proof

/-- A word of a port (R71), and the width of the host result register (R36). -/
abbrev Word := BitVec 32

/-- What one slot of a ring, one data register or one frame holds (R52, C4). -/
abbrev Byte := BitVec 8

end Sys2Proof
end

