-- ==== Sys2Proof/Config.lean ====
section
/-! DEFINITION. The implementation parameters of R10. An OPEN one has no body here, so no proof can see its value; its type
holds the range R10 gives. -/

namespace Sys2Proof

/-- What the receive path does when the RX ring is full (R10, R105). -/
inductive OverrunPolicy where
  | dropNewest | overwriteOldest
  deriving DecidableEq, Repr

/-- `RX_CAP - 2`, OPEN (R10, D8). -/
opaque Config.rxCapAboveTwo : Fin 65535

/-- `TX_CAP - 2`, OPEN (R10, D8). -/
opaque Config.txCapAboveTwo : Fin 65535

/-- `RX_CAP`, the slot count of the RX ring: OPEN, 2 to 65536 (R10). -/
def Config.rxCap : Nat := Config.rxCapAboveTwo.val + 2

/-- `TX_CAP`, the slot count of the TX ring: OPEN, 2 to 65536 (R10). -/
def Config.txCap : Nat := Config.txCapAboveTwo.val + 2

/-- `RX_OVERRUN_POLICY`: "`DropNewest` is the default and is the source's assumption" (R10, R105). Log 2. -/
def Config.rxOverrunPolicy : OverrunPolicy := .dropNewest

/-- `DE_ACTIVE_HIGH`, the board's active-level polarity: OPEN (R10, R28). -/
opaque Config.deActiveHigh : Bool

/-- `DE_GUARD_DELAY`, OPEN; "no effect in the untimed model" (R10, R123), so nothing reads it. Log 12. -/
opaque Config.deGuardDelay : Nat

/-- `NUM_INSTANCES - 1`, OPEN (R10, D27). -/
opaque Config.extraInstances : Nat

/-- `NUM_INSTANCES`, at least 1: OPEN (R10). -/
def Config.numInstances : Nat := Config.extraInstances + 1

end Sys2Proof
end

