-- ==== Sys2Proof/Syntax.lean ====
section
/-! DEFINITION. The operations of the three ports, one constructor per row of spec/opcode_table.json (R70, R77). -/

namespace Sys2Proof

/-- `parity: {none, even, odd}` (R34, R81). -/
inductive Parity where
  | none | even | odd
  deriving DecidableEq, Repr

/-- `stop_bits: {1,2}` (R34, R81). -/
inductive StopBits where
  | one | two
  deriving DecidableEq, Repr

/-- The data bits an OPEN word can name, `data_bits: {5..9}` (R82). Nine is a legal encoding that OPEN refuses (C4). -/
inductive DataBits where
  | five | six | seven | eight | nine
  deriving DecidableEq, Repr

/-- The port an operation belongs to, and with it the agent that performs it (R70, R84). -/
inductive Port where
  | host | interrupt | uart
  deriving DecidableEq, Repr

/-- The seventeen operations (R70). -/
inductive Instr where
  | openUart (baud : BitVec 22) (parity : Parity) (stop : StopBits) (dbits : DataBits)
  | close
  | write (v : Byte)
  | tryWrite (v : Byte)
  | read
  | peek
  | available
  | flush
  | status
  | csEnter
  | csExit
  | isrRxc
  | isrDre
  | isrTxc
  | uartRx (b : Byte) (fe pe : Bool)
  | uartTxLoad
  | uartTxDone
  deriving DecidableEq, Repr

end Sys2Proof
end

