-- ==== Sys2Proof/Machine/State.lean ====
section
/-! DEFINITION. The state of one instance (10_state.md, R20) as plain data, its reset value (R48), and the reasons a step can
stop. -/

namespace Sys2Proof.Machine

/-- A ring buffer: its storage space as byte cells in canonical form (Machine/Memory.lean), "head index (next read position)" and
"tail index (next write position)" (R22, R23, R50). The slot count is a parameter, never stored (R99). -/
structure Ring where
  store : List Host.Cell
  head : Nat
  tail : Nat
  deriving DecidableEq, Repr

/-- The state of the transmit path (R25). -/
inductive TxState where
  | idle | sending | draining
  deriving DecidableEq, Repr

/-- The direction controller's logical state (R27). -/
inductive Direction where
  | receive | transmit
  deriving DecidableEq, Repr

/-- The "enable bits for each of the three interrupt sources" (R29). -/
structure InterruptEnables where
  rxcie : Bool
  dreie : Bool
  txcie : Bool
  deriving DecidableEq, Repr

/-- The data bits CFG can hold: 5, 6, 7 or 8 (R34). -/
inductive FrameBits where
  | five | six | seven | eight
  deriving DecidableEq, Repr

/-- The frame configuration OPEN stores (R34). -/
structure FrameConfig where
  baud : BitVec 22
  parity : Parity
  stop : StopBits
  dbits : FrameBits
  deriving DecidableEq, Repr

/-- The transmit shift register's contents (R38). -/
structure ShiftEntry where
  b : Byte
  deStart : Direction
  deriving DecidableEq, Repr

/-- The receive data register's contents (R40). -/
structure RxFrame where
  b : Byte
  fe : Bool
  pe : Bool
  deriving DecidableEq, Repr

/-- One frame that has left the line (R41). -/
structure WireRecord where
  b : Byte
  deStart : Direction
  deEnd : Direction
  deriving DecidableEq, Repr

/-- The three interrupt vectors (R134, R218). -/
inductive IrqVector where
  | rxc | dre | txc
  deriving DecidableEq, Repr

/-- The block's fault codes (R211, R212). -/
inductive FaultCode where
  | illegalCommand
  deriving DecidableEq, Repr

/-- The block's refusal reasons (R213). -/
inductive RefusalReason where
  | nineBitData
  deriving DecidableEq, Repr

/-- `S.STOP` (R42): once it is not `running` it stays, with the word recorded (R211, R213). -/
inductive Stop where
  | running
  | faulted (code : FaultCode) (w : Word)
  | refused (reason : RefusalReason) (w : Word)
  deriving DecidableEq, Repr

/-- The parameters of R10 that a rule reads. No step changes them (R12). Log 1. -/
structure Params where
  rxCap : Nat
  txCap : Nat
  rxOverrunPolicy : OverrunPolicy
  deActiveHigh : Bool
  deriving DecidableEq, Repr

/-- Whose turn it is, the model's input that fixes one interleaving of the agents (R17, R61). Log 3. -/
inductive Turn where
  /-- The host attempts the first command of its program (R222). -/
  | host
  /-- The interrupt unit performs this word (R84, R134). -/
  | interrupt (w : Word)
  /-- The UART performs this word (R84). -/
  | uart (w : Word)
  /-- The external reset event (R240), and the program the host begins after it (R241). Log 10. -/
  | reset (program : List Word)
  deriving DecidableEq, Repr

/-- What a step finds to do (Machine/Ports.lean). -/
inductive Request where
  | reset (program : List Word)
  | word (p : Port) (w : Word)
  | idle
  deriving DecidableEq, Repr

/-- The state `S` of one instance (R20), with the parameters and the inputs the step function reads. -/
structure State where
  /-- The parameters of R10. -/
  params : Params
  /-- `S.RX` (R22). -/
  rx : Ring
  /-- `S.TX` (R23). -/
  tx : Ring
  /-- `S.OPEN` (R24). -/
  isOpen : Bool
  /-- `S.TXS` (R25). -/
  txs : TxState
  /-- `S.DIR` (R27). -/
  dir : Direction
  /-- `S.IE` (R29). -/
  ie : InterruptEnables
  /-- `S.OVR` (R30). -/
  ovr : Bool
  /-- `S.FE` (R31). -/
  fe : Bool
  /-- `S.PE` (R31). -/
  pe : Bool
  /-- `S.DOR` (R32). -/
  dor : Bool
  /-- `S.CFG` (R34). -/
  cfg : FrameConfig
  /-- `S.GIE` (R35). -/
  gie : Bool
  /-- `S.RES` (R36). -/
  res : Word
  /-- `S.UDR` (R37). -/
  udr : Option Byte
  /-- `S.TSR` (R38). -/
  tsr : Option ShiftEntry
  /-- `S.TXCF` (R39). -/
  txcf : Bool
  /-- `S.RDR` (R40). -/
  rdr : Option RxFrame
  /-- `S.WIRE` (R41). -/
  wire : List WireRecord
  /-- `S.STOP` (R42). -/
  stop : Stop
  /-- The host's program: commands not yet performed, in program order (R222). Log 3. -/
  prog : List Word
  /-- The turns to come. Log 3. -/
  sched : List Turn
  deriving DecidableEq, Repr

/-- Why the machine stops with a fault. -/
inductive Fault where
  /-- Raised by every step of a state whose STOP is `Faulted(IllegalCommand, w)`: "no agent has a further step" (R42, R211). It
  stands for the spec's own outcome. Safe. -/
  | illegalCommand (w : Word)
  deriving DecidableEq, Repr

/-- Why a step is refused. -/
inductive Refusal where
  /-- Raised by an arm of exec whose operation has no meaning yet. Safe. No arm of this model raises it. -/
  | notModelled (mnemonic : String)
  /-- Raised by every step of a state whose STOP is `Refused(NineBitData, w)`: "no agent has a further step" (R42, R213). It stands
  for the spec's own outcome. Safe. -/
  | nineBitData (w : Word)
  /-- Raised by the meaning of a handler or a UART event that is not enabled in its turn: such a schedule "is not a run and
  produces no state" (R230). Raised too by a board's step of an instance that does not exist. It is the model's outcome, not one of the
  block. Safe. Logs 5 and 18. -/
  | notEnabled
  deriving DecidableEq, Repr

/-- An empty ring with both indices 0 and no slot written (R48). -/
def Ring.atReset : Ring := { store := [], head := 0, tail := 0 }

/-- `S.CFG` after reset: the spec gives no value and says it is never observable (R48). DESIGN CHOICE, log 8. -/
def FrameConfig.atReset : FrameConfig := { baud := 0, parity := .none, stop := .one, dbits := .five }

/-- The state after reset of an instance with parameters `p` (R48). -/
def State.resetWith (p : Params) : State where
  params := p
  rx := Ring.atReset
  tx := Ring.atReset
  isOpen := false
  txs := .idle
  dir := .receive
  ie := { rxcie := false, dreie := false, txcie := false }
  ovr := false
  fe := false
  pe := false
  dor := false
  cfg := FrameConfig.atReset
  gie := true
  res := 0
  udr := none
  tsr := none
  txcf := false
  rdr := none
  wire := []
  stop := .running
  prog := []
  sched := []

/-- The parameters of the modelled implementation (R10). -/
def Params.config : Params where
  rxCap := Config.rxCap
  txCap := Config.txCap
  rxOverrunPolicy := Config.rxOverrunPolicy
  deActiveHigh := Config.deActiveHigh

/-- The machine right after reset (R48, R241). -/
def State.reset : State := State.resetWith Params.config

end Sys2Proof.Machine
end

