-- ==== Sys2Proof/Machine/Direction.lean ====
section
/-! DEFINITION. The direction controller (41_direction_controller.md). -/

namespace Sys2Proof.Machine

/-- `assert_transmit()` (R120). -/
def State.assertTransmit (s : State) : State := { s with dir := .transmit }

/-- `release_to_receive()` (R121). -/
def State.releaseToReceive (s : State) : State := { s with dir := .receive }

/-- `DE_PIN`, a function of `S.DIR` and the board's polarity (R28). -/
def State.dePin (s : State) : Bool :=
  if s.dir = .transmit then s.params.deActiveHigh else !s.params.deActiveHigh

end Sys2Proof.Machine
end

