-- ==== Sys2Proof/Machine/Flags.lean ====
section
/-! DEFINITION. The status byte and the sticky flags (R25, R30 to R33), the interrupt enables as bits (R29) and the interrupt
conditions (R43). -/

namespace Sys2Proof.Machine

/-- `txs_code` (R25). -/
def TxState.code : TxState → BitVec 2
  | .idle => 0b00#2
  | .sending => 0b01#2
  | .draining => 0b10#2

/-- `tx_in_progress = (S.TXS != Idle)` (R26). -/
def State.txInProgress (s : State) : Bool := s.txs != .idle

/-- `status_byte(S)`, OPEN in bit 7 down to OVR in bit 0 (R33). -/
def State.statusByte (s : State) : Byte :=
  BitVec.ofBool s.isOpen ++ BitVec.ofBool (s.dir == .transmit) ++ s.txs.code ++ BitVec.ofBool s.dor ++ BitVec.ofBool s.pe ++
    BitVec.ofBool s.fe ++ BitVec.ofBool s.ovr

/-- The clearing of the four sticky flags by STATUS and OPEN (R166, R150). -/
def State.clearSticky (s : State) : State := { s with ovr := false, fe := false, pe := false, dor := false }

/-- `S.IE` as its three bits: RXCIE bit 0, DREIE bit 1, TXCIE bit 2 (R29). -/
def InterruptEnables.bits (e : InterruptEnables) : BitVec 3 :=
  BitVec.ofBool e.txcie ++ BitVec.ofBool e.dreie ++ BitVec.ofBool e.rxcie

/-- `v_pending(S)` (R43). -/
def State.pending (s : State) : IrqVector → Bool
  | .rxc => s.rdr.isSome && s.ie.rxcie
  | .dre => s.udr.isNone && s.ie.dreie
  | .txc => s.txcf && s.ie.txcie

end Sys2Proof.Machine
end

