-- ==== Sys2Proof/WellFormed.lean ====
section
/-! DEFINITION. Which operations a legal word can stand for. The operand types hold every other limit of R83. -/

namespace Sys2Proof

/-- The one operand check the types leave: baud 0 is reserved (R81, R83). -/
def Instr.wellFormed : Instr → Bool
  | .openUart baud _ _ _ => baud != 0
  | .close => true
  | .write _ => true
  | .tryWrite _ => true
  | .read => true
  | .peek => true
  | .available => true
  | .flush => true
  | .status => true
  | .csEnter => true
  | .csExit => true
  | .isrRxc => true
  | .isrDre => true
  | .isrTxc => true
  | .uartRx _ _ _ => true
  | .uartTxLoad => true
  | .uartTxDone => true

end Sys2Proof
end

