-- ==== Sys2Proof/Decode.lean ====
section
/-! DEFINITION. The port words: the total decoder of R85, the encoder of R72 to R82, and the port an opcode names (R84). -/

namespace Sys2Proof

/-- Why a word is illegal, one name per clause of R83. -/
inductive IllegalReason where
  /-- `w[31:28] == 0x0`. -/
  | reservedOpcode
  /-- A fixed-zero field of format N, B, V or F is not zero. -/
  | fixedBitsNotZero
  /-- A format V word with `w[1:0] == 0b00`. -/
  | reservedVector
  /-- An OPEN word with `p == 0b11`. -/
  | reservedParity
  /-- An OPEN word with `d >= 0b101`. -/
  | reservedDataBits
  /-- An OPEN word with `baud == 0`. -/
  | zeroBaud
  deriving DecidableEq, Repr

/-- `Op or Illegal`, the decoder's answer (R85). -/
inductive Decoded where
  | op (i : Instr)
  | illegal (r : IllegalReason)
  deriving DecidableEq, Repr

/-- `w[31:28]` (R71). -/
def opcode (w : Word) : BitVec 4 := w.extractLsb' 28 4

/-- The parity field `p` (R81); `none` for the reserved code. -/
def parityOfCode (p : BitVec 2) : Option Parity :=
  match p.toNat with
  | 0 => some .none
  | 1 => some .even
  | 2 => some .odd
  | _ => none

/-- The stop-bits field `s` (R81). -/
def stopOfCode (s : BitVec 1) : StopBits :=
  if s = 0 then .one else .two

/-- The data-bits field `d` (R82); `none` for the reserved codes. -/
def dataBitsOfCode (d : BitVec 3) : Option DataBits :=
  match d.toNat with
  | 0 => some .five
  | 1 => some .six
  | 2 => some .seven
  | 3 => some .eight
  | 4 => some .nine
  | _ => none

/-- Format O (R74): the OPEN word, with its reserved field values refused by name (R83). -/
def decodeOpen (w : Word) : Decoded :=
  let baud := w.extractLsb' 0 22
  match parityOfCode (w.extractLsb' 26 2) with
  | none => .illegal .reservedParity
  | some p =>
    match dataBitsOfCode (w.extractLsb' 22 3) with
    | none => .illegal .reservedDataBits
    | some d => if baud = 0 then .illegal .zeroBaud else .op (.openUart baud p (stopOfCode (w.extractLsb' 25 1)) d)

/-- Format N (R72): `w[27:0] = 0`. -/
def decodeFormatN (i : Instr) (w : Word) : Decoded :=
  if w.extractLsb' 0 28 = 0 then .op i else .illegal .fixedBitsNotZero

/-- Format B (R73): `w[27:8] = 0`, the byte in `w[7:0]` (R78). -/
def decodeFormatB (mk : Byte → Instr) (w : Word) : Decoded :=
  if w.extractLsb' 8 20 = 0 then .op (mk (w.extractLsb' 0 8)) else .illegal .fixedBitsNotZero

/-- Format V (R75): `w[27:2] = 0`, the vector in `w[1:0]` (R79). -/
def decodeFormatV (w : Word) : Decoded :=
  if w.extractLsb' 2 26 = 0 then
    match (w.extractLsb' 0 2).toNat with
    | 1 => .op .isrRxc
    | 2 => .op .isrDre
    | 3 => .op .isrTxc
    | _ => .illegal .reservedVector
  else .illegal .fixedBitsNotZero

/-- Format F (R76): `w[27:10] = 0`, the frame in `w[9:0]` (R80). -/
def decodeFormatF (w : Word) : Decoded :=
  if w.extractLsb' 10 18 = 0 then
    .op (.uartRx (w.extractLsb' 0 8) (w.getLsbD 8) (w.getLsbD 9))
  else .illegal .fixedBitsNotZero

/-- The decoder, total on every word (R85). -/
def decode (w : Word) : Decoded :=
  match (opcode w).toNat with
  | 1 => decodeOpen w
  | 2 => decodeFormatN .close w
  | 3 => decodeFormatB .write w
  | 4 => decodeFormatB .tryWrite w
  | 5 => decodeFormatN .read w
  | 6 => decodeFormatN .peek w
  | 7 => decodeFormatN .available w
  | 8 => decodeFormatN .flush w
  | 9 => decodeFormatN .status w
  | 10 => decodeFormatN .csEnter w
  | 11 => decodeFormatN .csExit w
  | 12 => decodeFormatV w
  | 13 => decodeFormatF w
  | 14 => decodeFormatN .uartTxLoad w
  | 15 => decodeFormatN .uartTxDone w
  | _ => .illegal .reservedOpcode

/-- The operation of a table word (the host's interface): every row has one word of 32 bits, and bits above `nbits` are 0. -/
def decodeTableWord (nbits w : Nat) : Option Instr :=
  match decode (BitVec.ofNat 32 (w % 2 ^ nbits)) with
  | .op i => some i
  | .illegal _ => none

/-! ## The encoder -/

/-- The parity code `p` of R81. -/
def Parity.code : Parity → BitVec 2
  | .none => 0b00#2
  | .even => 0b01#2
  | .odd => 0b10#2

/-- The stop-bits code `s` of R81. -/
def StopBits.code : StopBits → BitVec 1
  | .one => 0#1
  | .two => 1#1

/-- The data-bits code `d` of R82: `dbits = 5 + d`. -/
def DataBits.code : DataBits → BitVec 3
  | .five => 0b000#3
  | .six => 0b001#3
  | .seven => 0b010#3
  | .eight => 0b011#3
  | .nine => 0b100#3

/-- A format N word (R72). -/
def formatN (op : BitVec 4) : Word := op ++ 0#28

/-- A format B word (R73). -/
def formatB (op : BitVec 4) (v : Byte) : Word := op ++ 0#20 ++ v

/-- A format V word (R75). -/
def formatV (vec : BitVec 2) : Word := 0xC#4 ++ 0#26 ++ vec

/-- A format F word (R76). -/
def formatF (b : Byte) (fe pe : Bool) : Word := 0xD#4 ++ 0#18 ++ BitVec.ofBool pe ++ BitVec.ofBool fe ++ b

/-- A format O word (R74). -/
def formatO (baud : BitVec 22) (p : BitVec 2) (s : BitVec 1) (d : BitVec 3) : Word := 0x1#4 ++ p ++ s ++ d ++ baud

/-- The word of an operation (R77). -/
def encode : Instr → Word
  | .openUart baud p s d => formatO baud p.code s.code d.code
  | .close => formatN 0x2#4
  | .write v => formatB 0x3#4 v
  | .tryWrite v => formatB 0x4#4 v
  | .read => formatN 0x5#4
  | .peek => formatN 0x6#4
  | .available => formatN 0x7#4
  | .flush => formatN 0x8#4
  | .status => formatN 0x9#4
  | .csEnter => formatN 0xA#4
  | .csExit => formatN 0xB#4
  | .isrRxc => formatV 0b01#2
  | .isrDre => formatV 0b10#2
  | .isrTxc => formatV 0b11#2
  | .uartRx b fe pe => formatF b fe pe
  | .uartTxLoad => formatN 0xE#4
  | .uartTxDone => formatN 0xF#4

/-! ## Ports and the opcode map -/

/-- The port column of the opcode map (R77). -/
def Instr.port : Instr → Port
  | .openUart _ _ _ _ => .host
  | .close => .host
  | .write _ => .host
  | .tryWrite _ => .host
  | .read => .host
  | .peek => .host
  | .available => .host
  | .flush => .host
  | .status => .host
  | .csEnter => .host
  | .csExit => .host
  | .isrRxc => .interrupt
  | .isrDre => .interrupt
  | .isrTxc => .interrupt
  | .uartRx _ _ _ => .uart
  | .uartTxLoad => .uart
  | .uartTxDone => .uart

/-- In a schedule script "each word's opcode names the agent that performs it" (R84). Opcode 0x0, which no agent owns, is
given to the host (log 17). -/
def portOfWord (w : Word) : Port :=
  if (opcode w).toNat < 12 then .host else if (opcode w).toNat = 12 then .interrupt else .uart

/-- The match column of the opcode map (R77). -/
def Instr.matchBits : Instr → Word
  | .openUart _ _ _ _ => 0x10000000#32
  | .close => 0x20000000#32
  | .write _ => 0x30000000#32
  | .tryWrite _ => 0x40000000#32
  | .read => 0x50000000#32
  | .peek => 0x60000000#32
  | .available => 0x70000000#32
  | .flush => 0x80000000#32
  | .status => 0x90000000#32
  | .csEnter => 0xA0000000#32
  | .csExit => 0xB0000000#32
  | .isrRxc => 0xC0000001#32
  | .isrDre => 0xC0000002#32
  | .isrTxc => 0xC0000003#32
  | .uartRx _ _ _ => 0xD0000000#32
  | .uartTxLoad => 0xE0000000#32
  | .uartTxDone => 0xF0000000#32

/-- The mask column of the opcode map (R77). -/
def Instr.maskBits : Instr → Word
  | .openUart _ _ _ _ => 0xF0000000#32
  | .close => 0xFFFFFFFF#32
  | .write _ => 0xFFFFFF00#32
  | .tryWrite _ => 0xFFFFFF00#32
  | .read => 0xFFFFFFFF#32
  | .peek => 0xFFFFFFFF#32
  | .available => 0xFFFFFFFF#32
  | .flush => 0xFFFFFFFF#32
  | .status => 0xFFFFFFFF#32
  | .csEnter => 0xFFFFFFFF#32
  | .csExit => 0xFFFFFFFF#32
  | .isrRxc => 0xFFFFFFFF#32
  | .isrDre => 0xFFFFFFFF#32
  | .isrTxc => 0xFFFFFFFF#32
  | .uartRx _ _ _ => 0xFFFFFC00#32
  | .uartTxLoad => 0xFFFFFFFF#32
  | .uartTxDone => 0xFFFFFFFF#32

end Sys2Proof
end

