-- ==== Sys2Proof/Machine/Operands.lean ====
section
/-! DEFINITION. Operand and result values: the frame's data bits and their mask (R193), the received frame as RDR holds it (R190),
and the result words of R162 to R166. -/

namespace Sys2Proof.Machine

/-- The data bits as CFG holds them; `none` for nine, which OPEN refuses (R150, C4). -/
def dataBitsToFrame : DataBits → Option FrameBits
  | .five => some .five
  | .six => some .six
  | .seven => some .seven
  | .eight => some .eight
  | .nine => none

/-- The number of data bits of a frame (R34). -/
def FrameBits.toNat : FrameBits → Nat
  | .five => 5
  | .six => 6
  | .seven => 7
  | .eight => 8

/-- `dmask(d) = 2^d - 1` (R193). -/
def dmask (d : FrameBits) : Byte := BitVec.ofNat 8 (2 ^ d.toNat - 1)

/-- A byte as the wire carries it: "only its low `CFG.dbits` bits" (R193). -/
def onWire (c : FrameConfig) (b : Byte) : Byte := b &&& dmask c.dbits

/-- The frame RDR takes from the wire: the byte masked, and "no parity error without parity" (R190). -/
def receivedFrame (c : FrameConfig) (b : Byte) (fe pe : Bool) : RxFrame :=
  { b := onWire c b, fe := fe, pe := pe && c.parity != .none }

/-- The result of READ and PEEK: `zext_32({1, b})`, or 0 for an empty ring (R162, R164). -/
def byteResult : Option Byte → Word
  | some b => (1#1 ++ b).zeroExtend 32
  | none => 0

/-- The result of AVAILABLE: `zext_32(len)` (R165). -/
def countResult (k : Nat) : Word := BitVec.ofNat 32 k

/-- The result of STATUS: `zext_32(status_byte)` (R166). -/
def statusResult (b : Byte) : Word := b.zeroExtend 32

/-- The numeric code of a fault (R211). -/
def FaultCode.code : FaultCode → Nat
  | .illegalCommand => 1

/-- The numeric code of a refusal (R213). -/
def RefusalReason.code : RefusalReason → Nat
  | .nineBitData => 1

/-- A frame's length on the wire in bit periods, `1 + dbits + (parity != none ? 1 : 0) + stop` (R260, non-normative). -/
def FrameConfig.bitPeriods (c : FrameConfig) : Nat :=
  1 + c.dbits.toNat + (if c.parity = .none then 0 else 1) + (match c.stop with | .one => 1 | .two => 2)

end Sys2Proof.Machine
end

