-- ==== Sys2Proof/Machine/Memory.lean ====
section
/-! DEFINITION. The bytes of a storage space (RXS or TXS, R50) as cells in one canonical form: addresses strictly rising, and no
cell equal to what an unlisted slot reads as. Every access is one byte wide (R52). -/

namespace Sys2Proof.Machine

/-- What a slot that no push has written reads as. The spec leaves it open and says no observation depends on it (R53, U1).
DESIGN CHOICE, log 7. -/
def Memory.unlisted : Byte := 0

/-- `MemRead(space:a, 1)` (R52). -/
def Memory.read : List Host.Cell → Nat → Byte
  | [], _ => Memory.unlisted
  | c :: m, a => if c.1 = a then c.2 else Memory.read m a

/-- Put a cell in front, unless it says what an unlisted slot says anyway. -/
def Memory.listed (a : Nat) (b : Byte) (m : List Host.Cell) : List Host.Cell :=
  if b = Memory.unlisted then m else (a, b) :: m

/-- `MemWrite(space:a, 1, b)` (R52), keeping the canonical form. -/
def Memory.write : List Host.Cell → Nat → Byte → List Host.Cell
  | [], a, b => Memory.listed a b []
  | c :: m, a, b =>
    if a < c.1 then Memory.listed a b (c :: m)
    else if a = c.1 then Memory.listed a b m
    else c :: Memory.write m a b

/-- The canonical form. -/
def Memory.wf : List Host.Cell → Bool
  | [] => true
  | c :: m => c.2 != Memory.unlisted && m.all (fun d => c.1 < d.1) && Memory.wf m

end Sys2Proof.Machine
end

