-- ==== Sys2Proof/Machine/Ring.lean ====
section
/-! DEFINITION. The ring buffer primitives (40_ring_buffer.md). `n` is the ring's slot count: RX_CAP for RX, TX_CAP for TX. -/

namespace Sys2Proof.Machine

/-- `adv(i) = (i + 1) mod N` (R99). -/
def Ring.adv (n i : Nat) : Nat := (i + 1) % n

/-- `count(r) = (r.tail - r.head) mod N`, the non-negative remainder, for indices in `0 .. N-1` (R99). -/
def Ring.count (n : Nat) (r : Ring) : Nat := (r.tail + n - r.head) % n

/-- `len(r) = count(r)` (R103). -/
def Ring.len (n : Nat) (r : Ring) : Nat := r.count n

/-- `is_empty(r) = (r.head == r.tail)` (R103). -/
def Ring.isEmpty (r : Ring) : Bool := r.head == r.tail

/-- `is_full(r) = (count(r) == N - 1)` (R103, R11). -/
def Ring.isFull (n : Nat) (r : Ring) : Bool := r.count n == n - 1

/-- `push(r, b) -> Bool` (R100). -/
def Ring.push (n : Nat) (r : Ring) (b : Byte) : Bool × Ring :=
  if r.count n = n - 1 then (false, r)
  else (true, { r with store := Memory.write r.store r.tail b, tail := Ring.adv n r.tail })

/-- `pop(r) -> Option byte` (R101). -/
def Ring.pop (n : Nat) (r : Ring) : Option Byte × Ring :=
  if r.head = r.tail then (none, r)
  else (some (Memory.read r.store r.head), { r with head := Ring.adv n r.head })

/-- `peek(r) -> Option byte` (R102). -/
def Ring.peek (r : Ring) : Option Byte :=
  if r.head = r.tail then none else some (Memory.read r.store r.head)

/-- `reset(r)`: both indices 0, the storage not cleared (R104). -/
def Ring.reset (r : Ring) : Ring := { r with head := 0, tail := 0 }

/-- The discarding of the oldest byte under `OverwriteOldest` (R105). -/
def Ring.dropOldest (n : Nat) (r : Ring) : Ring := { r with head := Ring.adv n r.head }

/-- The bytes a ring holds, oldest first: the slots `head .. tail-1 (mod N)` (R53). -/
def Ring.contents (n : Nat) (r : Ring) : List Byte :=
  (List.range (r.count n)).map fun k => Memory.read r.store ((r.head + k) % n)

/-- Consecutive pushes in order: how many succeeded, and the ring they leave (R106, R107). -/
def Ring.pushAll (n : Nat) (r : Ring) : List Byte → Nat × Ring
  | [] => (0, r)
  | b :: bs =>
    let x := r.push n b
    let y := x.2.pushAll n bs
    ((if x.1 then 1 else 0) + y.1, y.2)

/-- `m` consecutive pops: the bytes they answer, in order, and the ring they leave (R106). -/
def Ring.popAll (n : Nat) (r : Ring) : Nat → List Byte × Ring
  | 0 => ([], r)
  | m + 1 =>
    let x := r.pop n
    let y := x.2.popAll n m
    (x.1.toList ++ y.1, y.2)

/-- Both indices in `0 .. N-1`, and the storage canonical (R22, R55). -/
def Ring.wf (n : Nat) (r : Ring) : Bool :=
  decide (r.head < n) && decide (r.tail < n) && Memory.wf r.store && r.store.all (fun c => c.1 < n)

/-- `push_rx(b)`: the receive path's push, under `RX_OVERRUN_POLICY` (R105). -/
def State.pushRx (s : State) (b : Byte) : State :=
  if s.rx.isFull s.params.rxCap then
    match s.params.rxOverrunPolicy with
    | .dropNewest => { s with ovr := true }
    | .overwriteOldest =>
      { s with ovr := true, rx := ((s.rx.dropOldest s.params.rxCap).push s.params.rxCap b).2 }
  else { s with rx := (s.rx.push s.params.rxCap b).2 }

end Sys2Proof.Machine
end

