-- ==== Sys2Proof/Machine/Ops.lean ====
section
/-! DEFINITION. The shared operations: stopping (R211, R213), holding (R216), taking a vector and returning from it (R134, R220,
R221), and the one form every meaning has, `attempt`. -/

namespace Sys2Proof.Machine

/-- `raise Fault(IllegalCommand, w)`: "`S.STOP <- Faulted(IllegalCommand, w)`; no other state changes" (R211). -/
def State.raiseIllegal (s : State) (w : Word) : State := { s with stop := .faulted .illegalCommand w }

/-- `refuse Reason`: "`S.STOP <- Refused(NineBitData, w)`; no other state changes" (R213). -/
def State.refuse (s : State) (r : RefusalReason) (w : Word) : State := { s with stop := .refused r w }

/-- What a state with STOP set answers, and `o` when it is Running: "no agent has a further step" (R42). -/
def State.whenRunning (s : State) (o : Host.Outcome State Fault Refusal) : Host.Outcome State Fault Refusal :=
  match s.stop with
  | .running => o
  | .faulted .illegalCommand w => .fault (.illegalCommand w)
  | .refused .nineBitData w => .refused (.nineBitData w)

/-- `is_full(S.TX)` (R103). -/
def State.txFull (s : State) : Bool := s.tx.isFull s.params.txCap

/-- The hold condition of a host command (R216). OPEN with nine bits is refused before it holds (R215). -/
def State.holds (s : State) : Instr → Bool
  | .openUart _ _ _ d => (dataBitsToFrame d).isSome && s.txInProgress
  | .close => s.txInProgress
  | .write _ => s.isOpen && s.txFull
  | .tryWrite _ => false
  | .read => false
  | .peek => false
  | .available => false
  | .flush => s.txInProgress
  | .status => false
  | .csEnter => false
  | .csExit => false
  | .isrRxc => false
  | .isrDre => false
  | .isrTxc => false
  | .uartRx _ _ _ => false
  | .uartTxLoad => false
  | .uartTxDone => false

/-- No vector of higher priority than `v` is pending: RXC above DRE above TXC (R134, R135). -/
def State.highest (s : State) : IrqVector → Bool
  | .rxc => true
  | .dre => !s.pending .rxc
  | .txc => !s.pending .rxc && !s.pending .dre

/-- A handler step for `v` is enabled, STOP apart: GIE is 1, `v` is pending and none of higher priority is (R134). -/
def State.vectorEnabled (s : State) (v : IrqVector) : Bool := s.gie && s.pending v && s.highest v

/-- Taking a vector: it "saves no state, changes no mode and no mask"; "the only effect of entry itself is the clearing of
`S.TXCF` by ISR_TXC" (R220, R133). -/
def State.enterVector (s : State) : IrqVector → State
  | .rxc => s
  | .dre => s
  | .txc => { s with txcf := false }

/-- Returning from a handler: "nothing is restored" (R221). -/
def State.leaveVector (s : State) : State := s

/-- The enabling condition of a handler or UART event, STOP apart (R134, R190 to R192); a host command's is its hold (R216). -/
def State.ready (s : State) : Instr → Bool
  | .openUart _ _ _ _ => true
  | .close => true
  | .write _ => true
  | .tryWrite _ => true
  | .read => true
  | .peek => true
  | .available => true
  | .flush => true
  | .status => true
  | .csEnter => true
  | .csExit => true
  | .isrRxc => s.vectorEnabled .rxc
  | .isrDre => s.vectorEnabled .dre
  | .isrTxc => s.vectorEnabled .txc
  | .uartRx _ _ _ => true
  | .uartTxLoad => s.udr.isSome && s.tsr.isNone
  | .uartTxDone => s.tsr.isSome

/-- Operation `i` is an enabled step of its agent (R230). -/
def State.enabled (s : State) (i : Instr) : Bool :=
  s.stop == .running && !s.holds i && s.ready i

/-- The form of every meaning. A held command leaves the state as it is and is tried again later (R15, R216); an operation that
is not enabled gives no state (R230); otherwise the operation has its effect `t`, in one atomic step (R56). Logs 4 and 5. -/
def State.attempt (s : State) (i : Instr) (t : State) : Host.Outcome State Fault Refusal :=
  s.whenRunning (if s.holds i then .next s else if s.ready i then .next t else .refused .notEnabled)

end Sys2Proof.Machine
end

