-- ==== Sys2Proof/Machine/Handlers.lean ====
section
/-! DEFINITION. The three interrupt handlers (42_interrupt_handlers.md): each enters its vector, runs its body and returns, in one
atomic step. -/

namespace Sys2Proof.Machine

/-- The body of ISR_RXC: take the frame, set its error flags, push its byte (R131). -/
def receiveComplete (s : State) : State :=
  match s.rdr with
  | none => s
  | some f => ({ s with rdr := none, fe := s.fe || f.fe, pe := s.pe || f.pe }).pushRx f.b

/-- ISR_RXC (R131). -/
def execIsrRxc (s : State) : Host.Outcome State Fault Refusal :=
  s.attempt .isrRxc (receiveComplete (s.enterVector .rxc)).leaveVector

/-- The body of ISR_DRE: move one byte to the data register, or enter Draining (R132). -/
def dataRegisterEmpty (s : State) : State :=
  match s.tx.pop s.params.txCap with
  | (some b, r) => { s with tx := r, udr := some b, txcf := false }
  | (none, _) => { s with ie := { s.ie with dreie := false, txcie := true }, txs := .draining }

/-- ISR_DRE (R132). -/
def execIsrDre (s : State) : Host.Outcome State Fault Refusal :=
  s.attempt .isrDre (dataRegisterEmpty (s.enterVector .dre)).leaveVector

/-- The body of ISR_TXC: disable itself, release the bus, enter Idle (R133). -/
def transmitComplete (s : State) : State :=
  { ({ s with ie := { s.ie with txcie := false } }).releaseToReceive with txs := .idle }

/-- ISR_TXC (R133). -/
def execIsrTxc (s : State) : Host.Outcome State Fault Refusal :=
  s.attempt .isrTxc (transmitComplete (s.enterVector .txc)).leaveVector

end Sys2Proof.Machine
end

