-- ==== Sys2Proof/Machine/HostCommands.lean ====
section
/-! DEFINITION. The eleven host commands (43_public_api.md). Holds and STOP are `State.attempt`'s. -/

namespace Sys2Proof.Machine

/-- OPEN's effect with a frame the block can hold (R150). -/
def openEffect (baud : BitVec 22) (p : Parity) (st : StopBits) (d : FrameBits) (s : State) : State :=
  { s.clearSticky with
    cfg := { baud := baud, parity := p, stop := st, dbits := d }
    rx := s.rx.reset
    tx := s.tx.reset
    rdr := none
    ie := { rxcie := true, dreie := false, txcie := false }
    txs := .idle
    isOpen := true }

/-- OPEN (R150); nine data bits are refused with the OPEN word recorded (R213). -/
def execOpenUart (baud : BitVec 22) (p : Parity) (st : StopBits) (d : DataBits) (s : State) : Host.Outcome State Fault Refusal :=
  match dataBitsToFrame d with
  | some f => s.attempt (.openUart baud p st d) (openEffect baud p st f s)
  | none => s.attempt (.openUart baud p st d) (s.refuse .nineBitData (encode (.openUart baud p st d)))

/-- CLOSE's effect: the four sticky flags are kept (R155). -/
def closeEffect (s : State) : State :=
  { s with
    ie := { rxcie := false, dreie := false, txcie := false }
    rx := s.rx.reset
    tx := s.tx.reset
    rdr := none
    isOpen := false }

/-- CLOSE (R155). -/
def execClose (s : State) : Host.Outcome State Fault Refusal := s.attempt .close (closeEffect s)

/-- Idle asserts the direction; Idle and Draining enter Sending with TXCIE 0 and DREIE 1 (R158, R160, R259). -/
def State.startBurst (s : State) : State :=
  match s.txs with
  | .idle => { s.assertTransmit with ie := { s.ie with txcie := false, dreie := true }, txs := .sending }
  | .sending => s
  | .draining => { s with ie := { s.ie with txcie := false, dreie := true }, txs := .sending }

/-- The accepting path WRITE and TRYWRITE share, with the TX ring not full (R158, R160). -/
def State.acceptByte (s : State) (v : Byte) : State :=
  { ({ s with tx := (s.tx.push s.params.txCap v).2 }).startBurst with res := 1 }

/-- WRITE's effect when it does not hold (R158). -/
def writeEffect (v : Byte) (s : State) : State :=
  if s.isOpen then s.acceptByte v else { s with res := 0 }

/-- WRITE (R158). -/
def execWrite (v : Byte) (s : State) : Host.Outcome State Fault Refusal := s.attempt (.write v) (writeEffect v s)

/-- TRYWRITE's effect (R160). -/
def tryWriteEffect (v : Byte) (s : State) : State :=
  if !s.isOpen || s.txFull then { s with res := 0 } else s.acceptByte v

/-- TRYWRITE (R160). -/
def execTryWrite (v : Byte) (s : State) : Host.Outcome State Fault Refusal := s.attempt (.tryWrite v) (tryWriteEffect v s)

/-- READ (R162). -/
def execRead (s : State) : Host.Outcome State Fault Refusal :=
  let x := s.rx.pop s.params.rxCap
  s.attempt .read { s with rx := x.2, res := byteResult x.1 }

/-- PEEK (R164). -/
def execPeek (s : State) : Host.Outcome State Fault Refusal :=
  s.attempt .peek { s with res := byteResult s.rx.peek }

/-- AVAILABLE (R165). -/
def execAvailable (s : State) : Host.Outcome State Fault Refusal :=
  s.attempt .available { s with res := countResult (s.rx.len s.params.rxCap) }

/-- FLUSH: no state change once it completes (R168). -/
def execFlush (s : State) : Host.Outcome State Fault Refusal := s.attempt .flush s

/-- STATUS: the value before clearing, then the clearing (R166). -/
def execStatus (s : State) : Host.Outcome State Fault Refusal :=
  s.attempt .status { s.clearSticky with res := statusResult s.statusByte }

/-- CS_ENTER (R172). -/
def execCsEnter (s : State) : Host.Outcome State Fault Refusal := s.attempt .csEnter { s with gie := false }

/-- CS_EXIT (R173). -/
def execCsExit (s : State) : Host.Outcome State Fault Refusal := s.attempt .csExit { s with gie := true }

end Sys2Proof.Machine
end

