-- ==== Sys2Proof/Machine/UartEvents.lean ====
section
/-! DEFINITION. The three events of the UART (44_uart_events.md). Neither GIE nor IE gates them (R196). -/

namespace Sys2Proof.Machine

/-- UART_RX's effect (R190). -/
def frameArrives (b : Byte) (fe pe : Bool) (s : State) : State :=
  if !s.isOpen then s
  else
    match s.rdr with
    | some _ => { s with dor := true }
    | none => { s with rdr := some (receivedFrame s.cfg b fe pe) }

/-- UART_RX (R190). -/
def execUartRx (b : Byte) (fe pe : Bool) (s : State) : Host.Outcome State Fault Refusal :=
  s.attempt (.uartRx b fe pe) (frameArrives b fe pe s)

/-- UART_TX_LOAD's effect, on a full data register (R191). -/
def loadShiftRegister (s : State) : State :=
  match s.udr with
  | none => s
  | some b => { s with tsr := some { b := b, deStart := s.dir }, udr := none }

/-- UART_TX_LOAD (R191). -/
def execUartTxLoad (s : State) : Host.Outcome State Fault Refusal := s.attempt .uartTxLoad (loadShiftRegister s)

/-- UART_TX_DONE's effect, on a full shift register (R192). -/
def frameLeaves (s : State) : State :=
  match s.tsr with
  | none => s
  | some e =>
    { s with
      wire := s.wire ++ [{ b := onWire s.cfg e.b, deStart := e.deStart, deEnd := s.dir }]
      tsr := none
      txcf := if s.udr.isNone then true else s.txcf }

/-- UART_TX_DONE (R192). -/
def execUartTxDone (s : State) : Host.Outcome State Fault Refusal := s.attempt .uartTxDone (frameLeaves s)

end Sys2Proof.Machine
end

