-- ==== Sys2Proof/Machine/Dispatch.lean ====
section
/-! DEFINITION. What each operation does: one arm per constructor, each a direct call of its meaning. -/

namespace Sys2Proof.Machine

def exec (i : Instr) (s : State) : Host.Outcome State Fault Refusal :=
  match i with
  | .openUart baud p st d => Sys2Proof.Machine.execOpenUart baud p st d s
  | .close => Sys2Proof.Machine.execClose s
  | .write v => Sys2Proof.Machine.execWrite v s
  | .tryWrite v => Sys2Proof.Machine.execTryWrite v s
  | .read => Sys2Proof.Machine.execRead s
  | .peek => Sys2Proof.Machine.execPeek s
  | .available => Sys2Proof.Machine.execAvailable s
  | .flush => Sys2Proof.Machine.execFlush s
  | .status => Sys2Proof.Machine.execStatus s
  | .csEnter => Sys2Proof.Machine.execCsEnter s
  | .csExit => Sys2Proof.Machine.execCsExit s
  | .isrRxc => Sys2Proof.Machine.execIsrRxc s
  | .isrDre => Sys2Proof.Machine.execIsrDre s
  | .isrTxc => Sys2Proof.Machine.execIsrTxc s
  | .uartRx b fe pe => Sys2Proof.Machine.execUartRx b fe pe s
  | .uartTxLoad => Sys2Proof.Machine.execUartTxLoad s
  | .uartTxDone => Sys2Proof.Machine.execUartTxDone s

end Sys2Proof.Machine
end

