-- ==== Sys2Proof/Machine/Ports.lean ====
section
/-! DEFINITION. The three ports: which word is performed next (R17, R84, R222, R230), what a port may perform (R84, R211), and how
words and reset are given to the machine. -/

namespace Sys2Proof.Machine

/-- What the turn at the head of the schedule asks for. -/
def State.request (s : State) : Request :=
  match s.sched with
  | [] => .idle
  | .reset program :: _ => .reset program
  | .interrupt w :: _ => .word .interrupt w
  | .uart w :: _ => .word .uart w
  | .host :: _ =>
    match s.prog with
    | [] => .idle
    | w :: _ => .word .host w

/-- The operation a word names on a port, if it is legal and that port's own (R83, R84). -/
def legalOn (p : Port) (w : Word) : Option Instr :=
  match decode w with
  | .op i => if i.port = p then some i else none
  | .illegal _ => none

/-- The turn at the head of the schedule is over. -/
def State.endTurn (s : State) : State := { s with sched := s.sched.tail }

/-- The host's current command has been performed: the next one is current (R222). -/
def State.nextCommand (s : State) : State := { s with prog := s.prog.tail }

/-- The turn is over and the word of port `p` is used up. -/
def State.takeWord (s : State) (p : Port) : State :=
  match p with
  | .host => s.endTurn.nextCommand
  | .interrupt => s.endTurn
  | .uart => s.endTurn

/-- The state in which operation `i` is performed: its turn is over and its word is used up, but a held command stays the host's
current one, to be tried again (R15, R216, R222). -/
def State.fetched (s : State) (i : Instr) : State :=
  if s.holds i then s.endTurn else s.takeWord i.port

/-- The external reset event: every element takes its reset value at once (R240), and the host begins `program` (R241). Log 10. -/
def State.applyReset (s : State) (program : List Word) : State :=
  { State.resetWith s.params with prog := program, sched := s.sched.tail }

/-- Give one word to the machine as the very next thing it performs, on the port its opcode names (R84, R230). Log 17. -/
def State.offer (s : State) (w : Word) : State :=
  match portOfWord w with
  | .host => { s with prog := w :: s.prog, sched := .host :: s.sched }
  | .interrupt => { s with sched := .interrupt w :: s.sched }
  | .uart => { s with sched := .uart w :: s.sched }

/-- Give a schedule script (R230) to the machine, ahead of what it already has. -/
def State.loadScript (s : State) (ws : List Word) : State := ws.foldr (fun w t => t.offer w) s

end Sys2Proof.Machine
end

