-- ==== Sys2Proof/Machine/Step.lean ====
section
/-! DEFINITION. One step of the machine (R17, R56, R61). -/

namespace Sys2Proof.Machine

/-- Perform the turn at the head of the schedule: reset (R240), nothing when its agent has nothing to perform (log 9), the fault of
an illegal or foreign word (R83, R84, R211), or the operation the word names. -/
def step (s : State) : Host.Outcome State Fault Refusal :=
  match s.request with
  | .reset program => .next (s.applyReset program)
  | .idle => s.whenRunning (.next s.endTurn)
  | .word p w =>
    match legalOn p w with
    | none => s.whenRunning (.next ((s.takeWord p).raiseIllegal w))
    | some i => exec i (s.fetched i)

/-- `s` with the table word `w` as the very next thing a step performs (the host's interface). Log 3. -/
def State.withFetchWord (s : State) (nbits w : Nat) : State := s.offer (BitVec.ofNat 32 (w % 2 ^ nbits))

end Sys2Proof.Machine
end

