-- ==== Sys2Proof/Machine/Assembler.lean ====
section
/-! DEFINITION. The assembler syntax of R87: one operation per line, mnemonic first, operands separated by commas, numbers decimal
or `0x` hexadecimal. A line is a list of characters. Log 22. -/

namespace Sys2Proof.Machine

/-- The part of a line before the first `c`, and the rest after it. -/
def Asm.splitAtChar (c : Char) : List Char → List Char × Option (List Char)
  | [] => ([], none)
  | d :: ds => if d = c then ([], some ds) else ((d :: (Asm.splitAtChar c ds).1), (Asm.splitAtChar c ds).2)

/-- The operands of a line: the parts between its commas. -/
def Asm.splitCommas : List Char → List (List Char)
  | [] => [[]]
  | d :: ds =>
    match Asm.splitCommas ds with
    | [] => [[d]]
    | p :: ps => if d = ',' then [] :: p :: ps else (d :: p) :: ps

/-- Without the blanks at both ends. -/
def Asm.trim (cs : List Char) : List Char :=
  ((cs.dropWhile (· == ' ')).reverse.dropWhile (· == ' ')).reverse

/-- The value of one digit in a base. -/
def Asm.digit (base : Nat) (c : Char) : Option Nat :=
  let k :=
    if '0' ≤ c ∧ c ≤ '9' then c.toNat - 48
    else if 'a' ≤ c ∧ c ≤ 'f' then c.toNat - 87
    else if 'A' ≤ c ∧ c ≤ 'F' then c.toNat - 55
    else base
  if k < base then some k else none

/-- The value of a row of digits, with what stands before it. -/
def Asm.digits (base : Nat) : Nat → List Char → Option Nat
  | acc, [] => some acc
  | acc, c :: cs =>
    match Asm.digit base c with
    | none => none
    | some k => Asm.digits base (acc * base + k) cs

/-- A number, decimal or `0x` hexadecimal (R87). -/
def Asm.number : List Char → Option Nat
  | [] => none
  | '0' :: 'x' :: c :: cs => Asm.digits 16 0 (c :: cs)
  | c :: cs => Asm.digits 10 0 (c :: cs)

/-- A byte operand (R87). -/
def Asm.byte (cs : List Char) : Option Byte :=
  match Asm.number cs with
  | none => none
  | some k => if k < 256 then some (BitVec.ofNat 8 k) else none

/-- `<d>`, 5 to 9 (R87). -/
def Asm.dataBits (c : Char) : Option DataBits :=
  match c with
  | '5' => some .five
  | '6' => some .six
  | '7' => some .seven
  | '8' => some .eight
  | '9' => some .nine
  | _ => none

/-- `<P>`, `N`, `E` or `O` (R87). -/
def Asm.parity (c : Char) : Option Parity :=
  match c with
  | 'N' => some .none
  | 'E' => some .even
  | 'O' => some .odd
  | _ => none

/-- `<s>`, 1 or 2 (R87). -/
def Asm.stopBits (c : Char) : Option StopBits :=
  match c with
  | '1' => some .one
  | '2' => some .two
  | _ => none

/-- `OPEN <baud>, <d><P><s>` (R87), with a baud rate an OPEN word can hold (R81). -/
def Asm.openLine (baud : List Char) (frame : List Char) : Option Instr :=
  match Asm.number baud, frame with
  | some k, [d, p, s] =>
    match Asm.dataBits d, Asm.parity p, Asm.stopBits s with
    | some d, some p, some s => if 0 < k ∧ k < 4194304 then some (.openUart (BitVec.ofNat 22 k) p s d) else none
    | _, _, _ => none
  | _, _ => none

/-- `UART_RX <b>` with its two optional marks (R87). -/
def Asm.uartLine (b : List Char) (fe pe : Bool) : Option Instr :=
  match Asm.byte b with
  | none => none
  | some v => some (.uartRx v fe pe)

/-- The mnemonics that take no operand (R87). -/
def Asm.plain (m : List Char) : Option Instr :=
  if m = ['C', 'L', 'O', 'S', 'E'] then some .close
  else if m = ['R', 'E', 'A', 'D'] then some .read
  else if m = ['P', 'E', 'E', 'K'] then some .peek
  else if m = ['A', 'V', 'A', 'I', 'L', 'A', 'B', 'L', 'E'] then some .available
  else if m = ['F', 'L', 'U', 'S', 'H'] then some .flush
  else if m = ['S', 'T', 'A', 'T', 'U', 'S'] then some .status
  else if m = ['C', 'S', '_', 'E', 'N', 'T', 'E', 'R'] then some .csEnter
  else if m = ['C', 'S', '_', 'E', 'X', 'I', 'T'] then some .csExit
  else if m = ['I', 'S', 'R', '_', 'R', 'X', 'C'] then some .isrRxc
  else if m = ['I', 'S', 'R', '_', 'D', 'R', 'E'] then some .isrDre
  else if m = ['I', 'S', 'R', '_', 'T', 'X', 'C'] then some .isrTxc
  else if m = ['U', 'A', 'R', 'T', '_', 'T', 'X', '_', 'L', 'O', 'A', 'D'] then some .uartTxLoad
  else if m = ['U', 'A', 'R', 'T', '_', 'T', 'X', '_', 'D', 'O', 'N', 'E'] then some .uartTxDone
  else none

/-- A mnemonic with its operands (R87). -/
def Asm.withOperands (m : List Char) (ops : List (List Char)) : Option Instr :=
  if m = ['O', 'P', 'E', 'N'] then
    match ops with
    | [baud, frame] => Asm.openLine baud frame
    | _ => none
  else if m = ['W', 'R', 'I', 'T', 'E'] then
    match ops with
    | [v] => (Asm.byte v).map .write
    | _ => none
  else if m = ['T', 'R', 'Y', 'W', 'R', 'I', 'T', 'E'] then
    match ops with
    | [v] => (Asm.byte v).map .tryWrite
    | _ => none
  else if m = ['U', 'A', 'R', 'T', '_', 'R', 'X'] then
    match ops with
    | [b] => Asm.uartLine b false false
    | [b, ['F', 'E']] => Asm.uartLine b true false
    | [b, ['P', 'E']] => Asm.uartLine b false true
    | [b, ['F', 'E'], ['P', 'E']] => Asm.uartLine b true true
    | _ => none
  else none

/-- The operation a line of the assembler syntax names (R87). -/
def Asm.parseLine (cs : List Char) : Option Instr :=
  let (m, rest) := Asm.splitAtChar ' ' (Asm.trim cs)
  match rest with
  | none => Asm.plain m
  | some r => Asm.withOperands m ((Asm.splitCommas r).map Asm.trim)

/-- The word of a line (R87, R91). -/
def Asm.assemble (cs : List Char) : Option Word := (Asm.parseLine cs).map encode

end Sys2Proof.Machine
end

