-- ==== Sys2Proof/Machine/Instances.lean ====
section
/-! DEFINITION. `NUM_INSTANCES` independent instances that share no state (R13, R227). Log 18. -/

namespace Sys2Proof.Machine

/-- The instances of a board, one per UART, after reset (R13, R240). -/
def boardReset : List State := List.replicate Config.numInstances State.reset

/-- Instance `k` of a board makes one step; the others are untouched (R227). There is no instance beyond the last, so no step. -/
def boardStep (k : Nat) (b : List State) : Host.Outcome (List State) Fault Refusal :=
  match b[k]? with
  | none => .refused .notEnabled
  | some s =>
    match step s with
    | .next t => .next (b.set k t)
    | .fault r => .fault r
    | .refused r => .refused r

end Sys2Proof.Machine
end

