-- ==== Sys2Proof/Machine/Interface.lean ====
section
/-! DEFINITION. The block's output signals (R225), functions of the state and of the word on the port. -/

namespace Sys2Proof.Machine

/-- `cmd_ready`: "1 when the host's current command is performed this step, 0 while it holds", for the word on `cmd` (R225, R216).
R225 names neither a step that another agent takes while that command is not held, nor a word that faults, nor a stopped block:
here it is 1 whoever's turn it is, 1 for an illegal or foreign word, which is performed and faults (R211), and 0 once the block has
stopped (R42). DESIGN CHOICE, log 21. -/
def State.cmdReady (s : State) (w : Word) : Bool :=
  s.stop == .running &&
    match legalOn .host w with
    | some i => !s.holds i
    | none => true

/-- `irq_rxc`, `irq_dre`, `irq_txc`: the three pending-and-enabled conditions (R225, R43). -/
def State.irq (s : State) (v : IrqVector) : Bool := s.pending v

/-- `udr_wr` and `udr_data`: the data-empty handler's write of `S.UDR`, for the word on `isr` (R225, R132). -/
def State.udrWrite (s : State) (w : Word) : Option Byte :=
  match legalOn .interrupt w with
  | some .isrDre => if s.enabled .isrDre then s.tx.peek else none
  | _ => none

/-- The frame configuration the UART is given (R225, R34). -/
structure CfgSignals where
  baud : BitVec 22
  parity : BitVec 2
  stop : BitVec 1
  dbits : BitVec 3
  deriving DecidableEq, Repr

/-- The code of the data bits: `dbits = 5 + d` (R82). -/
def FrameBits.code : FrameBits → BitVec 3
  | .five => 0b000#3
  | .six => 0b001#3
  | .seven => 0b010#3
  | .eight => 0b011#3

/-- `cfg_baud`, `cfg_parity`, `cfg_stop`, `cfg_dbits` (R225), in the codes of an OPEN word (R81, R82). DEDUCED, log 16. -/
def State.cfgSignals (s : State) : CfgSignals where
  baud := s.cfg.baud
  parity := s.cfg.parity.code
  stop := s.cfg.stop.code
  dbits := s.cfg.dbits.code

end Sys2Proof.Machine
end

