-- ==== Sys2Proof/Machine/Script.lean ====
section
/-! DEFINITION. Schedule scripts (R230) and the pseudo-operations of the host (R88 to R90). -/

namespace Sys2Proof.Machine

/-- One word of a schedule script, performed in its turn by the agent its opcode names (R84): `none` when it is not an enabled
step, since such a script "is not a run and produces no state" (R230). -/
def State.performWord (s : State) (w : Word) : Option State :=
  if s.stop = .running then
    match legalOn (portOfWord w) w with
    | none => some (s.raiseIllegal w)
    | some i =>
      if s.enabled i then
        match exec i s with
        | .next t => some t
        | .fault _ => none
        | .refused _ => none
      else none
  else none

/-- The run of a schedule script, if it is one (R230). -/
def State.runScript (s : State) : List Word → Option State
  | [] => some s
  | w :: ws =>
    match s.performWord w with
    | none => none
    | some t => t.runScript ws

/-- The pseudo-operations that stand for one host command, or for a fixed sequence of them (R88, R89). -/
inductive PseudoOp where
  | beginOp (baud : BitVec 22) (parity : Parity) (stop : StopBits) (dbits : DataBits)
  | endOp
  | openOp (baud : BitVec 22) (parity : Parity) (stop : StopBits) (dbits : DataBits)
  | closeOp
  | flushOp
  | readOp
  | peekOp
  | availableOp
  | writeOp (bytes : List Byte)
  deriving DecidableEq, Repr

/-- The expansion of a pseudo-operation (R88, R89). -/
def PseudoOp.expand : PseudoOp → List Instr
  | .beginOp baud p st d => [.openUart baud p st d]
  | .endOp => [.close]
  | .openOp baud p st d => [.openUart baud p st d]
  | .closeOp => [.close]
  | .flushOp => [.flush]
  | .readOp => [.read]
  | .peekOp => [.peek]
  | .availableOp => [.available]
  | .writeOp bytes => bytes.map .write

/-- A call of the host that performs one command `mk b` for each byte `b` of a list, in order, while other agents step between the
commands as they may (R17, R138). The script holds every word performed from the call's first step to its return: the call's own
commands are its only host words. The result is the sum of the `S.RES` values the commands leave; `stopAtZero` ends the call after the
first command that leaves 0. `none` when the script is not a run (R230) or not one whole call. -/
def State.listCall (mk : Byte → Instr) (stopAtZero : Bool) : State → List Byte → List Word → Option (Nat × State)
  | s, [], [] => some (0, s)
  | _, [], _ :: _ => none
  | _, _ :: _, [] => none
  | s, b :: bs, w :: ws =>
    match s.performWord w with
    | none => none
    | some t =>
      if portOfWord w = .host then
        if w = encode (mk b) then
          if stopAtZero && t.res == 0 then
            if ws = [] then some (0, t) else none
          else
            match State.listCall mk stopAtZero t bs ws with
            | none => none
            | some (k, u) => some (t.res.toNat + k, u)
        else none
      else State.listCall mk stopAtZero t (b :: bs) ws

/-- `write(bytes) -> written_count` over any run of the agents: "the sum of the `S.RES` values the WRITEs leave" (R89). A WRITE on a full
ring waits in the script for the step that lifts its hold, which is how the call "may block the caller". -/
def State.writeRun (s : State) (bytes : List Byte) (ws : List Word) : Option (Nat × State) :=
  State.listCall .write false s bytes ws

/-- `try_write(bytes) -> count` over any run of the agents: TRYWRITEs in order, "stopping after the first TRYWRITE that leaves
`S.RES == 0`"; the result is how many left 1 (R90). -/
def State.tryWriteRun (s : State) (bytes : List Byte) (ws : List Word) : Option (Nat × State) :=
  State.listCall .tryWrite true s bytes ws

/-- `writeRun` in the one schedule in which no other agent steps between the WRITEs (DESIGN CHOICE, log 23). `none` when one of them
holds, since it then waits for another agent (R216), or when the machine has stopped. -/
def State.writeList (s : State) : List Byte → Option (Nat × State)
  | [] => some (0, s)
  | b :: bs =>
    if s.enabled (.write b) then
      match exec (.write b) s with
      | .next t =>
        match t.writeList bs with
        | some (k, u) => some (t.res.toNat + k, u)
        | none => none
      | .fault _ => none
      | .refused _ => none
    else none

/-- `tryWriteRun` in the one schedule in which no other agent steps between the TRYWRITEs (DESIGN CHOICE, log 23): the schedule is free,
and a handler between two of them can raise the count. A stopped machine accepts none. -/
def State.tryWriteList (s : State) : List Byte → Nat × State
  | [] => (0, s)
  | b :: bs =>
    match exec (.tryWrite b) s with
    | .next t =>
      if t.res = 0 then (0, t)
      else
        let r := t.tryWriteList bs
        (r.1 + 1, r.2)
    | .fault _ => (0, s)
    | .refused _ => (0, s)

end Sys2Proof.Machine
end

