-- ==== Sys2Proof/Safety.lean ====
section
/-! DEFINITION. The terms claims use: runs of the four agents under any schedule (R17, R61), the invariants of the state (R22, R44 to
R47, R124), what the block has accepted and sent (R62), and fairness (R139, R195). -/

namespace Sys2Proof.Machine

/-! ## Invariants -/

/-- The ranges R10 gives. -/
def Params.wf (p : Params) : Bool :=
  decide (2 ≤ p.rxCap) && decide (p.rxCap ≤ 65536) && decide (2 ≤ p.txCap) && decide (p.txCap ≤ 65536)

/-- Idle (R44). -/
def State.idleInv (s : State) : Bool :=
  s.txs != .idle ||
    (s.tx.isEmpty && s.udr.isNone && s.tsr.isNone && !s.txcf && !s.ie.dreie && !s.ie.txcie && s.dir == .receive)

/-- Sending (R45): a byte of the burst is in the ring, in a register, or the last one has just left the line. -/
def State.sendingInv (s : State) : Bool :=
  s.txs != .sending ||
    (s.dir == .transmit && s.ie.dreie && !s.ie.txcie && (!s.tx.isEmpty || s.udr.isSome || s.tsr.isSome || s.txcf))

/-- Draining (R46): and the last byte is mid-shift, or the transmit-complete condition is set. -/
def State.drainingInv (s : State) : Bool :=
  s.txs != .draining ||
    (s.dir == .transmit && !s.ie.dreie && s.ie.txcie && s.tx.isEmpty && s.udr.isNone && (s.tsr.isSome || s.txcf))

/-- Closed (R47); the empty rings stand at index 0, where reset and CLOSE leave them (R48, R104, R155). -/
def State.closedInv (s : State) : Bool :=
  s.isOpen ||
    (s.txs == .idle && !s.ie.rxcie && !s.ie.dreie && !s.ie.txcie && s.dir == .receive && s.rx.head == 0 && s.rx.tail == 0 &&
      s.tx.head == 0 && s.tx.tail == 0 && s.rdr.isNone)

/-- Open: RXCIE is set (R150, R29) and the baud rate is not the reserved 0 (R34, R81). -/
def State.openInv (s : State) : Bool := !s.isOpen || (s.ie.rxcie && s.cfg.baud != 0)

/-- The transmit-complete condition stands only on empty registers (R39, R192). -/
def State.txcfInv (s : State) : Bool := !s.txcf || (s.udr.isNone && s.tsr.isNone)

/-- The bus contract on the wire: every frame has left in Transmit, and the one mid-shift started in it (R124). -/
def State.wireInv (s : State) : Bool :=
  s.wire.all (fun r => r.deStart == .transmit && r.deEnd == .transmit) &&
    (match s.tsr with | some e => e.deStart == .transmit | none => true)

/-- The frame in RDR is masked, and has a parity error only with parity (R190, R193). -/
def State.rdrInv (s : State) : Bool :=
  match s.rdr with
  | none => true
  | some f => (onWire s.cfg f.b == f.b) && (!f.pe || s.cfg.parity != .none)

/-- The invariant every step keeps. -/
def State.inv (s : State) : Bool :=
  s.params.wf && s.rx.wf s.params.rxCap && s.tx.wf s.params.txCap && s.idleInv && s.sendingInv && s.drainingInv && s.closedInv &&
    s.openInv && s.txcfInv && s.wireInv && s.rdrInv

/-! ## Runs -/

/-- `i` is performed in `s` and leaves `t`: an enabled step of the agent it belongs to (R17, R230). -/
def AgentStep (i : Instr) (s t : State) : Prop :=
  i.wellFormed = true ∧ s.enabled i = true ∧ exec i s = .next t

/-- The states a run reaches under any schedule, any host program and any frames, from reset with any parameters in range (R48,
R61, R138). No run here spans a second reset (R242). -/
inductive Reachable : State → Prop where
  | reset (p : Params) (h : p.wf = true) : Reachable (State.resetWith p)
  | step (i : Instr) (s t : State) (hs : Reachable s) (h : AgentStep i s t) : Reachable t

/-- The byte operation `i` queues for transmission when it is performed in `s`, as the wire will carry it (R158, R160, R193). -/
def State.accepted (s : State) : Instr → List Byte
  | .openUart _ _ _ _ => []
  | .close => []
  | .write v => if s.isOpen && !s.txFull then [onWire s.cfg v] else []
  | .tryWrite v => if s.isOpen && !s.txFull then [onWire s.cfg v] else []
  | .read => []
  | .peek => []
  | .available => []
  | .flush => []
  | .status => []
  | .csEnter => []
  | .csExit => []
  | .isrRxc => []
  | .isrDre => []
  | .isrTxc => []
  | .uartRx _ _ _ => []
  | .uartTxLoad => []
  | .uartTxDone => []

/-- A run from reset, with the bytes the host's successful writes have pushed so far, masked as the wire carries them (R62). -/
inductive SentRun : List Byte → State → Prop where
  | reset (p : Params) (h : p.wf = true) : SentRun [] (State.resetWith p)
  | step (i : Instr) (sent : List Byte) (s t : State) (hs : SentRun sent s) (h : AgentStep i s t) :
      SentRun (sent ++ s.accepted i) t

/-- The bytes on their way out, oldest first: shift register, data register, ring. -/
def State.inFlight (s : State) : List Byte :=
  (s.tsr.toList.map fun e => e.b) ++ s.udr.toList ++ s.tx.contents s.params.txCap

/-- What has left the line, and then what is on its way, as the wire carries it. -/
def State.outgoing (s : State) : List Byte :=
  (s.wire.map fun r => r.b) ++ s.inFlight.map (onWire s.cfg)

/-- The bytes received and not yet read, oldest first: ring, then receive data register. -/
def State.incoming (s : State) : List Byte :=
  s.rx.contents s.params.rxCap ++ s.rdr.toList.map fun f => f.b

/-- Two states that differ at most in the storage outside the slots `head .. tail-1` of each ring (R53). -/
def SameView (s t : State) : Prop :=
  { s with rx := { s.rx with store := [] }, tx := { s.tx with store := [] } } =
      { t with rx := { t.rx with store := [] }, tx := { t.tx with store := [] } } ∧
    s.rx.contents s.params.rxCap = t.rx.contents t.params.rxCap ∧
    s.tx.contents s.params.txCap = t.tx.contents t.params.txCap

/-- Two outcomes that agree up to `SameView`. -/
def SameOutcome : Host.Outcome State Fault Refusal → Host.Outcome State Fault Refusal → Prop
  | .next s, .next t => SameView s t
  | .fault a, .fault b => a = b
  | .refused a, .refused b => a = b
  | .next _, .fault _ => False
  | .next _, .refused _ => False
  | .fault _, .next _ => False
  | .fault _, .refused _ => False
  | .refused _, .next _ => False
  | .refused _, .fault _ => False

/-! ## Fairness -/

/-- An infinite run: at each point one agent's enabled step, or none is taken. -/
def IsRun (act : Nat → Option Instr) (st : Nat → State) : Prop :=
  ∀ n, match act n with
    | some i => AgentStep i (st n) (st (n + 1))
    | none => st (n + 1) = st n

/-- "A handler step that is enabled at every step from some point on is taken at some later step" (R139), for operation `i`. -/
def WeaklyFair (i : Instr) (act : Nat → Option Instr) (st : Nat → State) : Prop :=
  ∀ n, (∀ m, n ≤ m → (st m).enabled i = true) → ∃ m, n ≤ m ∧ act m = some i

/-- The fairness the spec assumes of the handlers (R139) and of the transmitter (R195); UART_RX has none. Log 13. -/
def FairRun (act : Nat → Option Instr) (st : Nat → State) : Prop :=
  IsRun act st ∧ WeaklyFair .isrRxc act st ∧ WeaklyFair .isrDre act st ∧ WeaklyFair .isrTxc act st ∧
    WeaklyFair .uartTxLoad act st ∧ WeaklyFair .uartTxDone act st

end Sys2Proof.Machine
end

