-- ==== Sys2Proof/Certificates/Slice0/Obligations.lean ====
section
/-! DEFINITION. The statements about the model, each from the numbered rules its docstring names. Many of these rules are marked by the
spec as its own decisions: they are the spec's, and the model chooses nothing there (log 14). -/

open Sys2Proof Sys2Proof.Machine

/-! ## Port words (30_encoding.md) -/

/-- R72 to R82, R85: no bit of an encoding is dropped, for every operation and every operand value an encoding admits. -/
def Obligations.EncodeThenDecodeGivesTheOperation : Prop :=
  ∀ i : Instr, i.wellFormed = true → decode (encode i) = .op i

/-- R77, R85: a word that decodes is the word of a well-formed operation, so each legal word has one spelling. -/
def Obligations.DecodeThenEncodeGivesTheWord : Prop :=
  ∀ (w : Word) (i : Instr), decode w = .op i → i.wellFormed = true ∧ encode i = w

/-- R83: the illegal words are exactly the listed ones, and performing one on any port raises the fault
and changes nothing else of the block (that the word and the turn are used up is the model's, log 6). -/
def Obligations.IllegalWordsAreExactlyTheListedOnes : Prop :=
  ∀ w : Word,
    ((∃ r, decode w = .illegal r) ↔
      (w.extractLsb' 28 4 = 0x0 ∨
        (w.extractLsb' 28 4 ∈ [0x2#4, 0x5#4, 0x6#4, 0x7#4, 0x8#4, 0x9#4, 0xA#4, 0xB#4, 0xE#4, 0xF#4] ∧ w.extractLsb' 0 28 ≠ 0) ∨
        (w.extractLsb' 28 4 ∈ [0x3#4, 0x4#4] ∧ w.extractLsb' 8 20 ≠ 0) ∨
        (w.extractLsb' 28 4 = 0xC ∧ (w.extractLsb' 2 26 ≠ 0 ∨ w.extractLsb' 0 2 = 0b00)) ∨
        (w.extractLsb' 28 4 = 0xD ∧ w.extractLsb' 10 18 ≠ 0) ∨
        (w.extractLsb' 28 4 = 0x1 ∧
          (w.extractLsb' 26 2 = 0b11 ∨ 5 ≤ (w.extractLsb' 22 3).toNat ∨ w.extractLsb' 0 22 = 0)))) ∧
    ((∃ r, decode w = .illegal r) → ∀ (s : State) (p : Port), s.stop = .running → s.request = .word p w →
      ∃ t, step s = .next t ∧ t = { s with stop := .faulted .illegalCommand w, prog := t.prog, sched := t.sched })

/-- R77: a word decodes to an operation only if it has that row's match bits under its mask; no word fits two rows; and a word that
fits no row is illegal. -/
def Obligations.MatchAndMaskSelectOneRow : Prop :=
  ∀ w : Word,
    (∀ i, decode w = .op i → w &&& i.maskBits = i.matchBits) ∧
    (∀ i j : Instr, w &&& i.maskBits = i.matchBits → w &&& j.maskBits = j.matchBits → i.matchBits = j.matchBits) ∧
    ((∀ i : Instr, w &&& i.maskBits ≠ i.matchBits) → ∃ r, decode w = .illegal r)

/-- R91: the encoding examples of the spec, both ways. -/
def Obligations.SpecExampleWordsDecode : Prop :=
  (decode 0x10C02580#32 = .op (.openUart 9600 .none .one .eight) ∧ encode (.openUart 9600 .none .one .eight) = 0x10C02580#32) ∧
  (decode 0x16C1C200#32 = .op (.openUart 115200 .even .two .eight) ∧ encode (.openUart 115200 .even .two .eight) = 0x16C1C200#32) ∧
  (decode 0x30000041#32 = .op (.write 0x41) ∧ encode (.write 0x41) = 0x30000041#32) ∧
  (decode 0x400000FF#32 = .op (.tryWrite 0xFF) ∧ encode (.tryWrite 0xFF) = 0x400000FF#32) ∧
  (decode 0xC0000002#32 = .op .isrDre ∧ encode .isrDre = 0xC0000002#32) ∧
  (decode 0xD0000155#32 = .op (.uartRx 0x55 true false) ∧ encode (.uartRx 0x55 true false) = 0xD0000155#32) ∧
  (decode 0x20000000#32 = .op .close ∧ encode .close = 0x20000000#32)

/-! ## The rings (40_ring_buffer.md) -/

/-- R106: from an empty ring, `k < N` pushes all succeed, and `m ≤ k` pops then answer the first `m` pushed, in order, and leave
`len = k - m`. -/
def Obligations.PushesThenPopsObeyTheLengthLaw : Prop :=
  ∀ (n : Nat) (r : Ring) (bs : List Byte) (m : Nat), r.wf n = true → r.isEmpty = true → bs.length < n → m ≤ bs.length →
    (r.pushAll n bs).1 = bs.length ∧
    (((r.pushAll n bs).2.popAll n m).1 = bs.take m) ∧
    ((r.pushAll n bs).2.popAll n m).2.len n = bs.length - m

/-- R107, R11: from an empty ring of N slots exactly N - 1 consecutive pushes succeed and the N-th answers false and changes nothing;
no ring ever holds more than N - 1 bytes. -/
def Obligations.ARingHoldsOneByteLessThanItsSlots : Prop :=
  ∀ (n : Nat) (r : Ring), r.wf n = true →
    r.len n ≤ n - 1 ∧
    (r.isEmpty = true → ∀ (bs : List Byte) (b : Byte), bs.length = n - 1 →
      (r.pushAll n bs).1 = n - 1 ∧ (r.pushAll n bs).2.isFull n = true ∧
        (r.pushAll n bs).2.push n b = (false, (r.pushAll n bs).2))

/-- R105: what push_rx does with room, and when the RX ring is full under each policy; nothing but `S.RX` and `S.OVR` changes. -/
def Obligations.PushRxFollowsTheOverrunPolicy : Prop :=
  ∀ (s : State) (b : Byte), s.rx.wf s.params.rxCap = true → 2 ≤ s.params.rxCap →
    (s.pushRx b = { s with rx := (s.pushRx b).rx, ovr := (s.pushRx b).ovr }) ∧
    (s.rx.isFull s.params.rxCap = false →
      (s.pushRx b).rx.contents s.params.rxCap = s.rx.contents s.params.rxCap ++ [b] ∧ (s.pushRx b).rx.head = s.rx.head ∧
        (s.pushRx b).ovr = s.ovr) ∧
    (s.rx.isFull s.params.rxCap = true → s.params.rxOverrunPolicy = .dropNewest →
      (s.pushRx b).rx = s.rx ∧ (s.pushRx b).ovr = true) ∧
    (s.rx.isFull s.params.rxCap = true → s.params.rxOverrunPolicy = .overwriteOldest →
      (s.pushRx b).rx.contents s.params.rxCap = (s.rx.contents s.params.rxCap).tail ++ [b] ∧
        (s.pushRx b).rx.head = (s.rx.head + 1) % s.params.rxCap ∧ (s.pushRx b).ovr = true)

/-! ## Reset and the invariants (10_state.md, 70_reset_and_hazards.md) -/

/-- R48: the state after reset, of the machine and after a reset event from any state (R240), has every element the rule gives a
value at that value. The contents of the storage and CFG, which the rule leaves unspecified, are not named here. -/
def Obligations.ResetGivesTheSpecifiedValues : Prop :=
  (∀ (s : State) (program : List Word), s.stop = .running → s.request = .reset program → ∃ t, step s = .next t) ∧
  (∀ t : State, (t = State.reset ∨ ∃ s program, s.request = .reset program ∧ step s = .next t) →
    t.rx.head = 0 ∧ t.rx.tail = 0 ∧ t.tx.head = 0 ∧ t.tx.tail = 0 ∧ t.isOpen = false ∧ t.txs = .idle ∧ t.dir = .receive ∧
    t.ie.bits = 0b000#3 ∧ t.ovr = false ∧ t.fe = false ∧ t.pe = false ∧ t.dor = false ∧ t.gie = true ∧ t.res = 0 ∧
    t.udr = none ∧ t.tsr = none ∧ t.txcf = false ∧ t.rdr = none ∧ t.wire = [] ∧ t.stop = .running ∧
    t.dePin = !t.params.deActiveHigh)

/-- R44 to R47, R124: the invariant holds right after reset, for the modelled parameters and for any in range. -/
def Obligations.InvariantHoldsAtReset : Prop :=
  State.reset.inv = true ∧ ∀ p : Params, p.wf = true → (State.resetWith p).inv = true

/-- R22, R44 to R47, R124: every step, of any agent and any schedule, keeps the invariant, from every state that has it. -/
def Obligations.EveryStepKeepsTheInvariant : Prop :=
  ∀ s t : State, s.inv = true → step s = .next t → t.inv = true

/-- R12, R10: no step, reset included, changes a capacity or any other parameter. -/
def Obligations.EveryStepKeepsTheParameters : Prop :=
  ∀ s t : State, step s = .next t → t.params = s.params

/-- R44: the invariant of Idle. -/
def Obligations.IdleStatesAreAtRest : Prop :=
  ∀ s : State, Reachable s → s.txs = .idle →
    s.tx.isEmpty = true ∧ s.udr = none ∧ s.tsr = none ∧ s.txcf = false ∧ s.ie.dreie = false ∧ s.ie.txcie = false ∧
      s.dir = .receive

/-- R45: the invariant of Sending. The rule's last clause is about the history; what it leaves in the state is stated here: a byte of
the burst is in the ring or a register, or the last one has just left the line. -/
def Obligations.SendingStatesDriveTheBus : Prop :=
  ∀ s : State, Reachable s → s.txs = .sending →
    s.dir = .transmit ∧ s.ie.dreie = true ∧ s.ie.txcie = false ∧
      (s.tx.isEmpty = false ∨ s.udr ≠ none ∨ s.tsr ≠ none ∨ s.txcf = true)

/-- R46: the invariant of Draining. -/
def Obligations.DrainingStatesWaitForTheLastBit : Prop :=
  ∀ s : State, Reachable s → s.txs = .draining →
    s.dir = .transmit ∧ s.ie.dreie = false ∧ s.ie.txcie = true ∧ s.tx.isEmpty = true ∧ s.udr = none ∧
      (s.tsr ≠ none ∨ s.txcf = true)

/-- R47: the invariant of Closed. -/
def Obligations.ClosedStatesAreAtRest : Prop :=
  ∀ s : State, Reachable s → s.isOpen = false →
    s.txs = .idle ∧ s.ie.bits = 0b000#3 ∧ s.dir = .receive ∧ s.rx.isEmpty = true ∧ s.tx.isEmpty = true ∧ s.rdr = none

/-- R124: the bus contract. Every frame has left in Transmit from start to end, Receive means nothing is left to send, and Transmit
ends only in ISR_TXC. -/
def Obligations.TheBusContractHoldsOnEveryRun : Prop :=
  ∀ s : State, Reachable s →
    (∀ r ∈ s.wire, r.deStart = .transmit ∧ r.deEnd = .transmit) ∧
    (s.dir = .receive → s.tx.isEmpty = true ∧ s.udr = none ∧ s.tsr = none) ∧
    (∀ (i : Instr) (t : State), AgentStep i s t → s.dir = .transmit → t.dir = .receive → i = .isrTxc)

/-- R62: the bytes of `S.WIRE` are, in order, the bytes the successful writes pushed, masked; all of them once the block is Idle. -/
def Obligations.TheWireCarriesTheAcceptedBytesInOrder : Prop :=
  ∀ (sent : List Byte) (s : State), SentRun sent s →
    (s.wire.map fun r => r.b) <+: sent ∧ (s.txs = .idle → (s.wire.map fun r => r.b) = sent)

/-- From R62: an operation adds to the outgoing bytes exactly the byte it accepts, at the end; nothing is lost, repeated or
reordered on the way from the ring to the wire. -/
def Obligations.TheTransmitPathLosesNothing : Prop :=
  ∀ (i : Instr) (s t : State), s.inv = true → exec i s = .next t → t.outgoing = s.outgoing ++ s.accepted i

/-- From R63: what each operation does to the received bytes not yet read. They leave in order by READ, and are lost only on overrun,
or with the buffers by OPEN and CLOSE; a frame joins at the end, unless the UART loses it. -/
def Obligations.TheReceivePathKeepsOrder : Prop :=
  ∀ (i : Instr) (s t : State), s.inv = true → exec i s = .next t →
    match i with
    | .read => t.incoming = (s.rx.contents s.params.rxCap).tail ++ s.rdr.toList.map (fun f => f.b)
    | .openUart _ _ _ _ => t.incoming = [] ∨ t.incoming = s.incoming ∧ (t = s ∨ t.stop ≠ .running)
    | .close => t.incoming = [] ∨ t = s
    | .uartRx b _ _ =>
      if s.isOpen = true ∧ s.rdr = none then t.incoming = s.incoming ++ [onWire s.cfg b] ∧ t.dor = s.dor
      else t.incoming = s.incoming ∧ (s.isOpen = true → t.dor = true)
    | .isrRxc =>
      if s.rx.isFull s.params.rxCap = true then
        t.ovr = true ∧
          (match s.params.rxOverrunPolicy with
            | .dropNewest => t.incoming = s.rx.contents s.params.rxCap
            | .overwriteOldest => t.incoming = s.incoming.tail)
      else t.incoming = s.incoming ∧ t.ovr = s.ovr
    | .write _ => t.incoming = s.incoming
    | .tryWrite _ => t.incoming = s.incoming
    | .peek => t.incoming = s.incoming
    | .available => t.incoming = s.incoming
    | .flush => t.incoming = s.incoming
    | .status => t.incoming = s.incoming
    | .csEnter => t.incoming = s.incoming
    | .csExit => t.incoming = s.incoming
    | .isrDre => t.incoming = s.incoming
    | .isrTxc => t.incoming = s.incoming
    | .uartTxLoad => t.incoming = s.incoming
    | .uartTxDone => t.incoming = s.incoming

/-- R53: no observation depends on a slot outside `head .. tail-1`. Two states that differ only there answer a step alike, and their
next states again differ only there. With it, nothing rests on the storage value the model chooses for reset (log 7). -/
def Obligations.UnoccupiedStorageIsNeverObserved : Prop :=
  ∀ s t : State, s.inv = true → t.inv = true → SameView s t → SameOutcome (step s) (step t)

/-! ## The host commands (43_public_api.md) -/

/-- From R150, R213: OPEN. Nine data bits are refused, whatever the transmit state; otherwise it holds while not Idle, and else
configures, empties both rings and the receive register, clears the flags and sets IE to 0b001. The refusal records the operation's own
word (log 15) as a next state (log 6); baud 0, which no word decodes to, is covered too (log 20). -/
def Obligations.OpenFollowsItsRule : Prop :=
  (∀ (baud : BitVec 22) (p : Parity) (st : StopBits) (d : DataBits), opcode (encode (.openUart baud p st d)) = 0x1#4) ∧
  (∀ (s : State) (baud : BitVec 22) (p : Parity) (st : StopBits) (d : DataBits), s.stop = .running →
     (d = .nine → exec (.openUart baud p st d) s =
       .next { s with stop := .refused .nineBitData (encode (.openUart baud p st .nine)) }) ∧
     (d ≠ .nine → s.txs ≠ .idle → s.holds (.openUart baud p st d) = true) ∧
     (∀ f, dataBitsToFrame d = some f → s.txs = .idle →
       exec (.openUart baud p st d) s =
         .next { s with
           cfg := { baud := baud, parity := p, stop := st, dbits := f }
           rx := { s.rx with head := 0, tail := 0 }
           tx := { s.tx with head := 0, tail := 0 }
           ovr := false, fe := false, pe := false, dor := false
           rdr := none
           ie := { rxcie := true, dreie := false, txcie := false }
           txs := .idle
           isOpen := true }))

/-- R155: CLOSE. It holds while not Idle; else it disables the three interrupts, empties the rings and the receive register and keeps
the sticky flags; on a closed instance it changes nothing, and it leaves the bus in Receive. -/
def Obligations.CloseFollowsItsRule : Prop :=
  encode .close = 0x20000000#32 ∧
  (∀ s : State, s.stop = .running → s.inv = true →
     (s.txs ≠ .idle → s.holds .close = true) ∧
     (s.txs = .idle →
       exec .close s =
           .next { s with
             ie := { rxcie := false, dreie := false, txcie := false }
             rx := { s.rx with head := 0, tail := 0 }
             tx := { s.tx with head := 0, tail := 0 }
             rdr := none
             isOpen := false } ∧
         s.dir = .receive) ∧
     (s.isOpen = false → exec .close s = .next s ∧ s.holds .close = false))

/-- R158: WRITE. Closed: only RES, to 0. Full: it holds. Else the byte joins the ring's end, Idle asserts the direction, Idle and
Draining enter Sending with DREIE set and TXCIE clear, and RES is 1. It never holds in Draining. -/
def Obligations.WriteFollowsItsRule : Prop :=
  (∀ v : Byte, encode (.write v) = 0x30000000#32 ||| v.zeroExtend 32) ∧
  (∀ (s : State) (v : Byte), s.stop = .running → s.inv = true →
     (s.isOpen = false → exec (.write v) s = .next { s with res := 0 }) ∧
     (s.isOpen = true → s.tx.isFull s.params.txCap = true → s.holds (.write v) = true) ∧
     (s.isOpen = true → s.tx.isFull s.params.txCap = false → s.holds (.write v) = false ∧
       ∃ t, exec (.write v) s = .next t ∧ t = { s with tx := t.tx, dir := t.dir, ie := t.ie, txs := t.txs, res := t.res } ∧
         t.tx.head = s.tx.head ∧ t.tx.contents s.params.txCap = s.tx.contents s.params.txCap ++ [v] ∧
         t.dir = (if s.txs = .idle then .transmit else s.dir) ∧
         t.ie = (if s.txs = .sending then s.ie else { rxcie := s.ie.rxcie, dreie := true, txcie := false }) ∧
         t.txs = .sending ∧ t.res = 1) ∧
     (s.txs = .draining → s.holds (.write v) = false))

/-- R160: TRYWRITE. It never holds; closed or full it changes only RES, to 0 (the overrun flag is not set); else as WRITE. -/
def Obligations.TryWriteFollowsItsRule : Prop :=
  (∀ v : Byte, encode (.tryWrite v) = 0x40000000#32 ||| v.zeroExtend 32) ∧
  (∀ (s : State) (v : Byte), s.stop = .running → s.inv = true →
     s.holds (.tryWrite v) = false ∧
     (s.isOpen = false ∨ s.tx.isFull s.params.txCap = true → exec (.tryWrite v) s = .next { s with res := 0 }) ∧
     (s.isOpen = true → s.tx.isFull s.params.txCap = false →
       ∃ t, exec (.tryWrite v) s = .next t ∧ t = { s with tx := t.tx, dir := t.dir, ie := t.ie, txs := t.txs, res := t.res } ∧
         t.tx.head = s.tx.head ∧ t.tx.contents s.params.txCap = s.tx.contents s.params.txCap ++ [v] ∧
         t.dir = (if s.txs = .idle then .transmit else s.dir) ∧
         t.ie = (if s.txs = .sending then s.ie else { rxcie := s.ie.rxcie, dreie := true, txcie := false }) ∧
         t.txs = .sending ∧ t.res = 1))

/-- R162, R164: READ takes the oldest received byte and answers `{1, b}`, PEEK answers the same and takes nothing; on an empty ring
both answer 0. They never hold. -/
def Obligations.ReadAndPeekAnswerTheOldestByte : Prop :=
  encode .read = 0x50000000#32 ∧ encode .peek = 0x60000000#32 ∧
  (∀ s : State, s.stop = .running → s.inv = true →
     s.holds .read = false ∧ s.holds .peek = false ∧
     ∃ t u, exec .read s = .next t ∧ exec .peek s = .next u ∧
       t = { s with rx := t.rx, res := t.res } ∧ u = { s with res := t.res } ∧ (s.isOpen = false → t.res = 0) ∧
       (match s.rx.contents s.params.rxCap with
         | [] => t.rx = s.rx ∧ t.res = 0
         | b :: rest =>
           t.rx.contents s.params.rxCap = rest ∧ t.rx.tail = s.rx.tail ∧ t.rx.store = s.rx.store ∧
             t.res = 0x100#32 ||| b.zeroExtend 32))

/-- R165: AVAILABLE answers how many bytes READ would find, at most RX_CAP - 1, and changes nothing else. It never holds. -/
def Obligations.AvailableCountsTheReceivedBytes : Prop :=
  encode .available = 0x70000000#32 ∧
  (∀ s : State, s.stop = .running → s.inv = true →
     s.holds .available = false ∧
     ∃ t, exec .available s = .next t ∧ t = { s with res := t.res } ∧
       t.res.toNat = (s.rx.contents s.params.rxCap).length ∧ t.res.toNat ≤ s.params.rxCap - 1)

/-- R33, R166: STATUS answers the status byte, bit by bit, as it was before it clears the four sticky flags. It never holds. -/
def Obligations.StatusReportsAndClearsTheFlags : Prop :=
  encode .status = 0x90000000#32 ∧
  (∀ s : State, s.stop = .running →
     s.holds .status = false ∧
     ∃ t, exec .status s = .next t ∧ t = { s with ovr := false, fe := false, pe := false, dor := false, res := t.res } ∧
       t.res.toNat < 256 ∧
       t.res.getLsbD 0 = s.ovr ∧ t.res.getLsbD 1 = s.fe ∧ t.res.getLsbD 2 = s.pe ∧ t.res.getLsbD 3 = s.dor ∧
       t.res.extractLsb' 4 2 = (match s.txs with | .idle => 0b00#2 | .sending => 0b01#2 | .draining => 0b10#2) ∧
       t.res.getLsbD 6 = decide (s.dir = .transmit) ∧ t.res.getLsbD 7 = s.isOpen)

/-- R168: FLUSH holds while a burst is in flight, and completes in Idle, so always on a closed instance, with no state change. -/
def Obligations.FlushFollowsItsRule : Prop :=
  encode .flush = 0x80000000#32 ∧
  (∀ s : State, s.stop = .running →
     (s.txs ≠ .idle → s.holds .flush = true) ∧
     (s.txs = .idle → s.holds .flush = false ∧ exec .flush s = .next s) ∧
     (s.inv = true → s.isOpen = false → s.txs = .idle))

/-- R172, R173, R35, R58: CS_ENTER and CS_EXIT write GIE and nothing else, whatever it held, and never hold; after CS_EXIT the
highest pending vector is enabled; no other operation writes GIE. -/
def Obligations.OnlyTheCriticalSectionCommandsWriteGie : Prop :=
  encode .csEnter = 0xA0000000#32 ∧ encode .csExit = 0xB0000000#32 ∧
  (∀ s : State, s.stop = .running →
    s.holds .csEnter = false ∧ exec .csEnter s = .next { s with gie := false } ∧
    s.holds .csExit = false ∧ exec .csExit s = .next { s with gie := true } ∧
    (∀ v, { s with gie := true }.vectorEnabled v = (s.pending v && s.highest v))) ∧
  (∀ (i : Instr) (s t : State), exec i s = .next t → i ≠ .csEnter → i ≠ .csExit → t.gie = s.gie)

/-! ## The handlers (42_interrupt_handlers.md) -/

/-- R134 (with R43 and R135): a handler is performed exactly when the block runs, GIE is 1, its condition is pending and none of higher
priority is. -/
def Obligations.AHandlerRunsExactlyWhenEnabled : Prop :=
  ∀ s : State,
    ((∃ t, exec .isrRxc s = .next t) ↔ s.stop = .running ∧ s.gie = true ∧ s.rdr ≠ none ∧ s.ie.rxcie = true) ∧
    ((∃ t, exec .isrDre s = .next t) ↔
      s.stop = .running ∧ s.gie = true ∧ s.udr = none ∧ s.ie.dreie = true ∧ ¬(s.rdr ≠ none ∧ s.ie.rxcie = true)) ∧
    ((∃ t, exec .isrTxc s = .next t) ↔
      s.stop = .running ∧ s.gie = true ∧ s.txcf = true ∧ s.ie.txcie = true ∧ ¬(s.rdr ≠ none ∧ s.ie.rxcie = true) ∧
        ¬(s.udr = none ∧ s.ie.dreie = true))

/-- R135, R136, R137: at most one vector is enabled in any state, RXC before DRE before TXC; when a condition is pending with GIE 1 the
highest one is, and with GIE 0 none. -/
def Obligations.OneVectorIsEnabledAtATime : Prop :=
  ∀ s : State,
    (∀ v w : IrqVector, s.vectorEnabled v = true → s.vectorEnabled w = true → v = w) ∧
    (s.vectorEnabled .dre = true → s.pending .rxc = false) ∧
    (s.vectorEnabled .txc = true → s.pending .rxc = false ∧ s.pending .dre = false) ∧
    (s.gie = true → (∃ v, s.pending v = true) → ∃ v, s.vectorEnabled v = true) ∧
    (s.gie = false → ∀ v, s.vectorEnabled v = false)

/-- R131, R105: ISR_RXC takes the frame, sets the error flags it carries and pushes its byte under the overrun policy. -/
def Obligations.IsrRxcFollowsItsRule : Prop :=
  encode .isrRxc = 0xC0000001#32 ∧
  (∀ (s : State) (f : RxFrame), s.stop = .running → s.inv = true → s.gie = true → s.rdr = some f → s.ie.rxcie = true →
     ∃ t, exec .isrRxc s = .next t ∧ onWire s.cfg f.b = f.b ∧
       t = { s with rdr := none, fe := s.fe || f.fe, pe := s.pe || f.pe, rx := t.rx, ovr := t.ovr } ∧
       (s.rx.isFull s.params.rxCap = false →
         t.rx.contents s.params.rxCap = s.rx.contents s.params.rxCap ++ [f.b] ∧ t.rx.head = s.rx.head ∧ t.ovr = s.ovr) ∧
       (s.rx.isFull s.params.rxCap = true → s.params.rxOverrunPolicy = .dropNewest → t.rx = s.rx ∧ t.ovr = true) ∧
       (s.rx.isFull s.params.rxCap = true → s.params.rxOverrunPolicy = .overwriteOldest →
         t.rx.contents s.params.rxCap = (s.rx.contents s.params.rxCap).tail ++ [f.b] ∧ t.ovr = true))

/-- R132: ISR_DRE moves the oldest byte to the data register and clears TXCF, staying in its transmit state; on an empty ring it swaps
the enables and enters Draining. -/
def Obligations.IsrDreFollowsItsRule : Prop :=
  encode .isrDre = 0xC0000002#32 ∧
  (∀ s : State, s.stop = .running → s.inv = true → s.gie = true → s.udr = none → s.ie.dreie = true →
     ¬(s.rdr ≠ none ∧ s.ie.rxcie = true) →
     s.txs = .sending ∧
     (∀ b rest, s.tx.contents s.params.txCap = b :: rest →
       ∃ t, exec .isrDre s = .next t ∧ t = { s with tx := t.tx, udr := some b, txcf := false } ∧
         t.tx.contents s.params.txCap = rest ∧ t.tx.tail = s.tx.tail ∧ t.tx.store = s.tx.store) ∧
     (s.tx.contents s.params.txCap = [] →
       exec .isrDre s =
         .next { s with ie := { rxcie := s.ie.rxcie, dreie := false, txcie := true }, txs := .draining }))

/-- R133, R121: ISR_TXC clears its condition and its enable, releases the bus and enters Idle. It runs only in Draining, with the ring
and both registers empty. -/
def Obligations.IsrTxcFollowsItsRule : Prop :=
  encode .isrTxc = 0xC0000003#32 ∧
  (∀ s : State, s.stop = .running → s.inv = true → s.gie = true → s.txcf = true → s.ie.txcie = true →
     ¬(s.rdr ≠ none ∧ s.ie.rxcie = true) →
     s.txs = .draining ∧ s.tx.isEmpty = true ∧ s.udr = none ∧ s.tsr = none ∧
     exec .isrTxc s =
       .next { s with
         txcf := false
         ie := { rxcie := s.ie.rxcie, dreie := s.ie.dreie, txcie := false }
         dir := .receive
         txs := .idle })

/-! ## The UART events (44_uart_events.md) -/

/-- R190, R193: UART_RX is performed in every running state. Closed: nothing changes. RDR full: the frame is lost, DOR is set. Else RDR
takes the byte masked to the data bits, and the parity error only if there is parity. -/
def Obligations.UartRxFollowsItsRule : Prop :=
  (∀ (b : Byte) (fe pe : Bool), encode (.uartRx b fe pe) =
    0xD0000000#32 ||| b.zeroExtend 32 ||| (BitVec.ofBool fe).zeroExtend 32 <<< 8 ||| (BitVec.ofBool pe).zeroExtend 32 <<< 9) ∧
  (∀ (s : State) (b : Byte) (fe pe : Bool), s.stop = .running →
     (s.isOpen = false → exec (.uartRx b fe pe) s = .next s) ∧
     (s.isOpen = true → s.rdr ≠ none → exec (.uartRx b fe pe) s = .next { s with dor := true }) ∧
     (s.isOpen = true → s.rdr = none →
       ∃ f, exec (.uartRx b fe pe) s = .next { s with rdr := some f } ∧
         f.b.toNat = b.toNat % 2 ^ s.cfg.dbits.toNat ∧ f.fe = fe ∧ (f.pe = true ↔ pe = true ∧ s.cfg.parity ≠ .none)))

/-- R191: UART_TX_LOAD is performed exactly when the data register is full and the shift register empty; it moves the byte and records
the direction. -/
def Obligations.UartTxLoadFollowsItsRule : Prop :=
  encode .uartTxLoad = 0xE0000000#32 ∧
  (∀ s : State, s.stop = .running →
     (∀ b, s.udr = some b → s.tsr = none →
       exec .uartTxLoad s = .next { s with tsr := some { b := b, deStart := s.dir }, udr := none }) ∧
     (s.udr = none ∨ s.tsr ≠ none → ¬∃ t, exec .uartTxLoad s = .next t))

/-- R192, R193: UART_TX_DONE is performed exactly when the shift register is full; it appends the frame, masked to the data bits, with
the direction at its start and end, and sets TXCF if no byte waits in the data register. -/
def Obligations.UartTxDoneFollowsItsRule : Prop :=
  encode .uartTxDone = 0xF0000000#32 ∧
  (∀ s : State, s.stop = .running →
     (∀ e, s.tsr = some e →
       ∃ r : WireRecord,
         exec .uartTxDone s =
           .next { s with wire := s.wire ++ [r], tsr := none, txcf := if s.udr = none then true else s.txcf } ∧
         r.b.toNat = e.b.toNat % 2 ^ s.cfg.dbits.toNat ∧ r.deStart = e.deStart ∧ r.deEnd = s.dir) ∧
     (s.tsr = none → ¬∃ t, exec .uartTxDone s = .next t))

/-! ## Frames -/

/-- The frame of PEEK, AVAILABLE, STATUS, FLUSH, CS_ENTER, CS_EXIT and READ: what they leave unchanged whenever they answer a next
state. They store nothing, so every slot of both spaces reads as before. -/
def Obligations.QueryCommandsFrame : Prop :=
  ∀ (i : Instr) (s t : State), i ∈ [Instr.peek, .available, .status, .flush, .csEnter, .csExit, .read] → exec i s = .next t →
    t = { s with rx := t.rx, ovr := t.ovr, fe := t.fe, pe := t.pe, dor := t.dor, gie := t.gie, res := t.res } ∧
    (∀ a, Memory.read t.rx.store a = Memory.read s.rx.store a ∧ Memory.read t.tx.store a = Memory.read s.tx.store a) ∧
    t.rx.tail = s.rx.tail ∧ (i ≠ .read → t.rx = s.rx) ∧
    (i ≠ .status → t.ovr = s.ovr ∧ t.fe = s.fe ∧ t.pe = s.pe ∧ t.dor = s.dor) ∧
    (i ≠ .csEnter → i ≠ .csExit → t.gie = s.gie) ∧
    (i ∈ [Instr.flush, .csEnter, .csExit] → t.res = s.res)

/-- The frame of WRITE and TRYWRITE whenever they answer a next state: they store at most the one byte at the TX ring's tail. -/
def Obligations.WriteCommandsFrame : Prop :=
  ∀ (i : Instr) (v : Byte) (s t : State), i = .write v ∨ i = .tryWrite v → s.inv = true → exec i s = .next t →
    t = { s with tx := t.tx, dir := t.dir, ie := t.ie, txs := t.txs, res := t.res } ∧
    t.tx.head = s.tx.head ∧ t.ie.rxcie = s.ie.rxcie ∧
    (∀ a, a ≠ s.tx.tail → Memory.read t.tx.store a = Memory.read s.tx.store a) ∧
    (∀ a, Memory.read t.rx.store a = Memory.read s.rx.store a)

/-- The frame of OPEN and CLOSE whenever they answer a next state: they store nothing, write no direction, no UART transmit register,
no GIE and no RES, and CLOSE keeps the sticky flags and CFG. -/
def Obligations.LifecycleCommandsFrame : Prop :=
  ∀ (i : Instr) (s t : State), exec i s = .next t →
    ((∃ baud p st d, i = .openUart baud p st d) →
      t = { s with cfg := t.cfg, rx := t.rx, tx := t.tx, ovr := t.ovr, fe := t.fe, pe := t.pe, dor := t.dor, rdr := t.rdr,
                   ie := t.ie, isOpen := t.isOpen, stop := t.stop }) ∧
    (i = .close → t = { s with rx := t.rx, tx := t.tx, rdr := t.rdr, ie := t.ie, isOpen := t.isOpen }) ∧
    ((∃ baud p st d, i = .openUart baud p st d) ∨ i = .close →
      ∀ a, Memory.read t.rx.store a = Memory.read s.rx.store a ∧ Memory.read t.tx.store a = Memory.read s.tx.store a)

/-- The frame of the three handlers whenever they answer a next state: ISR_RXC stores at most the one byte at the RX ring's tail, the
other two store nothing; no handler touches GIE, RES, CFG or the host's program (R140, R220). -/
def Obligations.HandlersFrame : Prop :=
  ∀ s t : State, s.inv = true →
    (exec .isrRxc s = .next t →
      t = { s with rdr := t.rdr, fe := t.fe, pe := t.pe, ovr := t.ovr, rx := t.rx } ∧
      (∀ a, a ≠ s.rx.tail → Memory.read t.rx.store a = Memory.read s.rx.store a) ∧
      (∀ a, Memory.read t.tx.store a = Memory.read s.tx.store a)) ∧
    (exec .isrDre s = .next t →
      t = { s with tx := t.tx, udr := t.udr, txcf := t.txcf, ie := t.ie, txs := t.txs } ∧ t.tx.tail = s.tx.tail ∧
      t.ie.rxcie = s.ie.rxcie ∧
      (∀ a, Memory.read t.rx.store a = Memory.read s.rx.store a ∧ Memory.read t.tx.store a = Memory.read s.tx.store a)) ∧
    (exec .isrTxc s = .next t →
      t = { s with txcf := t.txcf, ie := t.ie, dir := t.dir, txs := t.txs } ∧ t.ie.rxcie = s.ie.rxcie ∧ t.ie.dreie = s.ie.dreie ∧
      (∀ a, Memory.read t.rx.store a = Memory.read s.rx.store a ∧ Memory.read t.tx.store a = Memory.read s.tx.store a))

/-- The frame of the three UART events whenever they answer a next state: they write only the UART's registers, DOR and the wire
record (R49), and store nothing. -/
def Obligations.UartEventsFrame : Prop :=
  ∀ s t : State,
    (∀ b fe pe, exec (.uartRx b fe pe) s = .next t → t = { s with dor := t.dor, rdr := t.rdr }) ∧
    (exec .uartTxLoad s = .next t → t = { s with tsr := t.tsr, udr := t.udr }) ∧
    (exec .uartTxDone s = .next t → t = { s with wire := t.wire, tsr := t.tsr, txcf := t.txcf }) ∧
    (∀ i : Instr, i.port = .uart → exec i s = .next t →
      ∀ a, Memory.read t.rx.store a = Memory.read s.rx.store a ∧ Memory.read t.tx.store a = Memory.read s.tx.store a)

/-! ## Rules of the whole block -/

/-- R57: each ring index has one writer, OPEN and CLOSE apart; RX.head has a second one, ISR_RXC, under `OverwriteOldest` only. -/
def Obligations.EachIndexHasOneWriter : Prop :=
  ∀ (i : Instr) (s t : State), exec i s = .next t → (∀ baud p st d, i ≠ .openUart baud p st d) → i ≠ .close →
    (t.rx.tail ≠ s.rx.tail → i = .isrRxc) ∧
    (t.rx.head ≠ s.rx.head → i = .read ∨ (i = .isrRxc ∧ s.params.rxOverrunPolicy = .overwriteOldest)) ∧
    (t.tx.tail ≠ s.tx.tail → ∃ v, i = .write v ∨ i = .tryWrite v) ∧
    (t.tx.head ≠ s.tx.head → i = .isrDre)

/-- R30, R31, R32: OVR is set by ISR_RXC when its byte finds the ring full, FE and PE by ISR_RXC when its frame carries the error, DOR by
UART_RX when the receive data register is full; nothing else sets them, and only STATUS and OPEN clear them. -/
def Obligations.StickyFlagsAreSetAndClearedOnlyByTheirRules : Prop :=
  ∀ (i : Instr) (s t : State), exec i s = .next t →
    (s.ovr = false → t.ovr = true → i = .isrRxc ∧ s.rx.isFull s.params.rxCap = true) ∧
    (s.fe = false → t.fe = true → i = .isrRxc ∧ ∃ f, s.rdr = some f ∧ f.fe = true) ∧
    (s.pe = false → t.pe = true → i = .isrRxc ∧ ∃ f, s.rdr = some f ∧ f.pe = true) ∧
    (s.dor = false → t.dor = true → s.rdr ≠ none ∧ ∃ b fe pe, i = .uartRx b fe pe) ∧
    (i = .isrRxc → s.rx.isFull s.params.rxCap = true → t.ovr = true) ∧
    (i = .isrRxc → ∀ f, s.rdr = some f → (f.fe = true → t.fe = true) ∧ (f.pe = true → t.pe = true)) ∧
    ((∃ b fe pe, i = .uartRx b fe pe) → s.isOpen = true → s.rdr ≠ none → t.dor = true) ∧
    ((s.ovr = true ∧ t.ovr = false) ∨ (s.fe = true ∧ t.fe = false) ∨ (s.pe = true ∧ t.pe = false) ∨ (s.dor = true ∧ t.dor = false) →
      i = .status ∨ ∃ baud p st d, i = .openUart baud p st d)

/-- R27, R120, R121: the direction turns to Transmit only in a WRITE or TRYWRITE that finds Idle, and to Receive only in ISR_TXC; the
driver-enable pin follows it with the board's polarity (R28). -/
def Obligations.DirectionChangesOnlyAtItsCallSites : Prop :=
  (∀ (i : Instr) (s t : State), exec i s = .next t → t.dir ≠ s.dir →
    (t.dir = .transmit ∧ s.txs = .idle ∧ ∃ v, i = .write v ∨ i = .tryWrite v) ∨ (t.dir = .receive ∧ i = .isrTxc)) ∧
  (∀ s : State, s.dePin = true ↔ (s.dir = .transmit ↔ s.params.deActiveHigh = true))

/-- R60: PEEK and AVAILABLE repeated answer the same, a second STATUS answers the same bits 7:4 and zeros in bits 3:0, a second CLOSE
changes nothing, a second FLUSH completes at once. -/
def Obligations.RepeatedQueriesAnswerTheSame : Prop :=
  ∀ s t u : State, s.inv = true →
    (exec .peek s = .next t → exec .peek t = .next u → u = t) ∧
    (exec .available s = .next t → exec .available t = .next u → u = t) ∧
    (exec .status s = .next t → exec .status t = .next u →
      u.res.extractLsb' 4 28 = t.res.extractLsb' 4 28 ∧ u.res.extractLsb' 0 4 = 0) ∧
    (s.holds .close = false → exec .close s = .next t → exec .close t = .next t ∧ t.holds .close = false) ∧
    (s.holds .flush = false → exec .flush s = .next t → exec .flush t = .next t ∧ t.holds .flush = false)

/-- R244: the commands on a closed instance. -/
def Obligations.CommandsOnAClosedInstanceAreDefined : Prop :=
  ∀ s : State, s.inv = true → s.stop = .running → s.isOpen = false →
    (∀ v, exec (.write v) s = .next { s with res := 0 } ∧ exec (.tryWrite v) s = .next { s with res := 0 }) ∧
    exec .read s = .next { s with res := 0 } ∧ exec .peek s = .next { s with res := 0 } ∧
    exec .available s = .next { s with res := 0 } ∧
    s.enabled .flush = true ∧ exec .flush s = .next s ∧ s.enabled .close = true ∧ exec .close s = .next s ∧
    (∃ t, exec .status s = .next t ∧ t.res.getLsbD 7 = false) ∧
    (∀ b fe pe, exec (.uartRx b fe pe) s = .next s)

/-- R90: try_write accepts a prefix, at least as long as the ring has room for it when the call begins, and exactly so long when no other
agent steps between its commands (log 23), appending it; a closed instance accepts nothing. R89: over any run, a write that returns has
accepted every byte of an open instance's list, and none of a closed one's. -/
def Obligations.TryWriteOfAListAcceptsAPrefix : Prop :=
  ∀ (s : State) (bs : List Byte), s.inv = true → s.stop = .running →
    (s.isOpen = true →
      (s.tryWriteList bs).1 = min bs.length (s.params.txCap - 1 - s.tx.len s.params.txCap) ∧
      (s.tryWriteList bs).2.tx.contents s.params.txCap = s.tx.contents s.params.txCap ++ bs.take (s.tryWriteList bs).1) ∧
    (s.isOpen = false → (s.tryWriteList bs).1 = 0 ∧ (s.tryWriteList bs).2.tx = s.tx) ∧
    (∀ ws k t, s.tryWriteRun bs ws = some (k, t) →
      k ≤ bs.length ∧ (s.isOpen = false → k = 0) ∧
        (s.isOpen = true → min bs.length (s.params.txCap - 1 - s.tx.len s.params.txCap) ≤ k)) ∧
    (∀ ws k t, s.writeRun bs ws = some (k, t) → k = if s.isOpen = true then bs.length else 0)

/-! ## Ports, steps and runs (60_exceptions.md) -/

/-- When the word a port offers decodes to an operation of that port, a step is that operation's exec, in the state whose turn is over
and whose word is used up; a held command's word is not used up (R15, R216, R222). -/
def Obligations.AStepRunsTheDecodedOperation : Prop :=
  ∀ (s : State) (p : Port) (w : Word) (i : Instr), s.request = .word p w → decode w = .op i → i.port = p →
    step s = exec i { s with
      sched := s.sched.tail
      prog := if p = .host ∧ s.holds i = false then s.prog.tail else s.prog }

/-- From R230, R134, R191, R192: a word that is not enabled in its turn produces no state. That the model says so by a refusal of its own
name is its choice (log 5). -/
def Obligations.WhatIsNotEnabledProducesNoState : Prop :=
  ∀ (s : State) (i : Instr), s.stop = .running → s.holds i = false → s.enabled i = false →
    exec i s = .refused .notEnabled ∧ i ∈ [Instr.isrRxc, .isrDre, .isrTxc, .uartTxLoad, .uartTxDone]

/-- R211, R84: a word of another port's opcode in the host's program faults with the word recorded, and nothing else changes. -/
def Obligations.AForeignWordInTheHostProgramFaults : Prop :=
  ∀ (s : State) (w : Word) (i : Instr), s.stop = .running → s.request = .word .host w → decode w = .op i → i.port ≠ .host →
    ∃ t, step s = .next t ∧ t = { s with stop := .faulted .illegalCommand w, prog := t.prog, sched := t.sched }

/-- R42: once STOP is set no agent has a further step: every operation and every turn but a reset answers the recorded outcome. -/
def Obligations.AStoppedBlockHasNoStep : Prop :=
  ∀ s : State,
    (∀ c w, s.stop = .faulted c w →
      (∀ i, exec i s = .fault (.illegalCommand w)) ∧ ((∀ p, s.request ≠ .reset p) → step s = .fault (.illegalCommand w))) ∧
    (∀ r w, s.stop = .refused r w →
      (∀ i, exec i s = .refused (.nineBitData w)) ∧ ((∀ p, s.request ≠ .reset p) → step s = .refused (.nineBitData w)))

/-- R216, R222: the hold conditions, command by command; a held command's step changes nothing of the block and leaves the command the
host's current one, and the step of a command that is not held makes the next one current. -/
def Obligations.AHeldCommandIsTriedAgain : Prop :=
  (∀ (s : State) (i : Instr), s.holds i = true ↔
    (∃ v, i = .write v) ∧ s.isOpen = true ∧ s.tx.isFull s.params.txCap = true ∨
    (i = .flush ∨ i = .close ∨ ∃ baud p st d, i = .openUart baud p st d ∧ d ≠ .nine) ∧ s.txs ≠ .idle) ∧
  (∀ (s : State) (w : Word) (i : Instr), s.stop = .running → s.request = .word .host w → decode w = .op i → i.port = .host →
    (s.holds i = true → step s = .next { s with sched := s.sched.tail }) ∧
    (s.holds i = false → ∃ t, step s = .next t ∧ t.prog = s.prog.tail))

/-- R217, R253: while interrupts are masked no step of the UART or the interrupt unit lifts a hold or unmasks them, so a hold kept with
GIE 0 is never lifted. -/
def Obligations.AMaskedHoldIsNeverLifted : Prop :=
  ∀ (i j : Instr) (s t : State), s.gie = false → s.holds i = true → j.port ≠ .host → exec j s = .next t →
    t.gie = false ∧ t.holds i = true

/-- From R215: illegal comes before refusal, refusal before hold, hold before effect. That a held command answers the same state as a
next state is the model's form (log 4). -/
def Obligations.OutcomesFollowTheirPrecedence : Prop :=
  (∀ (s : State) (p : Port) (w : Word) (r : IllegalReason), s.stop = .running → s.request = .word p w → decode w = .illegal r →
    ∃ t, step s = .next t ∧ t.stop = .faulted .illegalCommand w) ∧
  (∀ (s : State) (w : Word) (baud : BitVec 22) (p : Parity) (st : StopBits), s.stop = .running → s.request = .word .host w →
    decode w = .op (.openUart baud p st .nine) → ∃ t, step s = .next t ∧ t.stop = .refused .nineBitData w) ∧
  (∀ (s : State) (i : Instr), s.stop = .running → s.holds i = true → exec i s = .next s)

/-- R230: a script that is a run is run by the machine, one step a word, to the same state. -/
def Obligations.AScriptRunIsAMachineRun : Prop :=
  ∀ (s t : State) (ws : List Word), s.prog = [] → s.sched = [] → s.runScript ws = some t →
    Host.Core.run Sys2Proof.core ws.length (s.loadScript ws) = .next t

/-- From R216 (what lifts the holds), R122, R132, R133, R191, R192: whenever a burst is in flight, interrupts are delivered and no received
frame waits, the handlers and the transmitter alone can bring the block to Idle with the bus released, within a bounded number of steps,
and every byte in flight has then left on the wire in order. It says that such a run exists, not that every run is one. -/
def Obligations.ABurstDrainsToIdle : Prop :=
  ∀ s : State, s.inv = true → s.stop = .running → s.gie = true → s.rdr = none → s.txs ≠ .idle →
    ∃ (is : List Instr) (t : State),
      (∀ i ∈ is, i ∈ [Instr.isrDre, .isrTxc, .uartTxLoad, .uartTxDone]) ∧ is.length ≤ 3 * s.inFlight.length + 2 ∧
      s.runScript (is.map encode) = some t ∧ t.txs = .idle ∧ t.dir = .receive ∧ (t.wire.map fun r => r.b) = s.outgoing

/-- R190, R131 (and the source's round-trip property, L1-7): frames the receive handler takes one by one, with room in the ring, are
all received, in order and unflagged. -/
def Obligations.FramesTakenInTimeAreReceivedInOrder : Prop :=
  ∀ (s : State) (bs : List Byte), s.inv = true → s.stop = .running → s.gie = true → s.isOpen = true → s.rdr = none →
    s.rx.len s.params.rxCap + bs.length ≤ s.params.rxCap - 1 →
    ∃ t, s.runScript (bs.flatMap fun b => [encode (.uartRx b false false), encode .isrRxc]) = some t ∧
      t.rx.contents s.params.rxCap = s.rx.contents s.params.rxCap ++ bs.map (onWire s.cfg) ∧
      t = { s with rx := t.rx }

/-- R13, R227: a step of one instance leaves every other instance as it was. -/
def Obligations.InstancesShareNoState : Prop :=
  ∀ (k : Nat) (before after : List State), boardStep k before = .next after →
    after.length = before.length ∧ (∀ j, j ≠ k → after[j]? = before[j]?) ∧
    ∃ s t, before[k]? = some s ∧ step s = .next t ∧ after[k]? = some t
end

