-- ==== Sys2Proof/Laws/Decode.lean ====
section
/-! SUPPORT. The decoder, opcode by opcode (R77, R85). -/

namespace Sys2Proof

/-- Every opcode is one of the sixteen of the map. -/
theorem opcode_cases (o : BitVec 4) :
    o = 0x0#4 ∨ o = 0x1#4 ∨ o = 0x2#4 ∨ o = 0x3#4 ∨ o = 0x4#4 ∨ o = 0x5#4 ∨ o = 0x6#4 ∨ o = 0x7#4 ∨ o = 0x8#4 ∨ o = 0x9#4 ∨
      o = 0xA#4 ∨ o = 0xB#4 ∨ o = 0xC#4 ∨ o = 0xD#4 ∨ o = 0xE#4 ∨ o = 0xF#4 := by
  revert o
  decide

theorem decode_opcode_reserved {w : Word} (h : opcode w = 0x0#4) : decode w = .illegal .reservedOpcode := by
  unfold decode
  rw [h]
  rfl

theorem decode_opcode_open {w : Word} (h : opcode w = 0x1#4) : decode w = decodeOpen w := by
  unfold decode
  rw [h]
  rfl

theorem decode_opcode_close {w : Word} (h : opcode w = 0x2#4) : decode w = decodeFormatN .close w := by
  unfold decode
  rw [h]
  rfl

theorem decode_opcode_write {w : Word} (h : opcode w = 0x3#4) : decode w = decodeFormatB .write w := by
  unfold decode
  rw [h]
  rfl

theorem decode_opcode_tryWrite {w : Word} (h : opcode w = 0x4#4) : decode w = decodeFormatB .tryWrite w := by
  unfold decode
  rw [h]
  rfl

theorem decode_opcode_read {w : Word} (h : opcode w = 0x5#4) : decode w = decodeFormatN .read w := by
  unfold decode
  rw [h]
  rfl

theorem decode_opcode_peek {w : Word} (h : opcode w = 0x6#4) : decode w = decodeFormatN .peek w := by
  unfold decode
  rw [h]
  rfl

theorem decode_opcode_available {w : Word} (h : opcode w = 0x7#4) : decode w = decodeFormatN .available w := by
  unfold decode
  rw [h]
  rfl

theorem decode_opcode_flush {w : Word} (h : opcode w = 0x8#4) : decode w = decodeFormatN .flush w := by
  unfold decode
  rw [h]
  rfl

theorem decode_opcode_status {w : Word} (h : opcode w = 0x9#4) : decode w = decodeFormatN .status w := by
  unfold decode
  rw [h]
  rfl

theorem decode_opcode_csEnter {w : Word} (h : opcode w = 0xA#4) : decode w = decodeFormatN .csEnter w := by
  unfold decode
  rw [h]
  rfl

theorem decode_opcode_csExit {w : Word} (h : opcode w = 0xB#4) : decode w = decodeFormatN .csExit w := by
  unfold decode
  rw [h]
  rfl

theorem decode_opcode_vector {w : Word} (h : opcode w = 0xC#4) : decode w = decodeFormatV w := by
  unfold decode
  rw [h]
  rfl

theorem decode_opcode_uartRx {w : Word} (h : opcode w = 0xD#4) : decode w = decodeFormatF w := by
  unfold decode
  rw [h]
  rfl

theorem decode_opcode_uartTxLoad {w : Word} (h : opcode w = 0xE#4) : decode w = decodeFormatN .uartTxLoad w := by
  unfold decode
  rw [h]
  rfl

theorem decode_opcode_uartTxDone {w : Word} (h : opcode w = 0xF#4) : decode w = decodeFormatN .uartTxDone w := by
  unfold decode
  rw [h]
  rfl

end Sys2Proof
end

