-- ==== Sys2Proof/Laws/Memory.lean ====
section
/-! SUPPORT. The storage spaces: a read after a write, and the canonical form, which every operation keeps. -/

namespace Sys2Proof.Machine

@[simp] theorem Memory.read_nil (a : Nat) : Memory.read [] a = Memory.unlisted := rfl

theorem Memory.wf_cons {c : Host.Cell} {m : List Host.Cell} :
    Memory.wf (c :: m) = true ↔ c.2 ≠ Memory.unlisted ∧ (∀ d ∈ m, c.1 < d.1) ∧ Memory.wf m = true := by
  simp [Memory.wf, and_assoc]

/-- A slot below every listed one is unlisted. -/
theorem Memory.read_below {m : List Host.Cell} {a : Nat} (h : ∀ d ∈ m, a < d.1) : Memory.read m a = Memory.unlisted := by
  induction m with
  | nil => rfl
  | cons c m ih =>
    have hc : c.1 ≠ a := fun e => absurd (h c (by simp)) (by omega)
    simp only [Memory.read, hc, if_false]
    exact ih fun d hd => h d (by simp [hd])

theorem Memory.read_listed {m : List Host.Cell} {a : Nat} (h : ∀ d ∈ m, a < d.1) (b : Byte) (x : Nat) :
    Memory.read (Memory.listed a b m) x = if x = a then b else Memory.read m x := by
  unfold Memory.listed
  by_cases hx : x = a
  · subst hx
    split
    · next hb => rw [if_pos rfl, Memory.read_below h, hb]
    · simp [Memory.read]
  · split
    · rfl
    · rw [Memory.read, if_neg (Ne.symm hx)]

/-- A read after a write: the byte written at its own slot, and every other slot as before. -/
theorem Memory.read_write {m : List Host.Cell} (h : Memory.wf m = true) (a : Nat) (b : Byte) (x : Nat) :
    Memory.read (Memory.write m a b) x = if x = a then b else Memory.read m x := by
  induction m with
  | nil => exact Memory.read_listed (m := []) (by simp) b x
  | cons c m ih =>
    obtain ⟨hc, hlt, hm⟩ := Memory.wf_cons.mp h
    simp only [Memory.write]
    split
    · next ha =>
      exact Memory.read_listed (by intro d hd; rcases List.mem_cons.mp hd with rfl | hd; exacts [ha, by have := hlt d hd; omega]) b x
    · split
      · next ha =>
        rw [Memory.read_listed (by intro d hd; have := hlt d hd; omega)]
        by_cases hx : x = a
        · simp [hx]
        · simp [Memory.read, hx, show c.1 ≠ x by omega]
      · next h1 h2 =>
        by_cases hx : c.1 = x
        · have : x ≠ a := by omega
          simp [Memory.read, hx, this]
        · simp [Memory.read, hx, ih hm]

theorem Memory.mem_listed {m : List Host.Cell} {a : Nat} {b : Byte} {d : Host.Cell} (h : d ∈ Memory.listed a b m) :
    d.1 = a ∨ d ∈ m := by
  unfold Memory.listed at h
  split at h
  · exact .inr h
  · rcases List.mem_cons.mp h with rfl | h
    · exact .inl rfl
    · exact .inr h

/-- A write lists no slot but its own. -/
theorem Memory.mem_write {m : List Host.Cell} {a : Nat} {b : Byte} {d : Host.Cell} (h : d ∈ Memory.write m a b) :
    d.1 = a ∨ d ∈ m := by
  induction m with
  | nil => exact Memory.mem_listed h
  | cons c m ih =>
    simp only [Memory.write] at h
    split at h
    · exact Memory.mem_listed h
    · split at h
      · rcases Memory.mem_listed h with h | h
        · exact .inl h
        · exact .inr (by simp [h])
      · rcases List.mem_cons.mp h with rfl | h
        · exact .inr (by simp)
        · rcases ih h with h | h
          · exact .inl h
          · exact .inr (by simp [h])

theorem Memory.wf_listed {m : List Host.Cell} {a : Nat} (b : Byte) (h : ∀ d ∈ m, a < d.1) (hm : Memory.wf m = true) :
    Memory.wf (Memory.listed a b m) = true := by
  unfold Memory.listed
  split
  · exact hm
  · next hb => exact Memory.wf_cons.mpr ⟨hb, h, hm⟩

/-- A write keeps the canonical form. -/
theorem Memory.wf_write {m : List Host.Cell} (h : Memory.wf m = true) (a : Nat) (b : Byte) :
    Memory.wf (Memory.write m a b) = true := by
  induction m with
  | nil => exact Memory.wf_listed b (by simp) rfl
  | cons c m ih =>
    obtain ⟨hc, hlt, hm⟩ := Memory.wf_cons.mp h
    simp only [Memory.write]
    split
    · next ha =>
      exact Memory.wf_listed b (by intro d hd; rcases List.mem_cons.mp hd with rfl | hd; exacts [ha, by have := hlt d hd; omega]) h
    · split
      · next ha => exact Memory.wf_listed b (by intro d hd; have := hlt d hd; omega) hm
      · next h1 h2 =>
        refine Memory.wf_cons.mpr ⟨hc, fun d hd => ?_, ih hm⟩
        rcases Memory.mem_write hd with hd | hd
        · omega
        · exact hlt d hd

/-- A write at a slot of the space keeps the space's bound. -/
theorem Memory.write_bound {m : List Host.Cell} {n a : Nat} (b : Byte) (ha : a < n) (h : ∀ d ∈ m, d.1 < n) :
    ∀ d ∈ Memory.write m a b, d.1 < n := fun d hd => by
  rcases Memory.mem_write hd with hd | hd
  · omega
  · exact h d hd

/-- The storage after reset is canonical. -/
theorem Memory.wf_atReset : Memory.wf Ring.atReset.store = true := rfl

end Sys2Proof.Machine
end

