-- ==== Sys2Proof/Laws/Ring.lean ====
section
/-! SUPPORT. The ring primitives: what each answers, what it does to the contents, and that it keeps `Ring.wf`. -/

namespace Sys2Proof.Machine

theorem Ring.wf_iff {n : Nat} {r : Ring} :
    r.wf n = true ↔ r.head < n ∧ r.tail < n ∧ Memory.wf r.store = true ∧ ∀ c ∈ r.store, c.1 < n := by
  simp [Ring.wf, and_assoc]

theorem Ring.adv_lt {n i : Nat} (h : 0 < n) : Ring.adv n i < n := Nat.mod_lt _ h

/-- The count without the remainder. -/
theorem Ring.count_eq {n : Nat} {r : Ring} (hh : r.head < n) (ht : r.tail < n) :
    r.count n = if r.head ≤ r.tail then r.tail - r.head else r.tail + n - r.head := by
  unfold Ring.count
  split
  · rw [show r.tail + n - r.head = r.tail - r.head + n by omega, Nat.add_mod_right, Nat.mod_eq_of_lt (by omega)]
  · rw [Nat.mod_eq_of_lt (by omega)]

theorem Ring.adv_eq {n i : Nat} (h : i < n) : Ring.adv n i = if i + 1 = n then 0 else i + 1 := by
  unfold Ring.adv
  split
  · next e => rw [e, Nat.mod_self]
  · rw [Nat.mod_eq_of_lt (by omega)]

theorem Ring.count_lt {n : Nat} {r : Ring} (h : 0 < n) : r.count n < n := Nat.mod_lt _ h

/-- Empty is count 0. -/
theorem Ring.count_zero_iff {n : Nat} {r : Ring} (h : r.wf n = true) : r.count n = 0 ↔ r.head = r.tail := by
  obtain ⟨hh, ht, -⟩ := Ring.wf_iff.mp h
  rw [Ring.count_eq hh ht]
  split <;> omega

theorem Ring.isFull_iff {n : Nat} {r : Ring} : r.isFull n = true ↔ r.count n = n - 1 := by simp [Ring.isFull]

theorem Ring.isEmpty_iff {r : Ring} : r.isEmpty = true ↔ r.head = r.tail := by simp [Ring.isEmpty]

/-! ## What each primitive answers -/

theorem Ring.push_full {n : Nat} {r : Ring} (b : Byte) (h : r.isFull n = true) : r.push n b = (false, r) := by
  simp [Ring.push, Ring.isFull_iff.mp h]

theorem Ring.push_room {n : Nat} {r : Ring} (b : Byte) (h : r.isFull n = false) :
    r.push n b = (true, { r with store := Memory.write r.store r.tail b, tail := Ring.adv n r.tail }) := by
  have : r.count n ≠ n - 1 := by simpa [Ring.isFull] using h
  simp [Ring.push, this]

theorem Ring.pop_empty {n : Nat} {r : Ring} (h : r.isEmpty = true) : r.pop n = (none, r) := by
  simp [Ring.pop, Ring.isEmpty_iff.mp h]

theorem Ring.pop_nonempty {n : Nat} {r : Ring} (h : r.isEmpty = false) :
    r.pop n = (some (Memory.read r.store r.head), { r with head := Ring.adv n r.head }) := by
  have : r.head ≠ r.tail := by simpa [Ring.isEmpty] using h
  simp [Ring.pop, this]

/-- PEEK finds what READ would take. -/
theorem Ring.peek_eq_pop (n : Nat) (r : Ring) : r.peek = (r.pop n).1 := by
  unfold Ring.peek Ring.pop
  split <;> rfl

/-! ## The invariant -/

theorem Ring.wf_push {n : Nat} {r : Ring} (h : r.wf n = true) (b : Byte) : (r.push n b).2.wf n = true := by
  obtain ⟨hh, ht, hm, hb⟩ := Ring.wf_iff.mp h
  unfold Ring.push
  split
  · exact h
  · exact Ring.wf_iff.mpr ⟨hh, Ring.adv_lt (by omega), Memory.wf_write hm _ _, Memory.write_bound b ht hb⟩

theorem Ring.wf_dropOldest {n : Nat} {r : Ring} (h : r.wf n = true) : (r.dropOldest n).wf n = true := by
  obtain ⟨hh, ht, hm, hb⟩ := Ring.wf_iff.mp h
  exact Ring.wf_iff.mpr ⟨Ring.adv_lt (by omega), ht, hm, hb⟩

theorem Ring.wf_pop {n : Nat} {r : Ring} (h : r.wf n = true) : (r.pop n).2.wf n = true := by
  unfold Ring.pop
  split
  · exact h
  · exact Ring.wf_dropOldest h

theorem Ring.wf_reset {n : Nat} {r : Ring} (h : r.wf n = true) : r.reset.wf n = true := by
  obtain ⟨hh, ht, hm, hb⟩ := Ring.wf_iff.mp h
  exact Ring.wf_iff.mpr ⟨by simp only [Ring.reset]; omega, by simp only [Ring.reset]; omega, hm, hb⟩

theorem Ring.wf_atReset {n : Nat} (h : 0 < n) : Ring.atReset.wf n = true := by
  simp [Ring.wf, Ring.atReset, Memory.wf, h]

/-! ## The contents -/

@[simp] theorem Ring.length_contents (n : Nat) (r : Ring) : (r.contents n).length = r.count n := by simp [Ring.contents]

theorem Ring.contents_empty {n : Nat} {r : Ring} (h : r.wf n = true) (he : r.isEmpty = true) : r.contents n = [] := by
  simp [Ring.contents, (Ring.count_zero_iff h).mpr (Ring.isEmpty_iff.mp he)]

@[simp] theorem Ring.contents_reset (n : Nat) (r : Ring) : r.reset.contents n = [] := by
  simp [Ring.contents, Ring.count, Ring.reset]

@[simp] theorem Ring.contents_atReset (n : Nat) : Ring.atReset.contents n = [] := by
  simp [Ring.contents, Ring.count, Ring.atReset]

/-- The slot after `k` more advances of the head. -/
theorem Ring.slot_eq {n h k : Nat} (hh : h < n) (hk : k < n) : (h + k) % n = if h + k < n then h + k else h + k - n := by
  split
  · exact Nat.mod_eq_of_lt ‹_›
  · rw [Nat.mod_eq_sub_mod (by omega), Nat.mod_eq_of_lt (by omega)]

/-- A push with room: the count goes up by one. -/
theorem Ring.count_push {n : Nat} {r : Ring} (h : r.wf n = true) (b : Byte) (hf : r.isFull n = false) :
    (r.push n b).2.count n = r.count n + 1 := by
  obtain ⟨hh, ht, -⟩ := Ring.wf_iff.mp h
  have hc : r.count n ≠ n - 1 := by simpa [Ring.isFull] using hf
  rw [Ring.push_room b hf, Ring.count_eq (by simpa using hh) (Ring.adv_lt (by omega)), Ring.adv_eq ht]
  rw [Ring.count_eq hh ht] at hc ⊢
  simp only
  split_ifs at hc ⊢ <;> omega

/-- A push with room appends its byte to the contents (R100). -/
theorem Ring.contents_push {n : Nat} {r : Ring} (h : r.wf n = true) (b : Byte) (hf : r.isFull n = false) :
    (r.push n b).2.contents n = r.contents n ++ [b] := by
  obtain ⟨hh, ht, hm, -⟩ := Ring.wf_iff.mp h
  have hc : r.count n ≠ n - 1 := by simpa [Ring.isFull] using hf
  have hlt : r.count n < n := Ring.count_lt (by omega)
  unfold Ring.contents
  rw [Ring.count_push h b hf, List.range_succ, List.map_append, Ring.push_room b hf]
  have htail : (r.head + r.count n) % n = r.tail := by
    rw [Ring.slot_eq hh hlt, Ring.count_eq hh ht]
    split_ifs <;> omega
  congr 1
  · refine List.map_congr_left fun k hk => ?_
    have hk : k < r.count n := List.mem_range.mp hk
    rw [Memory.read_write hm, if_neg]
    rw [← htail, Ring.slot_eq hh (by omega), Ring.slot_eq hh hlt]
    split_ifs <;> omega
  · simp [Memory.read_write hm, htail]

/-- Advancing the head of a ring that is not empty takes off the oldest byte. -/
theorem Ring.contents_advance {n : Nat} {r : Ring} (h : r.wf n = true) (he : r.isEmpty = false) :
    r.contents n = Memory.read r.store r.head :: (r.dropOldest n).contents n := by
  obtain ⟨hh, ht, -⟩ := Ring.wf_iff.mp h
  have hne : r.head ≠ r.tail := by simpa [Ring.isEmpty] using he
  have hcount : r.count n = (r.dropOldest n).count n + 1 := by
    unfold Ring.dropOldest
    rw [Ring.count_eq hh ht, Ring.count_eq (Ring.adv_lt (by omega)) (by simpa using ht), Ring.adv_eq hh]
    simp only
    split_ifs <;> omega
  have hlt : r.count n < n := Ring.count_lt (by omega)
  unfold Ring.contents
  rw [hcount, List.range_succ_eq_map, List.map_cons, List.map_map]
  congr 1
  · simp [Nat.mod_eq_of_lt hh]
  · refine List.map_congr_left fun k hk => ?_
    have hk : k < (r.dropOldest n).count n := List.mem_range.mp hk
    have hn : k + 1 < n := by omega
    simp only [Function.comp, Ring.dropOldest, Ring.adv]
    congr 1
    rw [Nat.mod_add_mod]
    congr 1
    omega

/-- A pop answers the oldest byte and leaves the others (R101). -/
theorem Ring.pop_contents {n : Nat} {r : Ring} (h : r.wf n = true) :
    (r.pop n).1 = (r.contents n).head? ∧ (r.pop n).2.contents n = (r.contents n).tail := by
  cases he : r.isEmpty
  · rw [Ring.pop_nonempty he, Ring.contents_advance h he]
    exact ⟨rfl, rfl⟩
  · rw [Ring.pop_empty he, Ring.contents_empty h he]
    exact ⟨rfl, rfl⟩

/-- Dropping the oldest byte of a full ring leaves room. -/
theorem Ring.dropOldest_room {n : Nat} {r : Ring} (h : r.wf n = true) (hn : 2 ≤ n) (hf : r.isFull n = true) :
    (r.dropOldest n).isFull n = false := by
  have hc := Ring.isFull_iff.mp hf
  have he : r.isEmpty = false := by
    cases he : r.isEmpty
    · rfl
    · have := (Ring.count_zero_iff h).mpr (Ring.isEmpty_iff.mp he); omega
  have := congrArg List.length (Ring.contents_advance h he)
  simp only [Ring.length_contents, List.length_cons] at this
  simp [Ring.isFull]
  omega

end Sys2Proof.Machine
end

