-- ==== Sys2Proof/Laws/State.lean ====
section
/-! SUPPORT. What each named update of the state does to each field, one lemma a field, true by rfl. -/

namespace Sys2Proof.Machine

/-! ## `State.assertTransmit` -/

@[simp] theorem State.assertTransmit_params (s : State) : (s.assertTransmit).params = s.params := rfl
@[simp] theorem State.assertTransmit_rx (s : State) : (s.assertTransmit).rx = s.rx := rfl
@[simp] theorem State.assertTransmit_tx (s : State) : (s.assertTransmit).tx = s.tx := rfl
@[simp] theorem State.assertTransmit_isOpen (s : State) : (s.assertTransmit).isOpen = s.isOpen := rfl
@[simp] theorem State.assertTransmit_txs (s : State) : (s.assertTransmit).txs = s.txs := rfl
@[simp] theorem State.assertTransmit_dir (s : State) : (s.assertTransmit).dir = .transmit := rfl
@[simp] theorem State.assertTransmit_ie (s : State) : (s.assertTransmit).ie = s.ie := rfl
@[simp] theorem State.assertTransmit_ovr (s : State) : (s.assertTransmit).ovr = s.ovr := rfl
@[simp] theorem State.assertTransmit_fe (s : State) : (s.assertTransmit).fe = s.fe := rfl
@[simp] theorem State.assertTransmit_pe (s : State) : (s.assertTransmit).pe = s.pe := rfl
@[simp] theorem State.assertTransmit_dor (s : State) : (s.assertTransmit).dor = s.dor := rfl
@[simp] theorem State.assertTransmit_cfg (s : State) : (s.assertTransmit).cfg = s.cfg := rfl
@[simp] theorem State.assertTransmit_gie (s : State) : (s.assertTransmit).gie = s.gie := rfl
@[simp] theorem State.assertTransmit_res (s : State) : (s.assertTransmit).res = s.res := rfl
@[simp] theorem State.assertTransmit_udr (s : State) : (s.assertTransmit).udr = s.udr := rfl
@[simp] theorem State.assertTransmit_tsr (s : State) : (s.assertTransmit).tsr = s.tsr := rfl
@[simp] theorem State.assertTransmit_txcf (s : State) : (s.assertTransmit).txcf = s.txcf := rfl
@[simp] theorem State.assertTransmit_rdr (s : State) : (s.assertTransmit).rdr = s.rdr := rfl
@[simp] theorem State.assertTransmit_wire (s : State) : (s.assertTransmit).wire = s.wire := rfl
@[simp] theorem State.assertTransmit_stop (s : State) : (s.assertTransmit).stop = s.stop := rfl
@[simp] theorem State.assertTransmit_prog (s : State) : (s.assertTransmit).prog = s.prog := rfl
@[simp] theorem State.assertTransmit_sched (s : State) : (s.assertTransmit).sched = s.sched := rfl

/-! ## `State.releaseToReceive` -/

@[simp] theorem State.releaseToReceive_params (s : State) : (s.releaseToReceive).params = s.params := rfl
@[simp] theorem State.releaseToReceive_rx (s : State) : (s.releaseToReceive).rx = s.rx := rfl
@[simp] theorem State.releaseToReceive_tx (s : State) : (s.releaseToReceive).tx = s.tx := rfl
@[simp] theorem State.releaseToReceive_isOpen (s : State) : (s.releaseToReceive).isOpen = s.isOpen := rfl
@[simp] theorem State.releaseToReceive_txs (s : State) : (s.releaseToReceive).txs = s.txs := rfl
@[simp] theorem State.releaseToReceive_dir (s : State) : (s.releaseToReceive).dir = .receive := rfl
@[simp] theorem State.releaseToReceive_ie (s : State) : (s.releaseToReceive).ie = s.ie := rfl
@[simp] theorem State.releaseToReceive_ovr (s : State) : (s.releaseToReceive).ovr = s.ovr := rfl
@[simp] theorem State.releaseToReceive_fe (s : State) : (s.releaseToReceive).fe = s.fe := rfl
@[simp] theorem State.releaseToReceive_pe (s : State) : (s.releaseToReceive).pe = s.pe := rfl
@[simp] theorem State.releaseToReceive_dor (s : State) : (s.releaseToReceive).dor = s.dor := rfl
@[simp] theorem State.releaseToReceive_cfg (s : State) : (s.releaseToReceive).cfg = s.cfg := rfl
@[simp] theorem State.releaseToReceive_gie (s : State) : (s.releaseToReceive).gie = s.gie := rfl
@[simp] theorem State.releaseToReceive_res (s : State) : (s.releaseToReceive).res = s.res := rfl
@[simp] theorem State.releaseToReceive_udr (s : State) : (s.releaseToReceive).udr = s.udr := rfl
@[simp] theorem State.releaseToReceive_tsr (s : State) : (s.releaseToReceive).tsr = s.tsr := rfl
@[simp] theorem State.releaseToReceive_txcf (s : State) : (s.releaseToReceive).txcf = s.txcf := rfl
@[simp] theorem State.releaseToReceive_rdr (s : State) : (s.releaseToReceive).rdr = s.rdr := rfl
@[simp] theorem State.releaseToReceive_wire (s : State) : (s.releaseToReceive).wire = s.wire := rfl
@[simp] theorem State.releaseToReceive_stop (s : State) : (s.releaseToReceive).stop = s.stop := rfl
@[simp] theorem State.releaseToReceive_prog (s : State) : (s.releaseToReceive).prog = s.prog := rfl
@[simp] theorem State.releaseToReceive_sched (s : State) : (s.releaseToReceive).sched = s.sched := rfl

/-! ## `State.clearSticky` -/

@[simp] theorem State.clearSticky_params (s : State) : (s.clearSticky).params = s.params := rfl
@[simp] theorem State.clearSticky_rx (s : State) : (s.clearSticky).rx = s.rx := rfl
@[simp] theorem State.clearSticky_tx (s : State) : (s.clearSticky).tx = s.tx := rfl
@[simp] theorem State.clearSticky_isOpen (s : State) : (s.clearSticky).isOpen = s.isOpen := rfl
@[simp] theorem State.clearSticky_txs (s : State) : (s.clearSticky).txs = s.txs := rfl
@[simp] theorem State.clearSticky_dir (s : State) : (s.clearSticky).dir = s.dir := rfl
@[simp] theorem State.clearSticky_ie (s : State) : (s.clearSticky).ie = s.ie := rfl
@[simp] theorem State.clearSticky_ovr (s : State) : (s.clearSticky).ovr = false := rfl
@[simp] theorem State.clearSticky_fe (s : State) : (s.clearSticky).fe = false := rfl
@[simp] theorem State.clearSticky_pe (s : State) : (s.clearSticky).pe = false := rfl
@[simp] theorem State.clearSticky_dor (s : State) : (s.clearSticky).dor = false := rfl
@[simp] theorem State.clearSticky_cfg (s : State) : (s.clearSticky).cfg = s.cfg := rfl
@[simp] theorem State.clearSticky_gie (s : State) : (s.clearSticky).gie = s.gie := rfl
@[simp] theorem State.clearSticky_res (s : State) : (s.clearSticky).res = s.res := rfl
@[simp] theorem State.clearSticky_udr (s : State) : (s.clearSticky).udr = s.udr := rfl
@[simp] theorem State.clearSticky_tsr (s : State) : (s.clearSticky).tsr = s.tsr := rfl
@[simp] theorem State.clearSticky_txcf (s : State) : (s.clearSticky).txcf = s.txcf := rfl
@[simp] theorem State.clearSticky_rdr (s : State) : (s.clearSticky).rdr = s.rdr := rfl
@[simp] theorem State.clearSticky_wire (s : State) : (s.clearSticky).wire = s.wire := rfl
@[simp] theorem State.clearSticky_stop (s : State) : (s.clearSticky).stop = s.stop := rfl
@[simp] theorem State.clearSticky_prog (s : State) : (s.clearSticky).prog = s.prog := rfl
@[simp] theorem State.clearSticky_sched (s : State) : (s.clearSticky).sched = s.sched := rfl

/-! ## `State.raiseIllegal` -/

@[simp] theorem State.raiseIllegal_params (s : State) (w : Word) : (s.raiseIllegal w).params = s.params := rfl
@[simp] theorem State.raiseIllegal_rx (s : State) (w : Word) : (s.raiseIllegal w).rx = s.rx := rfl
@[simp] theorem State.raiseIllegal_tx (s : State) (w : Word) : (s.raiseIllegal w).tx = s.tx := rfl
@[simp] theorem State.raiseIllegal_isOpen (s : State) (w : Word) : (s.raiseIllegal w).isOpen = s.isOpen := rfl
@[simp] theorem State.raiseIllegal_txs (s : State) (w : Word) : (s.raiseIllegal w).txs = s.txs := rfl
@[simp] theorem State.raiseIllegal_dir (s : State) (w : Word) : (s.raiseIllegal w).dir = s.dir := rfl
@[simp] theorem State.raiseIllegal_ie (s : State) (w : Word) : (s.raiseIllegal w).ie = s.ie := rfl
@[simp] theorem State.raiseIllegal_ovr (s : State) (w : Word) : (s.raiseIllegal w).ovr = s.ovr := rfl
@[simp] theorem State.raiseIllegal_fe (s : State) (w : Word) : (s.raiseIllegal w).fe = s.fe := rfl
@[simp] theorem State.raiseIllegal_pe (s : State) (w : Word) : (s.raiseIllegal w).pe = s.pe := rfl
@[simp] theorem State.raiseIllegal_dor (s : State) (w : Word) : (s.raiseIllegal w).dor = s.dor := rfl
@[simp] theorem State.raiseIllegal_cfg (s : State) (w : Word) : (s.raiseIllegal w).cfg = s.cfg := rfl
@[simp] theorem State.raiseIllegal_gie (s : State) (w : Word) : (s.raiseIllegal w).gie = s.gie := rfl
@[simp] theorem State.raiseIllegal_res (s : State) (w : Word) : (s.raiseIllegal w).res = s.res := rfl
@[simp] theorem State.raiseIllegal_udr (s : State) (w : Word) : (s.raiseIllegal w).udr = s.udr := rfl
@[simp] theorem State.raiseIllegal_tsr (s : State) (w : Word) : (s.raiseIllegal w).tsr = s.tsr := rfl
@[simp] theorem State.raiseIllegal_txcf (s : State) (w : Word) : (s.raiseIllegal w).txcf = s.txcf := rfl
@[simp] theorem State.raiseIllegal_rdr (s : State) (w : Word) : (s.raiseIllegal w).rdr = s.rdr := rfl
@[simp] theorem State.raiseIllegal_wire (s : State) (w : Word) : (s.raiseIllegal w).wire = s.wire := rfl
@[simp] theorem State.raiseIllegal_stop (s : State) (w : Word) : (s.raiseIllegal w).stop = .faulted .illegalCommand w := rfl
@[simp] theorem State.raiseIllegal_prog (s : State) (w : Word) : (s.raiseIllegal w).prog = s.prog := rfl
@[simp] theorem State.raiseIllegal_sched (s : State) (w : Word) : (s.raiseIllegal w).sched = s.sched := rfl

/-! ## `State.refuse` -/

@[simp] theorem State.refuse_params (s : State) (r : RefusalReason) (w : Word) : (s.refuse r w).params = s.params := rfl
@[simp] theorem State.refuse_rx (s : State) (r : RefusalReason) (w : Word) : (s.refuse r w).rx = s.rx := rfl
@[simp] theorem State.refuse_tx (s : State) (r : RefusalReason) (w : Word) : (s.refuse r w).tx = s.tx := rfl
@[simp] theorem State.refuse_isOpen (s : State) (r : RefusalReason) (w : Word) : (s.refuse r w).isOpen = s.isOpen := rfl
@[simp] theorem State.refuse_txs (s : State) (r : RefusalReason) (w : Word) : (s.refuse r w).txs = s.txs := rfl
@[simp] theorem State.refuse_dir (s : State) (r : RefusalReason) (w : Word) : (s.refuse r w).dir = s.dir := rfl
@[simp] theorem State.refuse_ie (s : State) (r : RefusalReason) (w : Word) : (s.refuse r w).ie = s.ie := rfl
@[simp] theorem State.refuse_ovr (s : State) (r : RefusalReason) (w : Word) : (s.refuse r w).ovr = s.ovr := rfl
@[simp] theorem State.refuse_fe (s : State) (r : RefusalReason) (w : Word) : (s.refuse r w).fe = s.fe := rfl
@[simp] theorem State.refuse_pe (s : State) (r : RefusalReason) (w : Word) : (s.refuse r w).pe = s.pe := rfl
@[simp] theorem State.refuse_dor (s : State) (r : RefusalReason) (w : Word) : (s.refuse r w).dor = s.dor := rfl
@[simp] theorem State.refuse_cfg (s : State) (r : RefusalReason) (w : Word) : (s.refuse r w).cfg = s.cfg := rfl
@[simp] theorem State.refuse_gie (s : State) (r : RefusalReason) (w : Word) : (s.refuse r w).gie = s.gie := rfl
@[simp] theorem State.refuse_res (s : State) (r : RefusalReason) (w : Word) : (s.refuse r w).res = s.res := rfl
@[simp] theorem State.refuse_udr (s : State) (r : RefusalReason) (w : Word) : (s.refuse r w).udr = s.udr := rfl
@[simp] theorem State.refuse_tsr (s : State) (r : RefusalReason) (w : Word) : (s.refuse r w).tsr = s.tsr := rfl
@[simp] theorem State.refuse_txcf (s : State) (r : RefusalReason) (w : Word) : (s.refuse r w).txcf = s.txcf := rfl
@[simp] theorem State.refuse_rdr (s : State) (r : RefusalReason) (w : Word) : (s.refuse r w).rdr = s.rdr := rfl
@[simp] theorem State.refuse_wire (s : State) (r : RefusalReason) (w : Word) : (s.refuse r w).wire = s.wire := rfl
@[simp] theorem State.refuse_stop (s : State) (r : RefusalReason) (w : Word) : (s.refuse r w).stop = .refused r w := rfl
@[simp] theorem State.refuse_prog (s : State) (r : RefusalReason) (w : Word) : (s.refuse r w).prog = s.prog := rfl
@[simp] theorem State.refuse_sched (s : State) (r : RefusalReason) (w : Word) : (s.refuse r w).sched = s.sched := rfl

/-! ## `State.endTurn` -/

@[simp] theorem State.endTurn_params (s : State) : (s.endTurn).params = s.params := rfl
@[simp] theorem State.endTurn_rx (s : State) : (s.endTurn).rx = s.rx := rfl
@[simp] theorem State.endTurn_tx (s : State) : (s.endTurn).tx = s.tx := rfl
@[simp] theorem State.endTurn_isOpen (s : State) : (s.endTurn).isOpen = s.isOpen := rfl
@[simp] theorem State.endTurn_txs (s : State) : (s.endTurn).txs = s.txs := rfl
@[simp] theorem State.endTurn_dir (s : State) : (s.endTurn).dir = s.dir := rfl
@[simp] theorem State.endTurn_ie (s : State) : (s.endTurn).ie = s.ie := rfl
@[simp] theorem State.endTurn_ovr (s : State) : (s.endTurn).ovr = s.ovr := rfl
@[simp] theorem State.endTurn_fe (s : State) : (s.endTurn).fe = s.fe := rfl
@[simp] theorem State.endTurn_pe (s : State) : (s.endTurn).pe = s.pe := rfl
@[simp] theorem State.endTurn_dor (s : State) : (s.endTurn).dor = s.dor := rfl
@[simp] theorem State.endTurn_cfg (s : State) : (s.endTurn).cfg = s.cfg := rfl
@[simp] theorem State.endTurn_gie (s : State) : (s.endTurn).gie = s.gie := rfl
@[simp] theorem State.endTurn_res (s : State) : (s.endTurn).res = s.res := rfl
@[simp] theorem State.endTurn_udr (s : State) : (s.endTurn).udr = s.udr := rfl
@[simp] theorem State.endTurn_tsr (s : State) : (s.endTurn).tsr = s.tsr := rfl
@[simp] theorem State.endTurn_txcf (s : State) : (s.endTurn).txcf = s.txcf := rfl
@[simp] theorem State.endTurn_rdr (s : State) : (s.endTurn).rdr = s.rdr := rfl
@[simp] theorem State.endTurn_wire (s : State) : (s.endTurn).wire = s.wire := rfl
@[simp] theorem State.endTurn_stop (s : State) : (s.endTurn).stop = s.stop := rfl
@[simp] theorem State.endTurn_prog (s : State) : (s.endTurn).prog = s.prog := rfl
@[simp] theorem State.endTurn_sched (s : State) : (s.endTurn).sched = s.sched.tail := rfl

/-! ## `State.nextCommand` -/

@[simp] theorem State.nextCommand_params (s : State) : (s.nextCommand).params = s.params := rfl
@[simp] theorem State.nextCommand_rx (s : State) : (s.nextCommand).rx = s.rx := rfl
@[simp] theorem State.nextCommand_tx (s : State) : (s.nextCommand).tx = s.tx := rfl
@[simp] theorem State.nextCommand_isOpen (s : State) : (s.nextCommand).isOpen = s.isOpen := rfl
@[simp] theorem State.nextCommand_txs (s : State) : (s.nextCommand).txs = s.txs := rfl
@[simp] theorem State.nextCommand_dir (s : State) : (s.nextCommand).dir = s.dir := rfl
@[simp] theorem State.nextCommand_ie (s : State) : (s.nextCommand).ie = s.ie := rfl
@[simp] theorem State.nextCommand_ovr (s : State) : (s.nextCommand).ovr = s.ovr := rfl
@[simp] theorem State.nextCommand_fe (s : State) : (s.nextCommand).fe = s.fe := rfl
@[simp] theorem State.nextCommand_pe (s : State) : (s.nextCommand).pe = s.pe := rfl
@[simp] theorem State.nextCommand_dor (s : State) : (s.nextCommand).dor = s.dor := rfl
@[simp] theorem State.nextCommand_cfg (s : State) : (s.nextCommand).cfg = s.cfg := rfl
@[simp] theorem State.nextCommand_gie (s : State) : (s.nextCommand).gie = s.gie := rfl
@[simp] theorem State.nextCommand_res (s : State) : (s.nextCommand).res = s.res := rfl
@[simp] theorem State.nextCommand_udr (s : State) : (s.nextCommand).udr = s.udr := rfl
@[simp] theorem State.nextCommand_tsr (s : State) : (s.nextCommand).tsr = s.tsr := rfl
@[simp] theorem State.nextCommand_txcf (s : State) : (s.nextCommand).txcf = s.txcf := rfl
@[simp] theorem State.nextCommand_rdr (s : State) : (s.nextCommand).rdr = s.rdr := rfl
@[simp] theorem State.nextCommand_wire (s : State) : (s.nextCommand).wire = s.wire := rfl
@[simp] theorem State.nextCommand_stop (s : State) : (s.nextCommand).stop = s.stop := rfl
@[simp] theorem State.nextCommand_prog (s : State) : (s.nextCommand).prog = s.prog.tail := rfl
@[simp] theorem State.nextCommand_sched (s : State) : (s.nextCommand).sched = s.sched := rfl

/-! ## Entering and leaving a vector -/

@[simp] theorem State.enterVector_params (s : State) (v : IrqVector) : (s.enterVector v).params = s.params := by cases v <;> rfl
@[simp] theorem State.enterVector_rx (s : State) (v : IrqVector) : (s.enterVector v).rx = s.rx := by cases v <;> rfl
@[simp] theorem State.enterVector_tx (s : State) (v : IrqVector) : (s.enterVector v).tx = s.tx := by cases v <;> rfl
@[simp] theorem State.enterVector_isOpen (s : State) (v : IrqVector) : (s.enterVector v).isOpen = s.isOpen := by cases v <;> rfl
@[simp] theorem State.enterVector_txs (s : State) (v : IrqVector) : (s.enterVector v).txs = s.txs := by cases v <;> rfl
@[simp] theorem State.enterVector_dir (s : State) (v : IrqVector) : (s.enterVector v).dir = s.dir := by cases v <;> rfl
@[simp] theorem State.enterVector_ie (s : State) (v : IrqVector) : (s.enterVector v).ie = s.ie := by cases v <;> rfl
@[simp] theorem State.enterVector_ovr (s : State) (v : IrqVector) : (s.enterVector v).ovr = s.ovr := by cases v <;> rfl
@[simp] theorem State.enterVector_fe (s : State) (v : IrqVector) : (s.enterVector v).fe = s.fe := by cases v <;> rfl
@[simp] theorem State.enterVector_pe (s : State) (v : IrqVector) : (s.enterVector v).pe = s.pe := by cases v <;> rfl
@[simp] theorem State.enterVector_dor (s : State) (v : IrqVector) : (s.enterVector v).dor = s.dor := by cases v <;> rfl
@[simp] theorem State.enterVector_cfg (s : State) (v : IrqVector) : (s.enterVector v).cfg = s.cfg := by cases v <;> rfl
@[simp] theorem State.enterVector_gie (s : State) (v : IrqVector) : (s.enterVector v).gie = s.gie := by cases v <;> rfl
@[simp] theorem State.enterVector_res (s : State) (v : IrqVector) : (s.enterVector v).res = s.res := by cases v <;> rfl
@[simp] theorem State.enterVector_udr (s : State) (v : IrqVector) : (s.enterVector v).udr = s.udr := by cases v <;> rfl
@[simp] theorem State.enterVector_tsr (s : State) (v : IrqVector) : (s.enterVector v).tsr = s.tsr := by cases v <;> rfl
@[simp] theorem State.enterVector_rdr (s : State) (v : IrqVector) : (s.enterVector v).rdr = s.rdr := by cases v <;> rfl
@[simp] theorem State.enterVector_wire (s : State) (v : IrqVector) : (s.enterVector v).wire = s.wire := by cases v <;> rfl
@[simp] theorem State.enterVector_stop (s : State) (v : IrqVector) : (s.enterVector v).stop = s.stop := by cases v <;> rfl
@[simp] theorem State.enterVector_prog (s : State) (v : IrqVector) : (s.enterVector v).prog = s.prog := by cases v <;> rfl
@[simp] theorem State.enterVector_sched (s : State) (v : IrqVector) : (s.enterVector v).sched = s.sched := by cases v <;> rfl
@[simp] theorem State.enterVector_rxc (s : State) : s.enterVector .rxc = s := rfl
@[simp] theorem State.enterVector_dre (s : State) : s.enterVector .dre = s := rfl
@[simp] theorem State.enterVector_txc_txcf (s : State) : (s.enterVector .txc).txcf = false := rfl
@[simp] theorem State.leaveVector_eq (s : State) : s.leaveVector = s := rfl

end Sys2Proof.Machine
end

