-- ==== Sys2Proof/Laws/Exec.lean ====
section
/-! SUPPORT. What `attempt`, `exec` and `step` can do, said once. -/

namespace Sys2Proof.Machine

/-! ## Running and stopped -/

@[simp] theorem State.whenRunning_next {s t : State} {o : Host.Outcome State Fault Refusal} :
    s.whenRunning o = .next t ↔ s.stop = .running ∧ o = .next t := by
  unfold State.whenRunning
  split <;> simp_all

theorem State.whenRunning_running {s : State} {o : Host.Outcome State Fault Refusal} (h : s.stop = .running) :
    s.whenRunning o = o := by simp [State.whenRunning, h]

theorem State.enabled_iff {s : State} {i : Instr} :
    s.enabled i = true ↔ s.stop = .running ∧ s.holds i = false ∧ s.ready i = true := by
  simp [State.enabled, and_assoc]

/-- Everything `attempt` can do when it answers a next state: the command is held and nothing changes, or the operation is enabled
and has its effect. -/
theorem State.attempt_next {s t u : State} {i : Instr} :
    s.attempt i t = .next u ↔
      s.stop = .running ∧ (s.holds i = true ∧ u = s ∨ s.holds i = false ∧ s.ready i = true ∧ u = t) := by
  unfold State.attempt
  rw [State.whenRunning_next]
  refine and_congr_right fun _ => ?_
  cases s.holds i <;> cases s.ready i <;> simp [@eq_comm State _ u]

theorem State.attempt_enabled {s t : State} {i : Instr} (h : s.enabled i = true) : s.attempt i t = .next t := by
  obtain ⟨h1, h2, h3⟩ := State.enabled_iff.mp h
  exact State.attempt_next.mpr ⟨h1, .inr ⟨h2, h3, rfl⟩⟩

theorem State.attempt_held {s t : State} {i : Instr} (h1 : s.stop = .running) (h2 : s.holds i = true) :
    s.attempt i t = .next s :=
  State.attempt_next.mpr ⟨h1, .inl ⟨h2, rfl⟩⟩

theorem State.attempt_notEnabled {s t : State} {i : Instr} (h1 : s.stop = .running) (h2 : s.holds i = false)
    (h3 : s.ready i = false) : s.attempt i t = .refused .notEnabled := by
  simp [State.attempt, State.whenRunning, h1, h2, h3]

/-! ## The effect of an operation -/

/-- The state an operation leaves when it is performed. -/
def effectOf (i : Instr) (s : State) : State :=
  match i with
  | .openUart baud p st d =>
    match dataBitsToFrame d with
    | some f => openEffect baud p st f s
    | none => s.refuse .nineBitData (encode (.openUart baud p st d))
  | .close => closeEffect s
  | .write v => writeEffect v s
  | .tryWrite v => tryWriteEffect v s
  | .read => { s with rx := (s.rx.pop s.params.rxCap).2, res := byteResult (s.rx.pop s.params.rxCap).1 }
  | .peek => { s with res := byteResult s.rx.peek }
  | .available => { s with res := countResult (s.rx.len s.params.rxCap) }
  | .flush => s
  | .status => { s.clearSticky with res := statusResult s.statusByte }
  | .csEnter => { s with gie := false }
  | .csExit => { s with gie := true }
  | .isrRxc => receiveComplete s
  | .isrDre => dataRegisterEmpty s
  | .isrTxc => transmitComplete (s.enterVector .txc)
  | .uartRx b fe pe => frameArrives b fe pe s
  | .uartTxLoad => loadShiftRegister s
  | .uartTxDone => frameLeaves s

/-- Every meaning is an attempt of its own effect. -/
theorem exec_eq_attempt (i : Instr) (s : State) : exec i s = s.attempt i (effectOf i s) := by
  cases i with
  | openUart baud p st d => cases d <;> rfl
  | _ => rfl

/-- Everything `exec` can do when it answers a next state. -/
theorem exec_next {i : Instr} {s t : State} :
    exec i s = .next t ↔
      s.stop = .running ∧ (s.holds i = true ∧ t = s ∨ s.holds i = false ∧ s.ready i = true ∧ t = effectOf i s) := by
  rw [exec_eq_attempt, State.attempt_next]

theorem exec_enabled {i : Instr} {s : State} (h : s.enabled i = true) : exec i s = .next (effectOf i s) := by
  rw [exec_eq_attempt, State.attempt_enabled h]

/-- An agent's step has the effect of its operation. -/
theorem AgentStep.effect {i : Instr} {s t : State} (h : AgentStep i s t) :
    i.wellFormed = true ∧ s.stop = .running ∧ s.holds i = false ∧ s.ready i = true ∧ t = effectOf i s := by
  obtain ⟨hw, he, hx⟩ := h
  have := exec_enabled he
  rw [hx] at this
  obtain ⟨h1, h2, h3⟩ := State.enabled_iff.mp he
  exact ⟨hw, h1, h2, h3, by simpa using this⟩

/-! ## The step -/

/-- Everything a step can do when it answers a next state. -/
theorem step_next {s t : State} (h : step s = .next t) :
    (∃ program, s.request = .reset program ∧ t = s.applyReset program) ∨
    (s.request = .idle ∧ s.stop = .running ∧ t = s.endTurn) ∨
    (∃ p w, s.request = .word p w ∧ legalOn p w = none ∧ s.stop = .running ∧ t = (s.takeWord p).raiseIllegal w) ∨
    (∃ p w i, s.request = .word p w ∧ legalOn p w = some i ∧ exec i (s.fetched i) = .next t) := by
  unfold step at h
  split at h
  · next program hr => exact .inl ⟨program, hr, by simpa using h.symm⟩
  · next hr =>
    obtain ⟨h1, h2⟩ := State.whenRunning_next.mp h
    exact .inr (.inl ⟨hr, h1, by simpa using h2.symm⟩)
  · next p w hr =>
    split at h
    · next hl =>
      obtain ⟨h1, h2⟩ := State.whenRunning_next.mp h
      exact .inr (.inr (.inl ⟨p, w, hr, hl, h1, by simpa using h2.symm⟩))
    · next i hl => exact .inr (.inr (.inr ⟨p, w, i, hr, hl, h⟩))

end Sys2Proof.Machine
end

