-- ==== Sys2Proof/Laws/Ops.lean ====
section
/-! SUPPORT. What each shared operation under the meanings can do, case by case: the receive push (R105), the accepting path of WRITE
and TRYWRITE (R158, R160), the handlers' bodies, the UART's effects; and that no effect reads or writes the model's own inputs. -/

namespace Sys2Proof.Machine

/-! ## push_rx (R105) -/

theorem State.pushRx_room {s : State} (b : Byte) (h : s.rx.isFull s.params.rxCap = false) :
    s.pushRx b = { s with rx := (s.rx.push s.params.rxCap b).2 } := by simp [State.pushRx, h]

theorem State.pushRx_dropNewest {s : State} (b : Byte) (h : s.rx.isFull s.params.rxCap = true)
    (hp : s.params.rxOverrunPolicy = .dropNewest) : s.pushRx b = { s with ovr := true } := by simp [State.pushRx, h, hp]

theorem State.pushRx_overwriteOldest {s : State} (b : Byte) (h : s.rx.isFull s.params.rxCap = true)
    (hp : s.params.rxOverrunPolicy = .overwriteOldest) :
    s.pushRx b = { s with ovr := true, rx := ((s.rx.dropOldest s.params.rxCap).push s.params.rxCap b).2 } := by
  simp [State.pushRx, h, hp]

/-! ## The accepting path (R158, R160) -/

theorem State.acceptByte_idle {s : State} (v : Byte) (h : s.txs = .idle) :
    s.acceptByte v =
      { s with
        tx := (s.tx.push s.params.txCap v).2
        dir := .transmit
        ie := { rxcie := s.ie.rxcie, dreie := true, txcie := false }
        txs := .sending
        res := 1 } := by
  simp [State.acceptByte, State.startBurst, State.assertTransmit, h]

theorem State.acceptByte_sending {s : State} (v : Byte) (h : s.txs = .sending) :
    s.acceptByte v = { s with tx := (s.tx.push s.params.txCap v).2, res := 1 } := by
  simp [State.acceptByte, State.startBurst, h]

theorem State.acceptByte_draining {s : State} (v : Byte) (h : s.txs = .draining) :
    s.acceptByte v =
      { s with
        tx := (s.tx.push s.params.txCap v).2
        ie := { rxcie := s.ie.rxcie, dreie := true, txcie := false }
        txs := .sending
        res := 1 } := by
  simp [State.acceptByte, State.startBurst, h]

/-- What an accepted byte leaves, whatever the transmit state. -/
@[simp] theorem State.acceptByte_isOpen (s : State) (v : Byte) : (s.acceptByte v).isOpen = s.isOpen := by
  cases h : s.txs <;> simp [State.acceptByte, State.startBurst, h]

@[simp] theorem State.acceptByte_params (s : State) (v : Byte) : (s.acceptByte v).params = s.params := by
  cases h : s.txs <;> simp [State.acceptByte, State.startBurst, h]

@[simp] theorem State.acceptByte_stop (s : State) (v : Byte) : (s.acceptByte v).stop = s.stop := by
  cases h : s.txs <;> simp [State.acceptByte, State.startBurst, h]

@[simp] theorem State.acceptByte_res (s : State) (v : Byte) : (s.acceptByte v).res = 1 := rfl

@[simp] theorem State.acceptByte_tx (s : State) (v : Byte) : (s.acceptByte v).tx = (s.tx.push s.params.txCap v).2 := by
  cases h : s.txs <;> simp [State.acceptByte, State.startBurst, h]

/-! ## The handlers' bodies (R131, R132) and the UART's effects (R190 to R192) -/

theorem receiveComplete_frame {s : State} {f : RxFrame} (h : s.rdr = some f) :
    receiveComplete s = ({ s with rdr := none, fe := s.fe || f.fe, pe := s.pe || f.pe }).pushRx f.b := by
  simp [receiveComplete, h]

theorem dataRegisterEmpty_byte {s : State} (h : s.tx.isEmpty = false) :
    dataRegisterEmpty s =
      { s with
        tx := { s.tx with head := Ring.adv s.params.txCap s.tx.head }
        udr := some (Memory.read s.tx.store s.tx.head)
        txcf := false } := by
  simp [dataRegisterEmpty, Ring.pop_nonempty h]

theorem dataRegisterEmpty_empty {s : State} (h : s.tx.isEmpty = true) :
    dataRegisterEmpty s =
      { s with ie := { rxcie := s.ie.rxcie, dreie := false, txcie := true }, txs := .draining } := by
  simp [dataRegisterEmpty, Ring.pop_empty h]

theorem frameArrives_closed {s : State} (b : Byte) (fe pe : Bool) (h : s.isOpen = false) : frameArrives b fe pe s = s := by
  simp [frameArrives, h]

theorem frameArrives_lost {s : State} {f : RxFrame} (b : Byte) (fe pe : Bool) (h : s.isOpen = true) (hr : s.rdr = some f) :
    frameArrives b fe pe s = { s with dor := true } := by
  simp [frameArrives, h, hr]

theorem frameArrives_taken {s : State} (b : Byte) (fe pe : Bool) (h : s.isOpen = true) (hr : s.rdr = none) :
    frameArrives b fe pe s = { s with rdr := some (receivedFrame s.cfg b fe pe) } := by
  simp [frameArrives, h, hr]

theorem loadShiftRegister_byte {s : State} {b : Byte} (h : s.udr = some b) :
    loadShiftRegister s = { s with tsr := some { b := b, deStart := s.dir }, udr := none } := by
  simp [loadShiftRegister, h]

theorem frameLeaves_entry {s : State} {e : ShiftEntry} (h : s.tsr = some e) :
    frameLeaves s =
      { s with
        wire := s.wire ++ [{ b := onWire s.cfg e.b, deStart := e.deStart, deEnd := s.dir }]
        tsr := none
        txcf := if s.udr.isNone then true else s.txcf } := by
  simp [frameLeaves, h]

/-- Masking a masked byte changes nothing (R193). -/
theorem onWire_onWire (c : FrameConfig) (b : Byte) : onWire c (onWire c b) = onWire c b := by
  simp [onWire, BitVec.and_assoc]

/-! ## The model's own inputs -/

/-- The same block with another host program and another schedule. -/
def State.withInputs (s : State) (p : List Word) (q : List Turn) : State := { s with prog := p, sched := q }

@[simp] theorem State.withInputs_self (s : State) : s.withInputs s.prog s.sched = s := rfl

@[simp] theorem State.holds_withInputs (s : State) (p : List Word) (q : List Turn) (i : Instr) :
    (s.withInputs p q).holds i = s.holds i := by cases i <;> rfl

@[simp] theorem State.ready_withInputs (s : State) (p : List Word) (q : List Turn) (i : Instr) :
    (s.withInputs p q).ready i = s.ready i := by cases i <;> rfl

@[simp] theorem State.enabled_withInputs (s : State) (p : List Word) (q : List Turn) (i : Instr) :
    (s.withInputs p q).enabled i = s.enabled i := by cases i <;> rfl

@[simp] theorem State.inv_withInputs (s : State) (p : List Word) (q : List Turn) : (s.withInputs p q).inv = s.inv := rfl

theorem State.pushRx_withInputs (s : State) (b : Byte) (p : List Word) (q : List Turn) :
    (s.withInputs p q).pushRx b = (s.pushRx b).withInputs p q := by
  cases h : s.rx.isFull s.params.rxCap <;> cases hp : s.params.rxOverrunPolicy <;> simp [State.pushRx, State.withInputs, h, hp]

theorem State.acceptByte_withInputs (s : State) (v : Byte) (p : List Word) (q : List Turn) :
    (s.withInputs p q).acceptByte v = (s.acceptByte v).withInputs p q := by
  cases h : s.txs <;> simp [State.acceptByte, State.startBurst, State.assertTransmit, State.withInputs, h]

/-- No effect reads or writes the host's program or the schedule: they are no part of the block (R20, log 3). -/
theorem effectOf_withInputs (i : Instr) (s : State) (p : List Word) (q : List Turn) :
    effectOf i (s.withInputs p q) = (effectOf i s).withInputs p q := by
  cases i with
  | openUart baud pa st d => cases d <;> rfl
  | write v =>
    have := State.acceptByte_withInputs s v p q
    cases h : s.isOpen <;> simp_all [effectOf, writeEffect, State.withInputs]
  | tryWrite v =>
    have := State.acceptByte_withInputs s v p q
    cases h : s.isOpen <;> cases h2 : s.txFull <;> simp_all [effectOf, tryWriteEffect, State.withInputs, State.txFull]
  | isrRxc =>
    cases h : s.rdr with
    | none => simp [effectOf, receiveComplete, State.withInputs, h]
    | some f =>
      simpa [effectOf, receiveComplete, State.withInputs, h] using
        State.pushRx_withInputs { s with rdr := none, fe := s.fe || f.fe, pe := s.pe || f.pe } f.b p q
  | isrDre =>
    cases h : s.tx.pop s.params.txCap with
    | mk a r => cases a <;> simp [effectOf, dataRegisterEmpty, State.withInputs, h]
  | uartRx b fe pe => cases h : s.isOpen <;> cases hr : s.rdr <;> simp [effectOf, frameArrives, State.withInputs, h, hr]
  | uartTxLoad => cases h : s.udr <;> simp [effectOf, loadShiftRegister, State.withInputs, h]
  | uartTxDone => cases h : s.tsr <;> simp [effectOf, frameLeaves, State.withInputs, h]
  | _ => rfl

/-- An effect keeps the program and the schedule. -/
theorem effectOf_inputs (i : Instr) (s : State) : (effectOf i s).prog = s.prog ∧ (effectOf i s).sched = s.sched := by
  have h := effectOf_withInputs i s s.prog s.sched
  rw [State.withInputs_self] at h
  exact ⟨by rw [h]; rfl, by rw [h]; rfl⟩

/-- Performing an enabled operation under other inputs leaves the same block under those inputs. -/
theorem exec_withInputs {i : Instr} {s t : State} (h : s.enabled i = true) (ht : exec i s = .next t) (p : List Word)
    (q : List Turn) : exec i (s.withInputs p q) = .next (t.withInputs p q) := by
  rw [exec_enabled (by simpa using h), effectOf_withInputs]
  rw [exec_enabled h] at ht
  rw [Host.Outcome.next.inj ht]

end Sys2Proof.Machine
end

