-- ==== Sys2Proof/Laws/PerInstr.lean ====
section
/-! SUPPORT. One statement about every operation as syntax: its word has its row's match bits under its row's mask (R77), and its
opcode names its own port (R84). -/

namespace Sys2Proof.Laws.RowOfWord

/-- The word of an operation fits its own row of the opcode map, and names its own port. -/
def Statement (i : Instr) : Prop := encode i &&& i.maskBits = i.matchBits ∧ portOfWord (encode i) = i.port

theorem openUart (baud : BitVec 22) (parity : Parity) (stop : StopBits) (dbits : DataBits) :
    Statement (.openUart baud parity stop dbits) := by
  have h : ∀ (p : BitVec 2) (s : BitVec 1) (d : BitVec 3), formatO baud p s d &&& 0xF0000000#32 = 0x10000000#32 := by
    intro p s d
    refine BitVec.eq_of_getElem_eq fun i hi => ?_
    simp only [formatO, BitVec.getElem_and, BitVec.getElem_append]
    interval_cases i <;> simp
  have o : ∀ (p : BitVec 2) (s : BitVec 1) (d : BitVec 3), opcode (formatO baud p s d) = 0x1#4 := by
    intro p s d
    refine BitVec.eq_of_getElem_eq fun i hi => ?_
    simp only [formatO, opcode, BitVec.getElem_extractLsb', BitVec.getLsbD_append]
    interval_cases i <;> simp
  exact ⟨h _ _ _, by simp [portOfWord, encode, o, Instr.port]⟩

theorem close : Statement .close := by unfold Statement; decide

theorem write (v : Byte) : Statement (.write v) := by revert v; unfold Statement; decide

theorem tryWrite (v : Byte) : Statement (.tryWrite v) := by revert v; unfold Statement; decide

theorem read : Statement .read := by unfold Statement; decide

theorem peek : Statement .peek := by unfold Statement; decide

theorem available : Statement .available := by unfold Statement; decide

theorem flush : Statement .flush := by unfold Statement; decide

theorem status : Statement .status := by unfold Statement; decide

theorem csEnter : Statement .csEnter := by unfold Statement; decide

theorem csExit : Statement .csExit := by unfold Statement; decide

theorem isrRxc : Statement .isrRxc := by unfold Statement; decide

theorem isrDre : Statement .isrDre := by unfold Statement; decide

theorem isrTxc : Statement .isrTxc := by unfold Statement; decide

theorem uartRx (b : Byte) (fe pe : Bool) : Statement (.uartRx b fe pe) := by revert b; unfold Statement; cases fe <;> cases pe <;> decide

theorem uartTxLoad : Statement .uartTxLoad := by unfold Statement; decide

theorem uartTxDone : Statement .uartTxDone := by unfold Statement; decide

end Sys2Proof.Laws.RowOfWord
end

