-- ==== Sys2Proof/Laws/Ports.lean ====
section
/-! SUPPORT. The ports and the steps: what a port accepts, how an offered word is taken, and one step of a run. -/

namespace Sys2Proof.Machine

/-- A port performs exactly the legal words of its own opcodes (R83, R84). -/
theorem legalOn_some {p : Port} {w : Word} {i : Instr} : legalOn p w = some i ↔ decode w = .op i ∧ i.port = p := by
  unfold legalOn
  split
  · next j hj =>
    simp only [hj, Decoded.op.injEq]
    split
    · next h => exact ⟨fun e => ⟨Option.some.inj e, Option.some.inj e ▸ h⟩, fun e => congrArg some e.1⟩
    · next h => simp; rintro rfl; exact h
  · next r hr => simp [hr]

theorem legalOn_none {p : Port} {w : Word} : legalOn p w = none ↔ ∀ i, decode w = .op i → i.port ≠ p := by
  constructor
  · intro h i hi hp
    rw [legalOn_some.mpr ⟨hi, hp⟩] at h
    simp at h
  · intro h
    cases hl : legalOn p w with
    | none => rfl
    | some i => exact absurd (legalOn_some.mp hl).2 (h i (legalOn_some.mp hl).1)

/-- An offered word is what the next step finds to do. -/
theorem State.request_offer (s : State) (w : Word) : (s.offer w).request = .word (portOfWord w) w := by
  unfold State.offer
  split <;> simp [State.request, *]

/-- Taking an offered word leaves the state it was offered to. -/
theorem State.takeWord_offer (s : State) (w : Word) : (s.offer w).takeWord (portOfWord w) = s := by
  unfold State.offer
  split <;> simp [State.takeWord, State.endTurn, State.nextCommand, *]

@[simp] theorem State.holds_offer (s : State) (w : Word) (i : Instr) : (s.offer w).holds i = s.holds i := by
  unfold State.offer
  split <;> cases i <;> rfl

@[simp] theorem State.stop_offer (s : State) (w : Word) : (s.offer w).stop = s.stop := by
  unfold State.offer
  split <;> rfl

/-- The state in which an operation is performed differs from the state before the step in the inputs only. -/
theorem State.fetched_inputs (s : State) (i : Instr) : ∃ p q, s.fetched i = s.withInputs p q := by
  unfold State.fetched
  split
  · exact ⟨_, _, rfl⟩
  · unfold State.takeWord
    split <;> exact ⟨_, _, rfl⟩

/-- One step of a run. -/
theorem run_next {M : Host.Core} {k : Nat} {s t : M.State} (h : M.step s = .next t) : M.run (k + 1) s = M.run k t := by
  simp [Host.Core.run, h]

end Sys2Proof.Machine
end

