-- ==== Sys2Proof/Laws/Script.lean ====
section
/-! SUPPORT. Scripts and list calls: what one word of a script can do, what other agents leave alone, and the calls in which no other
agent steps. -/

namespace Sys2Proof.Machine

/-- Everything a word of a script can do: it is illegal or foreign and faults, or it is an enabled operation and has its effect. -/
theorem performWord_some {s t : State} {w : Word} :
    s.performWord w = some t ↔
      s.stop = .running ∧
        (legalOn (portOfWord w) w = none ∧ t = s.raiseIllegal w ∨
          ∃ i, legalOn (portOfWord w) w = some i ∧ s.enabled i = true ∧ t = effectOf i s) := by
  unfold State.performWord
  by_cases hs : s.stop = .running
  · rw [if_pos hs]
    cases hl : legalOn (portOfWord w) w with
    | none =>
      constructor
      · intro h
        exact ⟨hs, .inl ⟨rfl, (Option.some.inj h).symm⟩⟩
      · rintro ⟨-, ⟨-, rfl⟩ | ⟨i, h, -⟩⟩
        · rfl
        · cases h
    | some i =>
      cases he : s.enabled i
      · constructor
        · intro h
          simp [he] at h
        · rintro ⟨-, ⟨h, -⟩ | ⟨j, h, hj, -⟩⟩
          · cases h
          · cases h
            rw [he] at hj
            cases hj
      · simp only [he, if_true, exec_enabled he]
        constructor
        · intro h
          exact ⟨hs, .inr ⟨i, rfl, he, (Option.some.inj h).symm⟩⟩
        · rintro ⟨-, ⟨h, -⟩ | ⟨j, h, -, rfl⟩⟩
          · cases h
          · cases h
            rfl
  · rw [if_neg hs]
    exact ⟨fun h => (by cases h), fun h => absurd h.1 hs⟩

theorem runScript_cons {s t u : State} {w : Word} {ws : List Word} (h : s.performWord w = some t) (h2 : t.runScript ws = some u) :
    s.runScript (w :: ws) = some u := by simp [State.runScript, h, h2]

/-- What no step of the interrupt unit or the UART writes. -/
theorem effectOf_otherAgent {i : Instr} (s : State) (h : i.port ≠ .host) :
    (effectOf i s).isOpen = s.isOpen ∧ (effectOf i s).cfg = s.cfg ∧ (effectOf i s).params = s.params ∧
      (effectOf i s).gie = s.gie ∧ (effectOf i s).res = s.res ∧ (effectOf i s).stop = s.stop := by
  cases i <;> simp [Instr.port] at h <;>
    simp only [effectOf, receiveComplete, State.pushRx, dataRegisterEmpty, transmitComplete, State.enterVector,
      State.releaseToReceive, frameArrives, loadShiftRegister, frameLeaves] <;>
    (repeat' split) <;> simp

/-- What a word another agent performs leaves of what a list call rests on: the instance stays open or closed, and the TX ring gets no
fuller. -/
theorem performWord_otherAgent {s t : State} {w : Word} (h : s.performWord w = some t) (hp : portOfWord w ≠ .host) :
    t.isOpen = s.isOpen ∧ t.params = s.params ∧
      (s.tx.wf s.params.txCap = true →
        t.tx.wf s.params.txCap = true ∧ t.tx.count s.params.txCap ≤ s.tx.count s.params.txCap) := by
  obtain ⟨-, ⟨-, rfl⟩ | ⟨i, hl, -, rfl⟩⟩ := performWord_some.mp h
  · exact ⟨rfl, rfl, fun h => ⟨h, Nat.le_refl _⟩⟩
  · have hport : i.port ≠ .host := by rw [(legalOn_some.mp hl).2]; exact hp
    obtain ⟨h1, -, h3, -⟩ := effectOf_otherAgent s hport
    refine ⟨h1, h3, fun hw => ?_⟩
    cases i <;> simp [Instr.port] at hport
    case isrDre =>
      simp only [effectOf, dataRegisterEmpty]
      have a := Ring.wf_pop hw
      have b := congrArg List.length (Ring.pop_contents hw).2
      simp at b
      split
      · next x r e =>
        rw [e] at a b
        exact ⟨a, by simp at b ⊢; omega⟩
      · exact ⟨hw, Nat.le_refl _⟩
    all_goals
      simp only [effectOf, receiveComplete, State.pushRx, transmitComplete, State.enterVector, State.releaseToReceive, frameArrives,
        loadShiftRegister, frameLeaves]
      (repeat' split) <;> exact ⟨hw, Nat.le_refl _⟩

/-- The word of a WRITE or a TRYWRITE is that operation's, on the host's port. -/
theorem legalOn_write (b : Byte) :
    legalOn (portOfWord (encode (.write b))) (encode (.write b)) = some (.write b) ∧ portOfWord (encode (.write b)) = .host := by
  revert b
  decide

theorem legalOn_tryWrite (b : Byte) :
    legalOn (portOfWord (encode (.tryWrite b))) (encode (.tryWrite b)) = some (.tryWrite b) ∧
      portOfWord (encode (.tryWrite b)) = .host := by
  revert b
  decide

/-- A TRYWRITE is an enabled step of every running state, and leaves it running. -/
theorem enabled_tryWrite {s : State} (b : Byte) (h : s.stop = .running) : s.enabled (.tryWrite b) = true :=
  State.enabled_iff.mpr ⟨h, rfl, rfl⟩

theorem tryWriteEffect_stop (v : Byte) (s : State) : (tryWriteEffect v s).stop = s.stop := by
  unfold tryWriteEffect
  split
  · rfl
  · simp

/-- `writeList` is `writeRun` on the script of its own WRITEs. -/
theorem writeList_run {bs : List Byte} {s u : State} {k : Nat} (h : s.writeList bs = some (k, u)) :
    s.writeRun bs (bs.map fun b => encode (.write b)) = some (k, u) := by
  unfold State.writeRun
  induction bs generalizing s k u with
  | nil => simpa [State.listCall, State.writeList] using h
  | cons b bs ih =>
    simp only [State.writeList] at h
    split at h
    · next he =>
      rw [exec_enabled he] at h
      cases hr : (effectOf (.write b) s).writeList bs with
      | none => simp [hr] at h
      | some r =>
        have hp : s.performWord (encode (.write b)) = some (effectOf (.write b) s) :=
          performWord_some.mpr ⟨(State.enabled_iff.mp he).1, .inr ⟨_, (legalOn_write b).1, he, rfl⟩⟩
        simp only [List.map_cons, State.listCall, hp, (legalOn_write b).2, ih (k := r.1) (u := r.2) hr]
        simpa [hr] using h
    · simp at h

/-- `tryWriteList` is `tryWriteRun` on some script. -/
theorem tryWriteList_run (bs : List Byte) {s : State} (h : s.stop = .running) :
    ∃ ws, s.tryWriteRun bs ws = some (s.tryWriteList bs) := by
  unfold State.tryWriteRun
  induction bs generalizing s with
  | nil => exact ⟨[], rfl⟩
  | cons b bs ih =>
    have he := enabled_tryWrite b h
    have hp : s.performWord (encode (.tryWrite b)) = some (effectOf (.tryWrite b) s) :=
      performWord_some.mpr ⟨h, .inr ⟨_, (legalOn_tryWrite b).1, he, rfl⟩⟩
    simp only [State.tryWriteList, exec_enabled he]
    by_cases hz : (effectOf (.tryWrite b) s).res = 0
    · exact ⟨[encode (.tryWrite b)], by simp [State.listCall, hp, (legalOn_tryWrite b).2, hz]⟩
    · obtain ⟨ws, hw⟩ := ih (s := effectOf (.tryWrite b) s) (by simpa [effectOf, tryWriteEffect_stop] using h)
      refine ⟨encode (.tryWrite b) :: ws, ?_⟩
      have h1 : (effectOf (.tryWrite b) s).res = 1 := by
        simp only [effectOf, tryWriteEffect] at hz ⊢
        split at hz
        · exact absurd rfl hz
        · next hc => simp [hc]
      simp [State.listCall, hp, (legalOn_tryWrite b).2, h1, hw, Nat.add_comm]

end Sys2Proof.Machine
end

