-- ==== Sys2Proof/Tests/Slice0.lean ====
section
/-! SUPPORT. Tests on fixed values, from the vectors of spec/95_test_vectors.md, and one witness for each statement with
hypotheses. -/

namespace Sys2Proof.Tests

open Sys2Proof Sys2Proof.Machine

/-! ## Small states -/

/-- The state after reset with both capacities `cap`. -/
def fresh (cap : Nat) : State :=
  State.resetWith { rxCap := cap, txCap := cap, rxOverrunPolicy := .dropNewest, deActiveHigh := true }

/-- `s` under the other overrun policy. -/
def overwriting (s : State) : State := { s with params := { s.params with rxOverrunPolicy := .overwriteOldest } }

/-- A ring of `n` slots with head `h` and these bytes. -/
def ringOf (n h : Nat) (bs : List Byte) : Ring := (({ store := [], head := h, tail := h } : Ring).pushAll n bs).2

/-- Open at 9600, 8N1, and Idle. -/
def opened (cap : Nat) : State :=
  { fresh cap with
    isOpen := true
    ie := { rxcie := true, dreie := false, txcie := false }
    cfg := { baud := 9600, parity := .none, stop := .one, dbits := .eight } }

/-- Open and Sending, with these bytes in the TX ring. -/
def sending (cap : Nat) (bs : List Byte) : State :=
  { opened cap with
    txs := .sending
    dir := .transmit
    ie := { rxcie := true, dreie := true, txcie := false }
    tx := ringOf cap 0 bs }

/-- Open and Draining, with the last byte gone and the transmit-complete condition set. -/
def draining (cap : Nat) : State :=
  { opened cap with txs := .draining, dir := .transmit, ie := { rxcie := true, dreie := false, txcie := true }, txcf := true }

/-- Open, with these bytes in the RX ring. -/
def holding (cap : Nat) (bs : List Byte) : State := { opened cap with rx := ringOf cap 0 bs }

/-- The next state of an outcome, if it is one. -/
def nextOf (o : Host.Outcome State Fault Refusal) : Option State :=
  match o with
  | .next t => some t
  | .fault _ => none
  | .refused _ => none

theorem eq_of_nextOf {o : Host.Outcome State Fault Refusal} {t : State} (h : nextOf o = some t) : o = .next t := by
  unfold nextOf at h
  split at h
  · rw [Option.some.inj h]
  · simp at h
  · simp at h

/-- A frame waiting in the receive data register. -/
def frame (b : Byte) (fe pe : Bool) : Option RxFrame := some { b := b, fe := fe, pe := pe }

/-! ## Well-formedness and decoding (V-DEC, R83) -/

theorem test_illFormed_baud0 : (Instr.openUart 0 .none .one .eight).wellFormed = false := by decide

theorem test_wellFormed_baud_ends :
    (Instr.openUart 1 .none .one .eight).wellFormed = true ∧ (Instr.openUart 4194303 .none .one .nine).wellFormed = true := by decide

/-- V-DEC-5: p 10, s 0, d 010, baud 0x4B00. -/
theorem test_decode_open_7O1 :
    decode 0b0001_10_0_010_0000000100101100000000#32 = .op (.openUart 19200 .odd .one .seven) := by decide

/-- V-DEC-6, V-DEC-7, V-DEC-8. -/
theorem test_decode_open_ends :
    decode 0x1200012C#32 = .op (.openUart 300 .none .two .five) ∧
    decode 0x14400001#32 = .op (.openUart 1 .even .one .six) ∧
    decode 0x12FFFFFF#32 = .op (.openUart 4194303 .none .two .eight) := by decide

/-- V-DEC-9. -/
theorem test_decode_open_9N1 : decode 0x11002580#32 = .op (.openUart 9600 .none .one .nine) := by decide

/-- V-DEC-10 to V-DEC-13, and the order of illegal and refused in V-ERR-5. -/
theorem test_decode_open_illegal :
    decode 0x1C002580#32 = .illegal .reservedParity ∧ decode 0x11402580#32 = .illegal .reservedDataBits ∧
    decode 0x13FFFFFF#32 = .illegal .reservedDataBits ∧ decode 0x10C00000#32 = .illegal .zeroBaud ∧
    decode 0x11000000#32 = .illegal .zeroBaud := by decide

/-- Format N, bit by bit from R72 and R77 (V-DEC-14, V-DEC-23, V-DEC-33). -/
theorem test_decode_formatN :
    decode 0b0010_0000000000000000000000000000#32 = .op .close ∧ decode 0b0101_0000000000000000000000000000#32 = .op .read ∧
    decode 0b0110_0000000000000000000000000000#32 = .op .peek ∧ decode 0b0111_0000000000000000000000000000#32 = .op .available ∧
    decode 0b1000_0000000000000000000000000000#32 = .op .flush ∧ decode 0b1001_0000000000000000000000000000#32 = .op .status ∧
    decode 0b1010_0000000000000000000000000000#32 = .op .csEnter ∧ decode 0b1011_0000000000000000000000000000#32 = .op .csExit ∧
    decode 0b1110_0000000000000000000000000000#32 = .op .uartTxLoad ∧
    decode 0b1111_0000000000000000000000000000#32 = .op .uartTxDone := by decide

/-- V-DEC-1, V-DEC-2, V-DEC-15, V-DEC-16, V-DEC-24, V-DEC-34. -/
theorem test_decode_formatN_illegal :
    decode 0x00000000#32 = .illegal .reservedOpcode ∧ decode 0x0FFFFFFF#32 = .illegal .reservedOpcode ∧
    decode 0x20000001#32 = .illegal .fixedBitsNotZero ∧ decode 0x28000000#32 = .illegal .fixedBitsNotZero ∧
    decode 0x90000080#32 = .illegal .fixedBitsNotZero ∧ decode 0xE0000001#32 = .illegal .fixedBitsNotZero ∧
    decode 0xF0008000#32 = .illegal .fixedBitsNotZero := by decide

/-- Format B, bit by bit from R73 and R78 (V-DEC-17 to V-DEC-22). -/
theorem test_decode_formatB :
    decode 0b0011_00000000000000000000_01000001#32 = .op (.write 0x41) ∧ decode 0x30000000#32 = .op (.write 0x00) ∧
    decode 0b0100_00000000000000000000_11111111#32 = .op (.tryWrite 0xFF) ∧
    decode 0x300001FF#32 = .illegal .fixedBitsNotZero ∧ decode 0x48000000#32 = .illegal .fixedBitsNotZero := by decide

/-- Format V, bit by bit from R75 and R79 (V-DEC-25 to V-DEC-27). -/
theorem test_decode_formatV :
    decode 0b1100_00000000000000000000000000_01#32 = .op .isrRxc ∧ decode 0b1100_00000000000000000000000000_10#32 = .op .isrDre ∧
    decode 0b1100_00000000000000000000000000_11#32 = .op .isrTxc ∧ decode 0xC0000000#32 = .illegal .reservedVector ∧
    decode 0xC0000007#32 = .illegal .fixedBitsNotZero := by decide

/-- Format F, bit by bit from R76 and R80: pe is bit 9, fe bit 8 (V-DEC-28 to V-DEC-32). -/
theorem test_decode_formatF :
    decode 0b1101_000000000000000000_0_0_01000001#32 = .op (.uartRx 0x41 false false) ∧
    decode 0b1101_000000000000000000_1_0_11000001#32 = .op (.uartRx 0xC1 false true) ∧
    decode 0xD0000355#32 = .op (.uartRx 0x55 true true) ∧ decode 0xD0000455#32 = .illegal .fixedBitsNotZero := by decide

/-- The host's interface to the decoder, on the example words of R91. -/
theorem test_decodeTableWord :
    decodeTableWord 32 0x10C02580 = some (.openUart 9600 .none .one .eight) ∧ decodeTableWord 32 0xC0000002 = some .isrDre ∧
    decodeTableWord 32 0x00000000 = none := by decide

/-- The assembler lines of R87 and the words of R91. -/
theorem test_assemble :
    Asm.assemble "OPEN 9600, 8N1".toList = some 0x10C02580#32 ∧ Asm.assemble "UART_RX 0x55, FE".toList = some 0xD0000155#32 ∧
    Asm.assemble "WRITE 0x41".toList = some 0x30000041#32 ∧ Asm.assemble "CLOSE".toList = some 0x20000000#32 ∧
    Asm.assemble "OPEN 0, 8N1".toList = none ∧ Asm.assemble "WRITE 256".toList = none := by decide

/-! ## Rings (V-RB) -/

/-- V-RB-3, V-RB-4: a ring of two slots at index 1, and the tail's wrap. -/
theorem test_ring_wraps :
    ((ringOf 2 0 [0xA0]).pop 2).1 = some 0xA0 ∧ ((ringOf 2 0 [0xA0]).pop 2).2.head = 1 ∧
    (((ringOf 2 1 []).push 2 0xB0).2.tail = 0) ∧ ((ringOf 2 1 [0xB0]).isFull 2 = true) := by decide

/-- V-RB-7, V-RB-8: five slots, which is no power of two. -/
theorem test_ring_mod5 :
    (ringOf 5 4 [1, 2, 3]).tail = 2 ∧ (ringOf 5 4 [1, 2, 3]).len 5 = 3 ∧
    ((ringOf 5 4 [1, 2, 3]).pushAll 5 [4, 5]).1 = 1 ∧ ((ringOf 5 4 [1, 2, 3]).pushAll 5 [4, 5]).2.contents 5 = [1, 2, 3, 4] := by
  decide

/-- V-RB-16. -/
theorem test_ring_law : ((ringOf 8 0 [1, 2, 3, 4, 5]).popAll 8 3).1 = [1, 2, 3] ∧
    ((ringOf 8 0 [1, 2, 3, 4, 5]).popAll 8 3).2.len 8 = 2 := by decide

/-- V-RB-15: a full ring at head 1, under OverwriteOldest. -/
theorem test_pushRx_overwrites :
    let s := (overwriting { opened 4 with rx := ringOf 4 1 [0xB, 0xC, 0xD] }).pushRx 0xE
    s.ovr = true ∧ s.rx.head = 2 ∧ s.rx.tail = 1 ∧ s.rx.contents 4 = [0xC, 0xD, 0xE] := by decide

/-! ## Host commands (V-API) -/

/-- V-API-2. -/
theorem test_open :
    nextOf (exec (.openUart 115200 .even .two .eight)
        { holding 8 [0x41, 0x42] with ovr := true, fe := true, rdr := frame 0x43 false false }) =
      some { opened 8 with
        cfg := { baud := 115200, parity := .even, stop := .two, dbits := .eight }
        rx := { ringOf 8 0 [0x41, 0x42] with tail := 0 } } := by decide

/-- V-ERR-4: the refusal comes before the hold. -/
theorem test_open_nine :
    nextOf (exec (.openUart 9600 .none .one .nine) (sending 8 [0x41])) =
      some { sending 8 [0x41] with stop := .refused .nineBitData 0x11002580#32 } := by decide

/-- V-API-4: the sticky flag is kept. -/
theorem test_close :
    nextOf (exec .close { holding 8 [0x41, 0x42] with ovr := true }) =
      some { opened 8 with
        isOpen := false, ie := { rxcie := false, dreie := false, txcie := false }, ovr := true
        rx := { ringOf 8 0 [0x41, 0x42] with tail := 0 } } := by decide

/-- V-API-6. -/
theorem test_close_held : nextOf (exec .close (draining 8)) = some (draining 8) ∧ (draining 8).holds .close = true := by decide

/-- V-API-7. -/
theorem test_write_idle : nextOf (exec (.write 0x41) (opened 8)) = some { sending 8 [0x41] with res := 1 } := by decide

/-- V-API-9: Draining resumes, and the direction is not touched. -/
theorem test_write_draining :
    (nextOf (exec (.write 0x42) (draining 8))).map (fun t => (t.txs, t.ie.bits, t.dir, t.tx.contents 8, t.res)) =
      some (.sending, 0b011#3, .transmit, [0x42], 1) := by decide

/-- V-API-13: full, and the overrun flag is not set. -/
theorem test_tryWrite_full :
    nextOf (exec (.tryWrite 0xFF) { sending 4 [1, 2, 3] with res := 1 }) = some { sending 4 [1, 2, 3] with res := 0 } := by decide

/-- V-API-12. -/
theorem test_tryWrite_idle : nextOf (exec (.tryWrite 0xFF) (opened 8)) = some { sending 8 [0xFF] with res := 1 } := by decide

/-- V-API-15, V-API-16, V-API-17. -/
theorem test_read :
    (nextOf (exec .read (holding 8 [0x41, 0x42]))).map (fun t => (t.res, t.rx.contents 8)) = some (0x00000141#32, [0x42]) ∧
    (nextOf (exec .read (holding 8 [0x00]))).map (fun t => (t.res, t.rx.contents 8)) = some (0x00000100#32, []) ∧
    nextOf (exec .read (holding 8 [])) = some (holding 8 []) := by decide

/-- V-API-18. -/
theorem test_peek : nextOf (exec .peek (holding 8 [0x41])) = some { holding 8 [0x41] with res := 0x00000141#32 } := by decide

/-- V-API-20: RX 3/1 of 4. -/
theorem test_available :
    (nextOf (exec .available { opened 4 with rx := ringOf 4 3 [0x10, 0x11] })).map (fun t => t.res) = some 2 := by decide

/-- V-API-27, V-API-28. -/
theorem test_flush :
    nextOf (exec .flush (opened 8)) = some (opened 8) ∧ (opened 8).holds .flush = false ∧ (sending 8 [1]).holds .flush = true := by decide

/-- V-API-24: 0xDE. -/
theorem test_status :
    nextOf (exec .status { sending 8 [1] with fe := true, pe := true, dor := true }) =
      some { sending 8 [1] with res := 0x000000DE#32 } := by decide

/-- V-API-22, V-API-25. -/
theorem test_status_values :
    (nextOf (exec .status { opened 8 with ovr := true })).map (fun t => t.res) = some 0x81#32 ∧
    (nextOf (exec .status (draining 8))).map (fun t => t.res) = some 0xE0#32 := by decide

/-- V-API-30, V-API-32. -/
theorem test_cs :
    nextOf (exec .csEnter (opened 8)) = some { opened 8 with gie := false } ∧
    nextOf (exec .csExit { opened 8 with gie := false }) = some (opened 8) := by decide

/-! ## Handlers (V-ISR) -/

/-- V-ISR-2, V-ISR-4. -/
theorem test_isrRxc :
    nextOf (exec .isrRxc { opened 8 with rdr := frame 0x55 true false }) = some { holding 8 [0x55] with fe := true } ∧
    nextOf (exec .isrRxc { holding 2 [0x11] with rdr := frame 0x39 false false }) = some { holding 2 [0x11] with ovr := true } := by
  decide

/-- V-ISR-13: gated. -/
theorem test_isrRxc_gated :
    nextOf (exec .isrRxc { opened 8 with rdr := frame 0x55 true false, gie := false }) = none := by decide

/-- V-ISR-6. -/
theorem test_isrDre :
    (nextOf (exec .isrDre { sending 8 [0x42] with txcf := true })).map (fun t => (t.udr, t.tx.contents 8, t.txcf, t.txs)) =
      some (some 0x42, [], false, .sending) := by decide

/-- V-ISR-7, V-ISR-9. -/
theorem test_isrDre_empty :
    (nextOf (exec .isrDre (sending 8 []))).map (fun t => (t.ie.bits, t.txs)) = some (0b101#3, .draining) ∧
    nextOf (exec .isrDre { sending 8 [] with rdr := frame 0x10 false false }) = none := by decide

/-- V-ISR-10, V-DIR-3. -/
theorem test_isrTxc :
    nextOf (exec .isrTxc (draining 8)) = some (opened 8) ∧ (draining 8).dePin = true ∧ (opened 8).dePin = false := by decide

/-- V-ISR-12: TXCIE 0. -/
theorem test_isrTxc_disabled : nextOf (exec .isrTxc { sending 8 [] with txcf := true }) = none := by decide

/-! ## UART events (V-UART) -/

/-- V-UART-2, V-UART-3. -/
theorem test_uartRx :
    nextOf (exec (.uartRx 0x22 false false) { opened 8 with rdr := frame 0x11 false false }) =
      some { opened 8 with rdr := frame 0x11 false false, dor := true } ∧
    nextOf (exec (.uartRx 0x55 false true) (opened 8)) = some { opened 8 with rdr := frame 0x55 false false } := by decide

/-- V-UART-4, P5 step 2: seven data bits, even parity. -/
theorem test_uartRx_masked :
    (nextOf (exec (.uartRx 0xC1 false true)
        { opened 8 with cfg := { baud := 9600, parity := .even, stop := .one, dbits := .seven } })).map (fun t => t.rdr) =
      some (frame 0x41 false true) := by decide

/-- V-UART-8, V-UART-10. -/
theorem test_uartTxLoad :
    nextOf (exec .uartTxLoad { sending 8 [] with udr := some 0x41 }) =
      some { sending 8 [] with tsr := some { b := 0x41, deStart := .transmit } } ∧
    nextOf (exec .uartTxLoad { sending 8 [] with udr := some 0x42, tsr := some { b := 0x41, deStart := .transmit } }) = none := by
  decide

/-- V-UART-11, V-UART-12. -/
theorem test_uartTxDone :
    nextOf (exec .uartTxDone { sending 8 [] with tsr := some { b := 0x41, deStart := .transmit } }) =
      some { sending 8 [] with wire := [{ b := 0x41, deStart := .transmit, deEnd := .transmit }], txcf := true } ∧
    (nextOf (exec .uartTxDone { sending 8 [] with udr := some 0x42, tsr := some { b := 0x41, deStart := .transmit } })).map
      (fun t => (t.txcf, t.udr)) = some (false, some 0x42) := by decide

/-- V-UART-13: masked to seven bits on the wire. -/
theorem test_uartTxDone_masked :
    (nextOf (exec .uartTxDone
      { sending 8 [] with
        cfg := { baud := 9600, parity := .even, stop := .one, dbits := .seven }
        tsr := some { b := 0xC1, deStart := .transmit } })).map (fun t => t.wire) =
      some [{ b := 0x41, deStart := .transmit, deEnd := .transmit }] := by decide

/-! ## Steps and faults (V-ERR) -/

/-- V-ERR-2: the word is used up, and nothing else of the block changes (log 6). -/
theorem test_step_illegal :
    nextOf (step ((opened 8).offer 0x300001FF#32)) = some { opened 8 with stop := .faulted .illegalCommand 0x300001FF#32 } := by decide

/-- V-ERR-6: a UART word in the host's program. -/
theorem test_step_foreign :
    nextOf (step { opened 8 with prog := [0xE0000000#32], sched := [.host] }) =
      some { opened 8 with stop := .faulted .illegalCommand 0xE0000000#32 } := by decide

/-- V-API-1, on the machine right after reset, whatever its parameters. -/
theorem test_step_open_after_reset :
    (nextOf (step (State.reset.withFetchWord 32 0x10C02580))).map (fun t => (t.isOpen, t.ie.bits, t.res, t.prog, t.sched)) =
      some (true, 0b001#3, 0, [], []) := by decide

/-- A held command stays the host's current one (R216, P3 after step 5). -/
theorem test_step_held :
    nextOf (step { sending 4 [1, 2, 3] with prog := [0x30000005#32], sched := [.host] }) =
      some { sending 4 [1, 2, 3] with prog := [0x30000005#32] } := by decide

/-- L1-1's frame: 10 bit periods for 8N1 (R260). -/
theorem test_bitPeriods : (opened 8).cfg.bitPeriods = 10 := by decide

/-! ## Witnesses: for each statement with hypotheses, values that meet them -/

/-- `i` answers a next state in `s`, and `s` has the invariant. -/
def runs (i : Instr) (s : State) : Bool := s.inv && (nextOf (exec i s)).isSome

theorem runs_spec {i : Instr} {s : State} (h : runs i s = true) : s.inv = true ∧ ∃ t, exec i s = .next t := by
  simp only [runs, Bool.and_eq_true, Option.isSome_iff_exists] at h
  obtain ⟨h1, t, ht⟩ := h
  exact ⟨h1, t, eq_of_nextOf ht⟩

/-- A step from `s` answers a next state, and `s` has the invariant. -/
def steps (s : State) : Bool := s.inv && (nextOf (step s)).isSome

theorem steps_spec {s : State} (h : steps s = true) : s.inv = true ∧ ∃ t, step s = .next t := by
  simp only [steps, Bool.and_eq_true, Option.isSome_iff_exists] at h
  obtain ⟨h1, t, ht⟩ := h
  exact ⟨h1, t, eq_of_nextOf ht⟩

/-- The state after some operations, and whether each was enabled in its turn. -/
def perform (s : State) (is : List Instr) : State := is.foldl (fun s i => effectOf i s) s

def performable : State → List Instr → Bool
  | _, [] => true
  | s, i :: is => i.wellFormed && s.enabled i && performable (effectOf i s) is

theorem agentStep_of {i : Instr} {s : State} (h1 : i.wellFormed = true) (h2 : s.enabled i = true) : AgentStep i s (effectOf i s) :=
  ⟨h1, h2, exec_enabled h2⟩

theorem reachable_perform {s : State} {is : List Instr} (h : Reachable s) (hp : performable s is = true) :
    Reachable (perform s is) := by
  induction is generalizing s with
  | nil => exact h
  | cons i is ih =>
    simp only [performable, Bool.and_eq_true] at hp
    exact ih (.step i s _ h (agentStep_of hp.1.1 hp.1.2)) hp.2

/-- The bytes the operations queue. -/
def queued : State → List Instr → List Byte
  | _, [] => []
  | s, i :: is => s.accepted i ++ queued (effectOf i s) is

theorem sentRun_perform {s : State} {is : List Instr} {sent : List Byte} (h : SentRun sent s) (hp : performable s is = true) :
    SentRun (sent ++ queued s is) (perform s is) := by
  induction is generalizing s sent with
  | nil => simpa [queued, perform] using h
  | cons i is ih =>
    simp only [performable, Bool.and_eq_true] at hp
    have := ih (.step i sent s _ h (agentStep_of hp.1.1 hp.1.2)) hp.2
    rwa [List.append_assoc] at this

/-- One byte's burst, in three parts (program P1, with one byte): to Sending, to Draining, to Idle. -/
def toSending : List Instr := [.openUart 9600 .none .one .eight, .write 0x41]

def toDraining : List Instr := toSending ++ [.isrDre, .uartTxLoad, .isrDre]

def toIdle : List Instr := toDraining ++ [.uartTxDone, .isrTxc]

theorem reachable_fresh {is : List Instr} (h : performable (fresh 2) is = true) : Reachable (perform (fresh 2) is) :=
  reachable_perform (.reset _ (by decide)) h

theorem test_witness_EncodeThenDecode :
    (Instr.openUart 1 .none .one .five).wellFormed = true ∧ (Instr.openUart 4194303 .odd .two .nine).wellFormed = true ∧
    (Instr.uartRx 0xFF true true).wellFormed = true := by decide

theorem test_witness_DecodeThenEncode :
    decode 0x1BFFFFFF#32 = .illegal .reservedDataBits ∧ decode 0x1B3FFFFF#32 = .op (.openUart 4194303 .odd .two .nine) ∧
    decode 0x10000001#32 = .op (.openUart 1 .none .one .five) ∧ decode 0xF0000000#32 = .op .uartTxDone := by decide

/-- One word for each clause of R83, and an illegal word offered on each port. -/
theorem test_witness_IllegalWords :
    ∀ w ∈ [0x00000000, 0x20000001, 0xF8000000, 0x30000100, 0x48000000, 0xC0000004, 0xC0000000, 0xD0000400, 0x1C000001, 0x11400001,
      0x10000000], decodeTableWord 32 w = none := by decide

theorem test_witness_IllegalWords_offered :
    decode 0#32 = .illegal .reservedOpcode ∧
    { fresh 2 with prog := [0], sched := [.host] }.request = .word .host 0 ∧
    { fresh 2 with sched := [.interrupt 0] }.request = .word .interrupt 0 ∧
    { fresh 2 with sched := [.uart 0] }.request = .word .uart 0 ∧ (fresh 2).stop = .running := by decide

theorem test_witness_MatchAndMask :
    decode 0x30000041#32 = .op (.write 0x41) ∧
    0x30000041#32 &&& (Instr.write 0x00).maskBits = (Instr.write 0x00).matchBits ∧
    0x30000041#32 &&& (Instr.write 0xFF).maskBits = (Instr.write 0xFF).matchBits := by decide

theorem test_witness_MatchAndMask_none (i : Instr) : 0x20000001#32 &&& i.maskBits ≠ i.matchBits := by
  cases i <;> simp only [Instr.maskBits, Instr.matchBits] <;> decide

theorem test_witness_RingLaws :
    (ringOf 2 1 []).wf 2 = true ∧ (ringOf 2 1 []).isEmpty = true ∧ ([0xA0] : List Byte).length < 2 ∧
    1 ≤ ([0xA0] : List Byte).length ∧ ([0xA0] : List Byte).length = 2 - 1 := by decide

theorem test_witness_PushRx :
    (holding 2 []).rx.wf 2 = true ∧ 2 ≤ (holding 2 []).params.rxCap ∧ (holding 2 []).rx.isFull 2 = false ∧
    (holding 2 [1]).rx.wf 2 = true ∧ (holding 2 [1]).rx.isFull 2 = true ∧ (holding 2 [1]).params.rxOverrunPolicy = .dropNewest ∧
    (overwriting (holding 2 [1])).params.rxOverrunPolicy = .overwriteOldest := by decide

/-- In a running block, and in one that has stopped. -/
theorem test_witness_Reset :
    (sending 2 [1]).stop = .running ∧ ({ sending 2 [1] with sched := [.reset []] } : State).request = .reset [] ∧
    (nextOf (step { sending 2 [1] with stop := .faulted .illegalCommand 0, sched := [.reset []] })).isSome = true := by decide

theorem test_witness_InvariantAtReset :
    (fresh 2).params.wf = true ∧ (fresh 65536).params.wf = true ∧ (fresh 1).params.wf = false ∧ (fresh 65537).params.wf = false := by
  simp [Params.wf, fresh, State.resetWith]

theorem test_witness_EveryStep :
    ((sending 2 [1]).offer 0xC0000002#32).inv = true ∧ ∃ t, step ((sending 2 [1]).offer 0xC0000002#32) = .next t :=
  steps_spec (by decide)

theorem test_witness_Idle : Reachable (perform (fresh 2) toIdle) ∧ (perform (fresh 2) toIdle).txs = .idle :=
  ⟨reachable_fresh (by decide), by decide⟩

theorem test_witness_Sending : Reachable (perform (fresh 2) toSending) ∧ (perform (fresh 2) toSending).txs = .sending :=
  ⟨reachable_fresh (by decide), by decide⟩

theorem test_witness_Draining : Reachable (perform (fresh 2) toDraining) ∧ (perform (fresh 2) toDraining).txs = .draining :=
  ⟨reachable_fresh (by decide), by decide⟩

theorem test_witness_Closed :
    Reachable (perform (fresh 2) (toIdle ++ [.close])) ∧ (perform (fresh 2) (toIdle ++ [.close])).isOpen = false :=
  ⟨reachable_fresh (by decide), by decide⟩

/-- The last frame has left, the bus is still driven, and ISR_TXC releases it. -/
theorem test_witness_BusContract :
    Reachable (perform (fresh 2) (toDraining ++ [.uartTxDone])) ∧
    (perform (fresh 2) (toDraining ++ [.uartTxDone])).wire = [{ b := 0x41, deStart := .transmit, deEnd := .transmit }] ∧
    AgentStep .isrTxc (perform (fresh 2) (toDraining ++ [.uartTxDone])) (perform (fresh 2) toIdle) ∧
    (perform (fresh 2) (toDraining ++ [.uartTxDone])).dir = .transmit ∧ (perform (fresh 2) toIdle).dir = .receive :=
  ⟨reachable_fresh (by decide), by decide, agentStep_of (by decide) (by decide), by decide, by decide⟩

theorem test_witness_Wire : SentRun [0x41] (perform (fresh 2) toIdle) ∧ (perform (fresh 2) toIdle).txs = .idle :=
  ⟨sentRun_perform (s := fresh 2) (is := toIdle) (.reset _ (by decide)) (by decide), by decide⟩

theorem test_witness_TransmitPath :
    ((opened 2).inv = true ∧ ∃ t, exec (.write 0x41) (opened 2) = .next t) ∧
    ((sending 2 [1]).inv = true ∧ ∃ t, exec .isrDre (sending 2 [1]) = .next t) :=
  ⟨runs_spec (by decide), runs_spec (by decide)⟩

theorem test_witness_ReceivePath :
    ((holding 2 [1]).inv = true ∧ ∃ t, exec .read (holding 2 [1]) = .next t) ∧
    ((holding 2 [1]).inv = true ∧ ∃ t, exec (.openUart 1 .none .one .five) (holding 2 [1]) = .next t) ∧
    ((holding 2 [1]).inv = true ∧ ∃ t, exec .close (holding 2 [1]) = .next t) ∧
    ((opened 2).inv = true ∧ ∃ t, exec (.uartRx 0xFF true true) (opened 2) = .next t) ∧
    ((fresh 2).inv = true ∧ ∃ t, exec (.uartRx 0xFF true true) (fresh 2) = .next t) :=
  ⟨runs_spec (by decide), runs_spec (by decide), runs_spec (by decide), runs_spec (by decide), runs_spec (by decide)⟩

/-- ISR_RXC with room, and on a full ring under each policy. -/
theorem test_witness_ReceivePath_isrRxc :
    ({ holding 2 [] with rdr := frame 1 true false }.inv = true ∧
      ∃ t, exec .isrRxc { holding 2 [] with rdr := frame 1 true false } = .next t) ∧
    ({ holding 2 [1] with rdr := frame 2 false false }.inv = true ∧
      ∃ t, exec .isrRxc { holding 2 [1] with rdr := frame 2 false false } = .next t) ∧
    ((overwriting { holding 2 [1] with rdr := frame 2 false false }).inv = true ∧
      ∃ t, exec .isrRxc (overwriting { holding 2 [1] with rdr := frame 2 false false }) = .next t) :=
  ⟨runs_spec (by decide), runs_spec (by decide), runs_spec (by decide)⟩

/-- Two states that differ in the one slot no ring holds. -/
theorem test_witness_Unoccupied :
    (opened 2).inv = true ∧ { opened 2 with rx := { store := [(1, 7)], head := 0, tail := 0 } }.inv = true ∧
    opened 2 ≠ { opened 2 with rx := { store := [(1, 7)], head := 0, tail := 0 } } ∧
    SameView (opened 2) { opened 2 with rx := { store := [(1, 7)], head := 0, tail := 0 } } :=
  ⟨by decide, by decide, by decide, by unfold SameView; decide⟩

theorem test_witness_Open :
    (sending 2 [1]).stop = .running ∧ (sending 2 [1]).txs ≠ .idle ∧ (draining 2).txs ≠ .idle ∧ DataBits.eight ≠ .nine ∧
    (fresh 2).stop = .running ∧ (fresh 2).txs = .idle ∧ dataBitsToFrame .five = some .five ∧
    dataBitsToFrame .eight = some .eight := by decide

theorem test_witness_Close :
    (sending 2 [1]).stop = .running ∧ (sending 2 [1]).inv = true ∧ (sending 2 [1]).txs ≠ .idle ∧
    (opened 2).stop = .running ∧ (opened 2).inv = true ∧ (opened 2).txs = .idle ∧ (opened 2).isOpen = true ∧
    (fresh 2).stop = .running ∧ (fresh 2).inv = true ∧ (fresh 2).isOpen = false := by decide

/-- Closed, full, and with room in each of the three transmit states; TRYWRITE's too. -/
theorem test_witness_Write :
    ((fresh 2).inv = true ∧ (fresh 2).isOpen = false) ∧
    ((sending 2 [1]).inv = true ∧ (sending 2 [1]).isOpen = true ∧ (sending 2 [1]).tx.isFull 2 = true) ∧
    (∀ s ∈ [opened 2, sending 3 [1], draining 2],
      s.stop = .running ∧ s.inv = true ∧ s.isOpen = true ∧ s.tx.isFull s.params.txCap = false) := by decide

theorem test_witness_Read :
    ∀ s ∈ [fresh 2, holding 2 [], holding 2 [1], holding 4 [1, 2, 3]], s.stop = .running ∧ s.inv = true := by decide

theorem test_witness_Running :
    ∀ s ∈ [fresh 2, opened 2, sending 2 [1], draining 2], s.stop = .running := by decide

theorem test_witness_Flush : (draining 2).txs ≠ .idle ∧ (fresh 2).txs = .idle ∧ (opened 2).txs = .idle := by decide

theorem test_witness_Gie : ∃ t, exec .read (opened 2) = .next t := (runs_spec (by decide)).2

theorem test_witness_OneVector :
    (sending 2 [1]).vectorEnabled .dre = true ∧ (sending 2 [1]).gie = true ∧ (sending 2 [1]).pending .dre = true ∧
    (draining 2).vectorEnabled .txc = true ∧ { opened 2 with rdr := frame 1 false false }.vectorEnabled .rxc = true ∧
    { sending 2 [1] with gie := false }.gie = false := by decide

theorem test_witness_IsrRxc :
    ∀ s ∈ [{ holding 2 [] with rdr := frame 1 true false }, { holding 2 [1] with rdr := frame 1 true false },
        overwriting { holding 2 [1] with rdr := frame 1 true false }],
      s.stop = .running ∧ s.inv = true ∧ s.gie = true ∧ s.rdr = some { b := 1, fe := true, pe := false } ∧ s.ie.rxcie = true := by
  decide

theorem test_witness_IsrDre :
    (∀ s ∈ [sending 2 [1], sending 2 []],
      s.stop = .running ∧ s.gie = true ∧ s.udr = none ∧ s.ie.dreie = true ∧ ¬(s.rdr ≠ none ∧ s.ie.rxcie = true)) ∧
    (sending 2 [1]).inv = true ∧ (sending 2 [1]).tx.contents 2 = [1] ∧
    { sending 2 [] with txcf := true }.inv = true ∧ { sending 2 [] with txcf := true }.tx.contents 2 = [] := by decide

theorem test_witness_IsrTxc :
    (draining 2).stop = .running ∧ (draining 2).inv = true ∧ (draining 2).gie = true ∧ (draining 2).txcf = true ∧
    (draining 2).ie.txcie = true ∧ ¬((draining 2).rdr ≠ none ∧ (draining 2).ie.rxcie = true) := by decide

theorem test_witness_UartRx :
    (fresh 2).isOpen = false ∧ (opened 2).isOpen = true ∧ (opened 2).rdr = none ∧
    { opened 2 with rdr := frame 1 false false }.rdr ≠ none := by decide

theorem test_witness_UartTx :
    { sending 2 [] with udr := some 1 }.udr = some 1 ∧ { sending 2 [] with udr := some 1 }.tsr = none ∧ (opened 2).udr = none ∧
    { sending 2 [] with tsr := some { b := 1, deStart := .transmit } }.tsr = some { b := 1, deStart := .transmit } ∧
    (opened 2).tsr = none := by decide

/-- Every operation answers a next state somewhere, from a state with the invariant: the hypotheses of the frames. -/
theorem test_witness_Frames :
    ∀ p ∈ [(Instr.peek, holding 2 [1]), (.available, holding 2 [1]), (.status, holding 2 [1]), (.flush, opened 2),
        (.csEnter, opened 2), (.csExit, opened 2), (.read, holding 2 [1]), (.write 1, opened 2), (.tryWrite 1, opened 2),
        (.openUart 1 .none .one .five, holding 2 [1]), (.close, holding 2 [1]),
        (.isrRxc, { holding 2 [1] with rdr := frame 1 true false }), (.isrDre, sending 2 [1]), (.isrTxc, draining 2),
        (.uartRx 1 true true, opened 2), (.uartTxLoad, { sending 2 [] with udr := some 1 }),
        (.uartTxDone, { sending 2 [] with tsr := some { b := 1, deStart := .transmit } })],
      p.2.inv = true ∧ ∃ t, exec p.1 p.2 = .next t := by
  have h : ∀ p ∈ [(Instr.peek, holding 2 [1]), (.available, holding 2 [1]), (.status, holding 2 [1]), (.flush, opened 2),
        (.csEnter, opened 2), (.csExit, opened 2), (.read, holding 2 [1]), (.write 1, opened 2), (.tryWrite 1, opened 2),
        (.openUart 1 .none .one .five, holding 2 [1]), (.close, holding 2 [1]),
        (.isrRxc, { holding 2 [1] with rdr := frame 1 true false }), (.isrDre, sending 2 [1]), (.isrTxc, draining 2),
        (.uartRx 1 true true, opened 2), (.uartTxLoad, { sending 2 [] with udr := some 1 }),
        (.uartTxDone, { sending 2 [] with tsr := some { b := 1, deStart := .transmit } })], runs p.1 p.2 = true := by decide
  exact fun p hp => runs_spec (h p hp)

/-- Each index, each flag and the direction does change in some step. -/
theorem test_witness_Writers :
    (nextOf (exec .isrRxc { holding 2 [] with rdr := frame 1 false false })).map (fun t => t.rx.tail) = some 1 ∧
    (nextOf (exec .read (holding 2 [1]))).map (fun t => t.rx.head) = some 1 ∧
    (nextOf (exec .isrRxc (overwriting { holding 2 [1] with rdr := frame 2 false false }))).map (fun t => t.rx.head) = some 1 ∧
    (nextOf (exec (.write 1) (opened 2))).map (fun t => (t.tx.tail, t.dir)) = some (1, .transmit) ∧
    (nextOf (exec .isrDre (sending 2 [1]))).map (fun t => t.tx.head) = some 1 ∧
    (nextOf (exec .isrTxc (draining 2))).map (fun t => t.dir) = some .receive := by decide

theorem test_witness_Sticky :
    (nextOf (exec .isrRxc { holding 2 [1] with rdr := frame 2 true false })).map (fun t => (t.ovr, t.fe)) = some (true, true) ∧
    (nextOf (exec (.uartRx 1 false false) { opened 2 with rdr := frame 2 false false })).map (fun t => t.dor) = some true ∧
    (nextOf (exec .status { opened 2 with ovr := true, fe := true, pe := true, dor := true })).map
      (fun t => (t.ovr, t.fe, t.pe, t.dor)) = some (false, false, false, false) := by decide

theorem test_witness_Repeated :
    (∃ t u, exec .peek (holding 2 [1]) = .next t ∧ exec .peek t = .next u) ∧
    (∃ t u, exec .available (holding 2 [1]) = .next t ∧ exec .available t = .next u) ∧
    (∃ t u, exec .status (holding 2 [1]) = .next t ∧ exec .status t = .next u) ∧
    (opened 2).holds .close = false ∧ (opened 2).holds .flush = false ∧ (holding 2 [1]).inv = true :=
  ⟨⟨effectOf .peek (holding 2 [1]), effectOf .peek (effectOf .peek (holding 2 [1])), exec_enabled (by decide),
      exec_enabled (by decide)⟩,
    ⟨effectOf .available (holding 2 [1]), effectOf .available (effectOf .available (holding 2 [1])), exec_enabled (by decide),
      exec_enabled (by decide)⟩,
    ⟨effectOf .status (holding 2 [1]), effectOf .status (effectOf .status (holding 2 [1])), exec_enabled (by decide),
      exec_enabled (by decide)⟩,
    by decide, by decide, by decide⟩

theorem test_witness_ClosedCommands :
    (fresh 2).inv = true ∧ (fresh 2).stop = .running ∧ (fresh 2).isOpen = false := by decide

/-- An open ring with room for one of two bytes, a full one, and a closed instance. -/
theorem test_witness_TryWriteList :
    (sending 3 [1]).inv = true ∧ (sending 3 [1]).isOpen = true ∧ ((sending 3 [1]).tryWriteList [2, 3]).1 = 1 ∧
    ((sending 2 [1]).tryWriteList [2]).1 = 0 ∧ ((fresh 2).tryWriteList [2]).1 = 0 := by decide

/-- R89 and P3: a write on a full ring returns after the handler's step, and back to back it would wait; closed, it counts 0. R90: the same
handler's step lets a try_write accept a byte that it rejects back to back. -/
theorem test_witness_ListRuns :
    ((sending 4 [1, 2, 3]).writeRun [5] [0xC0000002#32, 0x30000005#32]).map (fun r => (r.1, r.2.tx.contents 4)) =
      some (1, [2, 3, 5]) ∧
    (sending 4 [1, 2, 3]).writeList [5] = none ∧
    ((fresh 2).writeRun [5, 6] [0x30000005#32, 0x30000006#32]).map (fun r => r.1) = some 0 ∧
    ((sending 2 [1]).tryWriteRun [2, 3] [0xC0000002#32, 0x40000002#32, 0x40000003#32]).map (fun r => r.1) = some 1 ∧
    ((sending 2 [1]).tryWriteRun [2, 3] [0x40000002#32]).map (fun r => r.1) = some 0 ∧
    ((fresh 2).tryWriteRun [2] [0x40000002#32]).map (fun r => r.1) = some 0 := by decide

/-- A command performed, a command held, a vector taken, a UART event. -/
theorem test_witness_Step :
    ((opened 2).offer 0x30000041#32).request = .word .host 0x30000041#32 ∧ decode 0x30000041#32 = .op (.write 0x41) ∧
    (Instr.write 0x41).port = .host ∧ ((opened 2).offer 0x30000041#32).holds (.write 0x41) = false ∧
    ((sending 2 [1]).offer 0x30000041#32).holds (.write 0x41) = true ∧
    ((sending 2 [1]).offer 0xC0000002#32).request = .word .interrupt 0xC0000002#32 ∧
    ((sending 2 [1]).offer 0xE0000000#32).request = .word .uart 0xE0000000#32 := by decide

theorem test_witness_NotEnabled :
    ∀ i ∈ [Instr.isrRxc, .isrDre, .isrTxc, .uartTxLoad, .uartTxDone],
      (opened 2).stop = .running ∧ (opened 2).holds i = false ∧ (opened 2).enabled i = false := by decide

theorem test_witness_Foreign :
    ({ opened 2 with prog := [0xE0000000#32], sched := [.host] } : State).request = .word .host 0xE0000000#32 ∧
    decode 0xE0000000#32 = .op .uartTxLoad ∧ Instr.uartTxLoad.port ≠ .host ∧ decode 0xC0000001#32 = .op .isrRxc ∧
    Instr.isrRxc.port ≠ .host := by decide

theorem test_witness_Stopped :
    ({ opened 2 with stop := .faulted .illegalCommand 0 } : State).request = .idle ∧
    ({ opened 2 with stop := .faulted .illegalCommand 0 } : State).stop = .faulted .illegalCommand 0 ∧
    (({ opened 2 with stop := .refused .nineBitData 0x11002580#32 } : State).offer 0x20000000#32).request =
      .word .host 0x20000000#32 := by decide

/-- A full ring, and a burst in flight, masked: no UART event and no handler lifts them. -/
theorem test_witness_MaskedHold :
    { sending 2 [1] with gie := false }.gie = false ∧ { sending 2 [1] with gie := false }.holds (.write 2) = true ∧
    { sending 2 [1] with gie := false }.holds .flush = true ∧ (Instr.uartRx 1 false false).port ≠ .host ∧
    (nextOf (exec (.uartRx 1 false false) { sending 2 [1] with gie := false })).isSome = true := by decide

theorem test_witness_Precedence :
    ((sending 2 [1]).offer 0x11000000#32).request = .word .host 0x11000000#32 ∧ decode 0x11000000#32 = .illegal .zeroBaud ∧
    ((sending 2 [1]).offer 0x11002580#32).request = .word .host 0x11002580#32 ∧
    decode 0x11002580#32 = .op (.openUart 9600 .none .one .nine) ∧ (sending 2 [1]).holds (.write 2) = true := by decide

/-- A script of three words, an illegal one last. -/
theorem test_witness_Script :
    (fresh 2).prog = [] ∧ (fresh 2).sched = [] ∧
    ((fresh 2).runScript [0x10C02580#32, 0xD0000041#32, 0x00000000#32]).isSome = true := by decide

/-- A byte in the ring, the data register and the shift register; and a burst that only waits for the handlers. -/
theorem test_witness_Burst :
    (∀ s ∈ [{ sending 2 [3] with udr := some 2, tsr := some { b := 1, deStart := .transmit } }, draining 2],
      s.inv = true ∧ s.stop = .running ∧ s.gie = true ∧ s.rdr = none ∧ s.txs ≠ .idle) := by decide

theorem test_witness_FramesInTime :
    (holding 3 [1]).inv = true ∧ (holding 3 [1]).stop = .running ∧ (holding 3 [1]).gie = true ∧ (holding 3 [1]).isOpen = true ∧
    (holding 3 [1]).rdr = none ∧ (holding 3 [1]).rx.len 3 + ([2] : List Byte).length ≤ 3 - 1 := by decide

theorem test_witness_Instances : ∃ after, boardStep 1 [fresh 2, (opened 2).offer 0x30000041#32] = .next after := by
  refine ⟨[fresh 2, effectOf (.write 0x41) (opened 2)], ?_⟩
  have h : step ((opened 2).offer 0x30000041#32) = .next (effectOf (.write 0x41) (opened 2)) := eq_of_nextOf (by decide)
  simp [boardStep, h]

end Sys2Proof.Tests
end

/-! SUPPORT. The statements of 00_scope.md: the parameters are fixed (R12), and the instances share no state (R13, R227). -/

namespace Sys2Proof.Machine

/-! ## The parameters (R12) -/

@[simp] theorem writeEffect_params (v : Byte) (s : State) : (writeEffect v s).params = s.params := by
  unfold writeEffect
  split
  · exact State.acceptByte_params s v
  · rfl

@[simp] theorem tryWriteEffect_params (v : Byte) (s : State) : (tryWriteEffect v s).params = s.params := by
  unfold tryWriteEffect
  split
  · rfl
  · exact State.acceptByte_params s v

/-- The handlers and the UART events are `effectOf_otherAgent`'s; of the host's commands OPEN splits on its data bits, and WRITE and
TRYWRITE on whether they accept their byte. -/
@[simp] theorem effectOf_params (i : Instr) (s : State) : (effectOf i s).params = s.params := by
  by_cases hport : i.port = .host
  · cases i with
    | openUart baud p st d => cases d <;> rfl
    | write v => exact writeEffect_params v s
    | tryWrite v => exact tryWriteEffect_params v s
    | isrRxc | isrDre | isrTxc | uartRx | uartTxLoad | uartTxDone => cases hport
    | _ => rfl
  · obtain ⟨-, -, hparams, -⟩ := effectOf_otherAgent s hport
    exact hparams

theorem exec_next_params {i : Instr} {s t : State} (h : exec i s = .next t) : t.params = s.params := by
  obtain ⟨-, ⟨-, rfl⟩ | ⟨-, -, rfl⟩⟩ := exec_next.mp h
  · rfl
  · exact effectOf_params i s

@[simp] theorem State.takeWord_params (s : State) (p : Port) : (s.takeWord p).params = s.params := by
  cases p <;> rfl

@[simp] theorem State.fetched_params (s : State) (i : Instr) : (s.fetched i).params = s.params := by
  obtain ⟨p, q, h⟩ := s.fetched_inputs i
  rw [h]
  rfl

/-- The external reset too keeps the parameters (log 10). -/
@[simp] theorem State.applyReset_params (s : State) (program : List Word) : (s.applyReset program).params = s.params := rfl

/-- Settles O12: each of the four things a step can do keeps the parameters. -/
theorem everyStepKeepsTheParameters : Obligations.EveryStepKeepsTheParameters := by
  intro s t h
  obtain ⟨program, -, rfl⟩ | ⟨-, -, rfl⟩ | ⟨p, w, -, -, -, rfl⟩ | ⟨p, w, i, -, -, hexec⟩ := step_next h
  · exact s.applyReset_params program
  · exact s.endTurn_params
  · exact s.takeWord_params p
  · calc t.params = (s.fetched i).params := exec_next_params hexec
      _ = s.params := s.fetched_params i

/-! ## The instances (R13, R227) -/

/-- Everything a board's step can do when it answers a next board: one of its instances makes one step of its own. -/
theorem boardStep_next {k : Nat} {before after : List State} :
    boardStep k before = .next after ↔ ∃ s t, before[k]? = some s ∧ step s = .next t ∧ after = before.set k t := by
  unfold boardStep
  cases hs : before[k]? with
  | none => simp
  | some s => cases ht : step s <;> simp [ht, eq_comm]

/-- Settles O60: the only write of a board's step is at the index of the one that steps. -/
theorem instancesShareNoState : Obligations.InstancesShareNoState := by
  intro k before after h
  obtain ⟨s, t, hs, ht, rfl⟩ := boardStep_next.mp h
  obtain ⟨hk, -⟩ := List.getElem?_eq_some_iff.mp hs
  refine ⟨List.length_set, fun j hj => List.getElem?_set_ne hj.symm, s, t, hs, ht, ?_⟩
  exact List.getElem?_set_self hk

end Sys2Proof.Machine

/-! SUPPORT. The statements of 10_state.md: the invariant of the state at reset, over every step and over every run (R22, R44 to R48,
R124), who writes the sticky flags (R30 to R32) and the direction (R27, R28), and that a stopped block has no step (R42). -/

namespace Sys2Proof

/-! ## A legal word names a well-formed operation (R81, R83) -/

theorem decodeFormatN_wellFormed {w : Word} {i j : Instr} (hj : j.wellFormed = true) (h : decodeFormatN j w = .op i) :
    i.wellFormed = true := by
  unfold decodeFormatN at h
  split at h
  · exact Decoded.op.inj h ▸ hj
  · cases h

theorem decodeFormatB_wellFormed {w : Word} {i : Instr} {mk : Byte → Instr} (hmk : ∀ b, (mk b).wellFormed = true)
    (h : decodeFormatB mk w = .op i) : i.wellFormed = true := by
  unfold decodeFormatB at h
  split at h
  · exact Decoded.op.inj h ▸ hmk _
  · cases h

theorem decodeFormatV_wellFormed {w : Word} {i : Instr} (h : decodeFormatV w = .op i) : i.wellFormed = true := by
  unfold decodeFormatV at h
  split at h
  · split at h <;> cases h <;> rfl
  · cases h

theorem decodeFormatF_wellFormed {w : Word} {i : Instr} (h : decodeFormatF w = .op i) : i.wellFormed = true := by
  unfold decodeFormatF at h
  split at h <;> cases h
  rfl

theorem decodeOpen_wellFormed {w : Word} {i : Instr} (h : decodeOpen w = .op i) : i.wellFormed = true := by
  simp only [decodeOpen] at h
  split at h
  · cases h
  · split at h
    · cases h
    · split at h
      · cases h
      · next hbaud =>
        cases h
        simpa [Instr.wellFormed] using hbaud

/-- Opcode by opcode: only OPEN has an operand to check, and `decodeOpen` checks it. -/
theorem decode_wellFormed {w : Word} {i : Instr} (h : decode w = .op i) : i.wellFormed = true := by
  rcases opcode_cases (opcode w) with o | o | o | o | o | o | o | o | o | o | o | o | o | o | o | o
  · rw [decode_opcode_reserved o] at h
    cases h
  · exact decodeOpen_wellFormed (decode_opcode_open o ▸ h)
  · exact decodeFormatN_wellFormed rfl (decode_opcode_close o ▸ h)
  · exact decodeFormatB_wellFormed (fun _ => rfl) (decode_opcode_write o ▸ h)
  · exact decodeFormatB_wellFormed (fun _ => rfl) (decode_opcode_tryWrite o ▸ h)
  · exact decodeFormatN_wellFormed rfl (decode_opcode_read o ▸ h)
  · exact decodeFormatN_wellFormed rfl (decode_opcode_peek o ▸ h)
  · exact decodeFormatN_wellFormed rfl (decode_opcode_available o ▸ h)
  · exact decodeFormatN_wellFormed rfl (decode_opcode_flush o ▸ h)
  · exact decodeFormatN_wellFormed rfl (decode_opcode_status o ▸ h)
  · exact decodeFormatN_wellFormed rfl (decode_opcode_csEnter o ▸ h)
  · exact decodeFormatN_wellFormed rfl (decode_opcode_csExit o ▸ h)
  · exact decodeFormatV_wellFormed (decode_opcode_vector o ▸ h)
  · exact decodeFormatF_wellFormed (decode_opcode_uartRx o ▸ h)
  · exact decodeFormatN_wellFormed rfl (decode_opcode_uartTxLoad o ▸ h)
  · exact decodeFormatN_wellFormed rfl (decode_opcode_uartTxDone o ▸ h)

end Sys2Proof

namespace Sys2Proof.Machine

/-! ## The invariant, clause by clause -/

/-- `State.inv` as propositions with names (`State.inv_iff`), so that an operation's lemma speaks of the clauses it touches only. -/
structure State.Inv (s : State) : Prop where
  params : s.params.wf = true
  rx : s.rx.wf s.params.rxCap = true
  tx : s.tx.wf s.params.txCap = true
  idle : s.txs = .idle →
    s.tx.isEmpty = true ∧ s.udr = none ∧ s.tsr = none ∧ s.txcf = false ∧ s.ie.dreie = false ∧ s.ie.txcie = false ∧
      s.dir = .receive
  sending : s.txs = .sending →
    s.dir = .transmit ∧ s.ie.dreie = true ∧ s.ie.txcie = false ∧
      (s.tx.isEmpty = false ∨ s.udr ≠ none ∨ s.tsr ≠ none ∨ s.txcf = true)
  draining : s.txs = .draining →
    s.dir = .transmit ∧ s.ie.dreie = false ∧ s.ie.txcie = true ∧ s.tx.isEmpty = true ∧ s.udr = none ∧
      (s.tsr ≠ none ∨ s.txcf = true)
  closed : s.isOpen = false →
    s.txs = .idle ∧ s.ie.rxcie = false ∧ s.ie.dreie = false ∧ s.ie.txcie = false ∧ s.dir = .receive ∧ s.rx.head = 0 ∧
      s.rx.tail = 0 ∧ s.tx.head = 0 ∧ s.tx.tail = 0 ∧ s.rdr = none
  opened : s.isOpen = true → s.ie.rxcie = true ∧ s.cfg.baud ≠ 0
  txcf : s.txcf = true → s.udr = none ∧ s.tsr = none
  wire : ∀ r ∈ s.wire, r.deStart = .transmit ∧ r.deEnd = .transmit
  tsr : ∀ e, s.tsr = some e → e.deStart = .transmit
  rdr : ∀ f, s.rdr = some f → onWire s.cfg f.b = f.b ∧ (f.pe = true → s.cfg.parity ≠ .none)

theorem State.idleInv_iff {s : State} : s.idleInv = true ↔ (s.txs = .idle →
    s.tx.isEmpty = true ∧ s.udr = none ∧ s.tsr = none ∧ s.txcf = false ∧ s.ie.dreie = false ∧ s.ie.txcie = false ∧
      s.dir = .receive) := by
  cases h : s.txs <;> simp [State.idleInv, h, and_assoc]

theorem State.sendingInv_iff {s : State} : s.sendingInv = true ↔ (s.txs = .sending →
    s.dir = .transmit ∧ s.ie.dreie = true ∧ s.ie.txcie = false ∧
      (s.tx.isEmpty = false ∨ s.udr ≠ none ∨ s.tsr ≠ none ∨ s.txcf = true)) := by
  cases h : s.txs <;> simp [State.sendingInv, h, and_assoc, or_assoc, Option.isSome_iff_ne_none]

theorem State.drainingInv_iff {s : State} : s.drainingInv = true ↔ (s.txs = .draining →
    s.dir = .transmit ∧ s.ie.dreie = false ∧ s.ie.txcie = true ∧ s.tx.isEmpty = true ∧ s.udr = none ∧
      (s.tsr ≠ none ∨ s.txcf = true)) := by
  cases h : s.txs <;> simp [State.drainingInv, h, and_assoc, Option.isSome_iff_ne_none]

theorem State.closedInv_iff {s : State} : s.closedInv = true ↔ (s.isOpen = false →
    s.txs = .idle ∧ s.ie.rxcie = false ∧ s.ie.dreie = false ∧ s.ie.txcie = false ∧ s.dir = .receive ∧ s.rx.head = 0 ∧
      s.rx.tail = 0 ∧ s.tx.head = 0 ∧ s.tx.tail = 0 ∧ s.rdr = none) := by
  cases h : s.isOpen <;> simp [State.closedInv, h, and_assoc]

theorem State.openInv_iff {s : State} : s.openInv = true ↔ (s.isOpen = true → s.ie.rxcie = true ∧ s.cfg.baud ≠ 0) := by
  cases h : s.isOpen <;> simp [State.openInv, h]

theorem State.txcfInv_iff {s : State} : s.txcfInv = true ↔ (s.txcf = true → s.udr = none ∧ s.tsr = none) := by
  cases h : s.txcf <;> simp [State.txcfInv, h]

theorem State.wireInv_iff {s : State} : s.wireInv = true ↔
    (∀ r ∈ s.wire, r.deStart = .transmit ∧ r.deEnd = .transmit) ∧ ∀ e, s.tsr = some e → e.deStart = .transmit := by
  cases h : s.tsr <;> simp [State.wireInv, h]

theorem State.rdrInv_iff {s : State} : s.rdrInv = true ↔
    ∀ f, s.rdr = some f → onWire s.cfg f.b = f.b ∧ (f.pe = true → s.cfg.parity ≠ .none) := by
  cases h : s.rdr with
  | none => simp [State.rdrInv, h]
  | some f => cases hpe : f.pe <;> simp [State.rdrInv, h, hpe]

theorem State.inv_iff {s : State} : s.inv = true ↔ s.Inv := by
  simp only [State.inv, Bool.and_eq_true, State.idleInv_iff, State.sendingInv_iff, State.drainingInv_iff, State.closedInv_iff,
    State.openInv_iff, State.txcfInv_iff, State.wireInv_iff, State.rdrInv_iff, and_assoc]
  constructor
  · rintro ⟨params, rx, tx, idle, sending, draining, closed, opened, txcf, wire, tsr, rdr⟩
    exact { params, rx, tx, idle, sending, draining, closed, opened, txcf, wire, tsr, rdr }
  · rintro ⟨params, rx, tx, idle, sending, draining, closed, opened, txcf, wire, tsr, rdr⟩
    exact ⟨params, rx, tx, idle, sending, draining, closed, opened, txcf, wire, tsr, rdr⟩

/-! ## What the invariant says of the transmit state -/

section
variable {s : State} (h : s.Inv)
include h

theorem State.Inv.sending_of_dreie (hdreie : s.ie.dreie = true) : s.txs = .sending := by
  cases htxs : s.txs with
  | sending => rfl
  | idle => simp [h.idle htxs] at hdreie
  | draining => simp [h.draining htxs] at hdreie

theorem State.Inv.draining_of_txcie (htxcie : s.ie.txcie = true) : s.txs = .draining := by
  cases htxs : s.txs with
  | draining => rfl
  | idle => simp [h.idle htxs] at htxcie
  | sending => simp [h.sending htxs] at htxcie

theorem State.Inv.sending_of_udr {b : Byte} (hudr : s.udr = some b) : s.txs = .sending := by
  cases htxs : s.txs with
  | sending => rfl
  | idle => simp [h.idle htxs] at hudr
  | draining => simp [h.draining htxs] at hudr

theorem State.Inv.not_idle_of_tsr {e : ShiftEntry} (htsr : s.tsr = some e) : s.txs ≠ .idle := by
  intro htxs
  simp [h.idle htxs] at htsr

theorem State.Inv.transmit_of_not_idle (hbusy : s.txs ≠ .idle) : s.dir = .transmit := by
  cases htxs : s.txs with
  | idle => exact absurd htxs hbusy
  | sending => exact (h.sending htxs).1
  | draining => exact (h.draining htxs).1

theorem State.Inv.isOpen_of_not_idle (hbusy : s.txs ≠ .idle) : s.isOpen = true := by
  cases hopen : s.isOpen with
  | true => rfl
  | false => exact absurd (h.closed hopen).1 hbusy

theorem State.Inv.isOpen_of_rdr {f : RxFrame} (hrdr : s.rdr = some f) : s.isOpen = true := by
  cases hopen : s.isOpen with
  | true => rfl
  | false => simp [h.closed hopen] at hrdr

end

/-! ## What an enabled handler finds (R43, R134) -/

theorem State.pending_of_vectorEnabled {s : State} {v : IrqVector} (h : s.vectorEnabled v = true) : s.pending v = true := by
  obtain ⟨⟨-, hpending⟩, -⟩ : (s.gie = true ∧ s.pending v = true) ∧ s.highest v = true := by
    simpa only [State.vectorEnabled, Bool.and_eq_true] using h
  exact hpending

theorem State.pending_rxc_iff {s : State} : s.pending .rxc = true ↔ (∃ f, s.rdr = some f) ∧ s.ie.rxcie = true := by
  simp [State.pending, Option.isSome_iff_exists]

theorem State.pending_dre_iff {s : State} : s.pending .dre = true ↔ s.udr = none ∧ s.ie.dreie = true := by
  simp [State.pending]

theorem State.pending_txc_iff {s : State} : s.pending .txc = true ↔ s.txcf = true ∧ s.ie.txcie = true := by
  simp [State.pending]

/-! ## A push leaves the ring nonempty -/

theorem Ring.isEmpty_push {n : Nat} {r : Ring} (h : r.wf n = true) (b : Byte) (hroom : r.isFull n = false) :
    (r.push n b).2.isEmpty = false := by
  have hcount := Ring.count_push h b hroom
  rw [Bool.eq_false_iff, Ne, Ring.isEmpty_iff, ← Ring.count_zero_iff (Ring.wf_push h b)]
  omega

/-! ## The invariant at reset -/

theorem Params.wf_iff {p : Params} :
    p.wf = true ↔ 2 ≤ p.rxCap ∧ p.rxCap ≤ 65536 ∧ 2 ≤ p.txCap ∧ p.txCap ≤ 65536 := by
  simp [Params.wf, and_assoc]

theorem State.Inv.resetWith {p : Params} (hp : p.wf = true) : (State.resetWith p).Inv := by
  obtain ⟨hrx, -, htx, -⟩ := Params.wf_iff.mp hp
  exact {
    params := hp
    rx := Ring.wf_atReset (Nat.two_pos.trans_le hrx)
    tx := Ring.wf_atReset (Nat.two_pos.trans_le htx)
    idle := fun _ => ⟨rfl, rfl, rfl, rfl, rfl, rfl, rfl⟩
    sending := nofun
    draining := nofun
    closed := fun _ => ⟨rfl, rfl, rfl, rfl, rfl, rfl, rfl, rfl, rfl, rfl⟩
    opened := nofun
    txcf := nofun
    wire := nofun
    tsr := nofun
    rdr := nofun }

/-! ## Every effect keeps the invariant

One lemma an effect, under what its operation's enabling condition says; the clauses an effect cannot touch are taken over. -/

section
variable {s : State} (h : s.Inv)
include h

/-- OPEN starts from Idle, which leaves the UART's transmit registers empty (R44, R150). -/
theorem State.Inv.openEffect {baud : BitVec 22} (p : Parity) (st : StopBits) (d : FrameBits) (hidle : s.txs = .idle)
    (hbaud : baud ≠ 0) : (openEffect baud p st d s).Inv := by
  obtain ⟨-, hudr, htsr, htxcf, -, -, hdir⟩ := h.idle hidle
  exact { h with
    rx := Ring.wf_reset h.rx
    tx := Ring.wf_reset h.tx
    idle := fun _ => ⟨rfl, hudr, htsr, htxcf, rfl, rfl, hdir⟩
    sending := nofun
    draining := nofun
    closed := nofun
    opened := fun _ => ⟨rfl, hbaud⟩
    rdr := nofun }

theorem State.Inv.closeEffect (hidle : s.txs = .idle) : (closeEffect s).Inv := by
  obtain ⟨-, hudr, htsr, htxcf, -, -, hdir⟩ := h.idle hidle
  exact { h with
    rx := Ring.wf_reset h.rx
    tx := Ring.wf_reset h.tx
    idle := fun _ => ⟨rfl, hudr, htsr, htxcf, rfl, rfl, hdir⟩
    sending := fun e => absurd (hidle.symm.trans e) nofun
    draining := fun e => absurd (hidle.symm.trans e) nofun
    closed := fun _ => ⟨hidle, rfl, rfl, rfl, hdir, rfl, rfl, rfl, rfl, rfl⟩
    opened := nofun
    rdr := nofun }

/-- Whatever the transmit state, an accepted byte leaves Sending, with the byte in the ring (R45, R158). -/
theorem State.Inv.acceptByte (v : Byte) (hopen : s.isOpen = true) (hroom : s.txFull = false) : (s.acceptByte v).Inv := by
  have hpush : (s.tx.push s.params.txCap v).2.isEmpty = false := Ring.isEmpty_push h.tx v hroom
  cases htxs : s.txs with
  | idle =>
    rw [State.acceptByte_idle v htxs]
    exact { h with
      tx := Ring.wf_push h.tx v
      idle := nofun
      sending := fun _ => ⟨rfl, rfl, rfl, .inl hpush⟩
      draining := nofun
      closed := fun e => absurd (hopen.symm.trans e) nofun }
  | sending =>
    obtain ⟨hdir, hdreie, htxcie, -⟩ := h.sending htxs
    rw [State.acceptByte_sending v htxs]
    exact { h with
      tx := Ring.wf_push h.tx v
      idle := fun e => absurd (htxs.symm.trans e) nofun
      sending := fun _ => ⟨hdir, hdreie, htxcie, .inl hpush⟩
      draining := fun e => absurd (htxs.symm.trans e) nofun
      closed := fun e => absurd (hopen.symm.trans e) nofun }
  | draining =>
    obtain ⟨hdir, -⟩ := h.draining htxs
    rw [State.acceptByte_draining v htxs]
    exact { h with
      tx := Ring.wf_push h.tx v
      idle := nofun
      sending := fun _ => ⟨hdir, rfl, rfl, .inl hpush⟩
      draining := nofun
      closed := fun e => absurd (hopen.symm.trans e) nofun }

/-- READ advances the receive ring's head, and leaves a closed block's empty ring as it is (R47, R162). -/
theorem State.Inv.read (w : Word) : ({ s with rx := (s.rx.pop s.params.rxCap).2, res := w } : State).Inv :=
  { h with
    rx := Ring.wf_pop h.rx
    closed := fun hclosed => by
      obtain ⟨htxs, hrxcie, hdreie, htxcie, hdir, hhead, htail, htx⟩ := h.closed hclosed
      have hempty : s.rx.isEmpty = true := Ring.isEmpty_iff.mpr (hhead.trans htail.symm)
      rw [Ring.pop_empty hempty]
      exact ⟨htxs, hrxcie, hdreie, htxcie, hdir, hhead, htail, htx⟩ }

/-- push_rx touches the ring and OVR only (R105), and is performed in an open block only. -/
theorem State.Inv.pushRx (b : Byte) (hopen : s.isOpen = true) : (s.pushRx b).Inv := by
  cases hfull : s.rx.isFull s.params.rxCap with
  | false =>
    rw [State.pushRx_room b hfull]
    exact { h with rx := Ring.wf_push h.rx b, closed := fun e => absurd (hopen.symm.trans e) nofun }
  | true =>
    cases hpolicy : s.params.rxOverrunPolicy with
    | dropNewest =>
      rw [State.pushRx_dropNewest b hfull hpolicy]
      exact { h with }
    | overwriteOldest =>
      rw [State.pushRx_overwriteOldest b hfull hpolicy]
      exact { h with rx := Ring.wf_push (Ring.wf_dropOldest h.rx) b, closed := fun e => absurd (hopen.symm.trans e) nofun }

theorem State.Inv.receiveComplete {f : RxFrame} (hrdr : s.rdr = some f) : (receiveComplete s).Inv := by
  have hopen := h.isOpen_of_rdr hrdr
  have htaken : ({ s with rdr := none, fe := s.fe || f.fe, pe := s.pe || f.pe } : State).Inv :=
    { h with closed := fun e => absurd (hopen.symm.trans e) nofun, rdr := nofun }
  rw [receiveComplete_frame hrdr]
  exact htaken.pushRx f.b hopen

/-- ISR_DRE runs in Sending with UDR empty: it moves a byte from the ring to UDR, or leaves for Draining with the last byte of the
burst in TSR or just gone (R45, R46, R132). -/
theorem State.Inv.dataRegisterEmpty (hudr : s.udr = none) (hdreie : s.ie.dreie = true) : (dataRegisterEmpty s).Inv := by
  have htxs := h.sending_of_dreie hdreie
  obtain ⟨hdir, -, htxcie, hburst⟩ := h.sending htxs
  have hopen := h.isOpen_of_not_idle (htxs ▸ nofun)
  cases hempty : s.tx.isEmpty with
  | false =>
    rw [dataRegisterEmpty_byte hempty]
    exact { h with
      tx := Ring.wf_dropOldest h.tx
      idle := fun e => absurd (htxs.symm.trans e) nofun
      sending := fun _ => ⟨hdir, hdreie, htxcie, .inr (.inl nofun)⟩
      draining := fun e => absurd (htxs.symm.trans e) nofun
      closed := fun e => absurd (hopen.symm.trans e) nofun
      txcf := nofun }
  | true =>
    rw [dataRegisterEmpty_empty hempty]
    have hlast : s.tsr ≠ none ∨ s.txcf = true := by simpa [hempty, hudr] using hburst
    exact { h with
      idle := nofun
      sending := nofun
      draining := fun _ => ⟨hdir, rfl, rfl, hempty, hudr, hlast⟩
      closed := fun e => absurd (hopen.symm.trans e) nofun }

/-- ISR_TXC runs in Draining with the registers empty, so the whole path is at rest when it releases the bus (R44, R133). -/
theorem State.Inv.transmitComplete (htxcf : s.txcf = true) (htxcie : s.ie.txcie = true) :
    (transmitComplete (s.enterVector .txc)).Inv := by
  have htxs := h.draining_of_txcie htxcie
  obtain ⟨-, hdreie, -, hempty, -⟩ := h.draining htxs
  obtain ⟨hudr, htsr⟩ := h.txcf htxcf
  have hopen := h.isOpen_of_not_idle (htxs ▸ nofun)
  exact { h with
    idle := fun _ => ⟨hempty, hudr, htsr, rfl, hdreie, rfl, rfl⟩
    sending := nofun
    draining := nofun
    closed := fun e => absurd (hopen.symm.trans e) nofun
    txcf := nofun }

/-- A frame joins RDR masked, and without a parity error where there is no parity (R190, R193). -/
theorem State.Inv.frameArrives (b : Byte) (fe pe : Bool) : (frameArrives b fe pe s).Inv := by
  cases hopen : s.isOpen with
  | false =>
    rw [frameArrives_closed b fe pe hopen]
    exact h
  | true =>
    cases hrdr : s.rdr with
    | some f =>
      rw [frameArrives_lost b fe pe hopen hrdr]
      exact { h with }
    | none =>
      rw [frameArrives_taken b fe pe hopen hrdr]
      exact { h with
        closed := fun e => absurd (hopen.symm.trans e) nofun
        rdr := by
          rintro f ⟨⟩
          exact ⟨onWire_onWire s.cfg b, fun hpe => by simpa using (Bool.and_eq_true_iff.mp hpe).2⟩ }

/-- A byte in UDR means Sending, so its frame starts in Transmit (R124, R191). -/
theorem State.Inv.loadShiftRegister {b : Byte} (hudr : s.udr = some b) : (loadShiftRegister s).Inv := by
  have htxs := h.sending_of_udr hudr
  obtain ⟨hdir, hdreie, htxcie, -⟩ := h.sending htxs
  rw [loadShiftRegister_byte hudr]
  exact { h with
    idle := fun e => absurd (htxs.symm.trans e) nofun
    sending := fun _ => ⟨hdir, hdreie, htxcie, .inr (.inr (.inl nofun))⟩
    draining := fun e => absurd (htxs.symm.trans e) nofun
    txcf := fun e => by
      obtain ⟨hnone, -⟩ := h.txcf e
      exact absurd (hudr.symm.trans hnone) nofun
    tsr := by
      rintro e ⟨⟩
      exact hdir }

/-- A byte in TSR means the bus is driven, so its frame ends in Transmit; TXCF rises exactly when no byte waits in UDR (R124, R192). -/
theorem State.Inv.frameLeaves {e : ShiftEntry} (htsr : s.tsr = some e) : (frameLeaves s).Inv := by
  have hbusy := h.not_idle_of_tsr htsr
  have hdir := h.transmit_of_not_idle hbusy
  rw [frameLeaves_entry htsr]
  exact { h with
    idle := fun hidle => absurd hidle hbusy
    sending := fun htxs => by
      obtain ⟨-, hdreie, htxcie, -⟩ := h.sending htxs
      refine ⟨hdir, hdreie, htxcie, .inr ?_⟩
      cases hudr : s.udr <;> simp
    draining := fun htxs => by
      obtain ⟨-, hdreie, htxcie, hempty, hudr, -⟩ := h.draining htxs
      exact ⟨hdir, hdreie, htxcie, hempty, hudr, .inr (by simp [hudr])⟩
    txcf := fun htxcf => by
      cases hudr : s.udr with
      | none => exact ⟨rfl, rfl⟩
      | some b =>
        have hold : s.txcf = true := by simpa [hudr] using htxcf
        exact absurd (hudr.symm.trans (h.txcf hold).1) nofun
    wire := fun r hr => by
      rcases List.mem_append.mp hr with hr | hr
      · exact h.wire r hr
      · rw [List.mem_singleton.mp hr]
        exact ⟨h.tsr e htsr, hdir⟩
    tsr := nofun }

/-- The enabling condition of each operation is what its effect's lemma asks for. -/
theorem State.Inv.effectOf {i : Instr} (hwf : i.wellFormed = true) (hholds : s.holds i = false) (hready : s.ready i = true) :
    (effectOf i s).Inv := by
  cases i with
  | openUart baud p st d =>
    have hbaud : baud ≠ 0 := by simpa [Instr.wellFormed] using hwf
    have hidle : (dataBitsToFrame d).isSome = true → s.txs = .idle := fun hd => by
      simpa [State.holds, State.txInProgress, hd] using hholds
    cases d with
    | nine => exact { h with }
    | five => exact h.openEffect p st .five (hidle rfl) hbaud
    | six => exact h.openEffect p st .six (hidle rfl) hbaud
    | seven => exact h.openEffect p st .seven (hidle rfl) hbaud
    | eight => exact h.openEffect p st .eight (hidle rfl) hbaud
  | close => exact h.closeEffect (by simpa [State.holds, State.txInProgress] using hholds)
  | write v =>
    show (writeEffect v s).Inv
    unfold writeEffect
    split
    · next hopen => exact h.acceptByte v hopen (by simpa [State.holds, hopen] using hholds)
    · exact { h with }
  | tryWrite v =>
    show (tryWriteEffect v s).Inv
    unfold tryWriteEffect
    split
    · exact { h with }
    · next hroom =>
      obtain ⟨hopen, hroom⟩ : s.isOpen = true ∧ s.txFull = false := by simpa using hroom
      exact h.acceptByte v hopen hroom
  | read => exact h.read _
  | peek | available | flush | status | csEnter | csExit => exact { h with }
  | isrRxc =>
    obtain ⟨⟨f, hrdr⟩, -⟩ := State.pending_rxc_iff.mp (State.pending_of_vectorEnabled hready)
    exact h.receiveComplete hrdr
  | isrDre =>
    obtain ⟨hudr, hdreie⟩ := State.pending_dre_iff.mp (State.pending_of_vectorEnabled hready)
    exact h.dataRegisterEmpty hudr hdreie
  | isrTxc =>
    obtain ⟨htxcf, htxcie⟩ := State.pending_txc_iff.mp (State.pending_of_vectorEnabled hready)
    exact h.transmitComplete htxcf htxcie
  | uartRx b fe pe => exact h.frameArrives b fe pe
  | uartTxLoad =>
    obtain ⟨b, hudr⟩ := Option.isSome_iff_exists.mp (Bool.and_eq_true_iff.mp hready).1
    exact h.loadShiftRegister hudr
  | uartTxDone =>
    obtain ⟨e, htsr⟩ := Option.isSome_iff_exists.mp hready
    exact h.frameLeaves htsr

end

/-! ## Every step, and every run, keeps the invariant -/

/-- The invariant reads nothing of the host's program and the schedule (R20, log 3). -/
theorem State.Inv.withInputs {s : State} (h : s.Inv) (p : List Word) (q : List Turn) : (s.withInputs p q).Inv := { h with }

theorem State.Inv.takeWord {s : State} (h : s.Inv) (p : Port) : (s.takeWord p).Inv := by
  cases p <;> exact h.withInputs _ _

theorem State.Inv.fetched {s : State} (h : s.Inv) (i : Instr) : (s.fetched i).Inv := by
  obtain ⟨p, q, hfetched⟩ := s.fetched_inputs i
  rw [hfetched]
  exact h.withInputs p q

theorem State.Inv.raiseIllegal {s : State} (h : s.Inv) (w : Word) : (s.raiseIllegal w).Inv := { h with }

theorem State.Inv.exec {i : Instr} {s t : State} (h : s.Inv) (hwf : i.wellFormed = true) (hexec : exec i s = .next t) : t.Inv := by
  obtain ⟨-, ⟨-, rfl⟩ | ⟨hholds, hready, rfl⟩⟩ := exec_next.mp hexec
  · exact h
  · exact h.effectOf hwf hholds hready

theorem State.Inv.step {s t : State} (h : s.Inv) (hstep : step s = .next t) : t.Inv := by
  obtain ⟨program, -, rfl⟩ | ⟨-, -, rfl⟩ | ⟨p, w, -, -, -, rfl⟩ | ⟨p, w, i, -, hlegal, hexec⟩ := step_next hstep
  · exact (State.Inv.resetWith h.params).withInputs program s.sched.tail
  · exact h.withInputs s.prog s.sched.tail
  · exact (h.takeWord p).raiseIllegal w
  · exact (h.fetched i).exec (decode_wellFormed (legalOn_some.mp hlegal).1) hexec

theorem Reachable.inv {s : State} (h : Reachable s) : s.Inv := by
  induction h with
  | reset p hp => exact State.Inv.resetWith hp
  | step i s t _ hagent ih =>
    obtain ⟨hwf, -, hexec⟩ := hagent
    exact ih.exec hwf hexec

/-- Settles O11: each of the four things a step can do keeps the invariant. -/
theorem everyStepKeepsTheInvariant : Obligations.EveryStepKeepsTheInvariant :=
  fun _ _ hinv hstep => State.inv_iff.mpr ((State.inv_iff.mp hinv).step hstep)

/-- Settles O13: it is the invariant's clause for Idle. -/
theorem idleStatesAreAtRest : Obligations.IdleStatesAreAtRest := fun _ hreach => hreach.inv.idle

/-- Settles O14: it is the invariant's clause for Sending. -/
theorem sendingStatesDriveTheBus : Obligations.SendingStatesDriveTheBus := fun _ hreach => hreach.inv.sending

/-- Settles O15: it is the invariant's clause for Draining. -/
theorem drainingStatesWaitForTheLastBit : Obligations.DrainingStatesWaitForTheLastBit := fun _ hreach => hreach.inv.draining

theorem InterruptEnables.bits_eq_zero {e : InterruptEnables} (hrxcie : e.rxcie = false) (hdreie : e.dreie = false)
    (htxcie : e.txcie = false) : e.bits = 0b000#3 := by
  simp [InterruptEnables.bits, hrxcie, hdreie, htxcie]

/-- Settles O16: a closed block's rings are empty because their indices stand at 0. -/
theorem closedStatesAreAtRest : Obligations.ClosedStatesAreAtRest := by
  intro s hreach hclosed
  obtain ⟨htxs, hrxcie, hdreie, htxcie, hdir, hrxHead, hrxTail, htxHead, htxTail, hrdr⟩ := hreach.inv.closed hclosed
  exact ⟨htxs, InterruptEnables.bits_eq_zero hrxcie hdreie htxcie, hdir, Ring.isEmpty_iff.mpr (hrxHead.trans hrxTail.symm),
    Ring.isEmpty_iff.mpr (htxHead.trans htxTail.symm), hrdr⟩

/-! ## Reset (R48) -/

theorem Params.wf_config : Params.config.wf = true := by
  have hrx := Config.rxCapAboveTwo.isLt
  have htx := Config.txCapAboveTwo.isLt
  rw [Params.wf_iff]
  simp only [Params.config, Config.rxCap, Config.txCap]
  omega

/-- Settles O10: the parameters of the implementation are in the range of R10 by their types. -/
theorem invariantHoldsAtReset : Obligations.InvariantHoldsAtReset :=
  ⟨State.inv_iff.mpr (State.Inv.resetWith Params.wf_config), fun _ hp => State.inv_iff.mpr (State.Inv.resetWith hp)⟩

theorem step_reset {s : State} {program : List Word} (h : s.request = .reset program) :
    step s = .next (s.applyReset program) := by
  simp [step, h]

/-- Settles O9: the machine's reset state and the state a reset event leaves are one reset state, under some parameters and inputs. -/
theorem resetGivesTheSpecifiedValues : Obligations.ResetGivesTheSpecifiedValues := by
  refine ⟨fun s program _ hrequest => ⟨_, step_reset hrequest⟩, fun t ht => ?_⟩
  obtain ⟨p, program, turns, rfl⟩ : ∃ p program turns, t = (State.resetWith p).withInputs program turns := by
    obtain rfl | ⟨s, program, hrequest, hstep⟩ := ht
    · exact ⟨Params.config, [], [], rfl⟩
    · rw [step_reset hrequest] at hstep
      exact ⟨s.params, program, s.sched.tail, (Host.Outcome.next.inj hstep).symm⟩
  exact ⟨rfl, rfl, rfl, rfl, rfl, rfl, rfl, InterruptEnables.bits_eq_zero rfl rfl rfl, rfl, rfl, rfl, rfl, rfl, rfl, rfl, rfl, rfl,
    rfl, rfl, rfl, rfl⟩

/-! ## A stopped block (R42) -/

theorem State.whenRunning_faulted {s : State} {c : FaultCode} {w : Word} (h : s.stop = .faulted c w)
    (o : Host.Outcome State Fault Refusal) : s.whenRunning o = .fault (.illegalCommand w) := by
  cases c
  simp [State.whenRunning, h]

theorem State.whenRunning_refused {s : State} {r : RefusalReason} {w : Word} (h : s.stop = .refused r w)
    (o : Host.Outcome State Fault Refusal) : s.whenRunning o = .refused (.nineBitData w) := by
  cases r
  simp [State.whenRunning, h]

theorem exec_eq_whenRunning (i : Instr) (s : State) : ∃ o, exec i s = s.whenRunning o := by
  rw [exec_eq_attempt]
  exact ⟨_, rfl⟩

theorem State.fetched_whenRunning (s : State) (i : Instr) (o : Host.Outcome State Fault Refusal) :
    (s.fetched i).whenRunning o = s.whenRunning o := by
  obtain ⟨p, q, hfetched⟩ := s.fetched_inputs i
  rw [hfetched]
  rfl

/-- STOP stands before everything a step does but reset (R42, log 10). -/
theorem step_eq_whenRunning {s : State} (h : ∀ program, s.request ≠ .reset program) : ∃ o, step s = s.whenRunning o := by
  unfold step
  split
  · next program hrequest => exact absurd hrequest (h program)
  · exact ⟨_, rfl⟩
  · split
    · exact ⟨_, rfl⟩
    · next i _ =>
      obtain ⟨o, ho⟩ := exec_eq_whenRunning i (s.fetched i)
      exact ⟨o, ho.trans (s.fetched_whenRunning i o)⟩

/-- Settles O53: every operation, and every step but a reset, asks STOP first. -/
theorem aStoppedBlockHasNoStep : Obligations.AStoppedBlockHasNoStep := by
  intro s
  refine ⟨fun c w hstop => ⟨fun i => ?_, fun hreset => ?_⟩, fun r w hstop => ⟨fun i => ?_, fun hreset => ?_⟩⟩
  · obtain ⟨o, ho⟩ := exec_eq_whenRunning i s
    exact ho.trans (State.whenRunning_faulted hstop o)
  · obtain ⟨o, ho⟩ := step_eq_whenRunning hreset
    exact ho.trans (State.whenRunning_faulted hstop o)
  · obtain ⟨o, ho⟩ := exec_eq_whenRunning i s
    exact ho.trans (State.whenRunning_refused hstop o)
  · obtain ⟨o, ho⟩ := step_eq_whenRunning hreset
    exact ho.trans (State.whenRunning_refused hstop o)

/-! ## What each effect leaves alone -/

theorem State.acceptByte_frame (s : State) (v : Byte) :
    s.acceptByte v =
      { s with
        tx := (s.acceptByte v).tx, dir := (s.acceptByte v).dir, ie := (s.acceptByte v).ie, txs := (s.acceptByte v).txs, res := 1 } := by
  cases htxs : s.txs with
  | idle => simp [State.acceptByte_idle v htxs]
  | sending => simp [State.acceptByte_sending v htxs]
  | draining => simp [State.acceptByte_draining v htxs]

theorem State.pushRx_frame (s : State) (b : Byte) : s.pushRx b = { s with rx := (s.pushRx b).rx, ovr := (s.pushRx b).ovr } := by
  unfold State.pushRx
  split
  · split <;> rfl
  · rfl

theorem dataRegisterEmpty_frame (s : State) :
    dataRegisterEmpty s =
      { s with
        tx := (dataRegisterEmpty s).tx, udr := (dataRegisterEmpty s).udr, txcf := (dataRegisterEmpty s).txcf,
        ie := (dataRegisterEmpty s).ie, txs := (dataRegisterEmpty s).txs } := by
  unfold dataRegisterEmpty
  split <;> rfl

theorem frameArrives_frame (b : Byte) (fe pe : Bool) (s : State) :
    frameArrives b fe pe s = { s with dor := (frameArrives b fe pe s).dor, rdr := (frameArrives b fe pe s).rdr } := by
  unfold frameArrives
  split
  · rfl
  · split <;> rfl

theorem loadShiftRegister_frame (s : State) :
    loadShiftRegister s = { s with tsr := (loadShiftRegister s).tsr, udr := (loadShiftRegister s).udr } := by
  unfold loadShiftRegister
  split <;> rfl

theorem frameLeaves_frame (s : State) :
    frameLeaves s = { s with wire := (frameLeaves s).wire, tsr := (frameLeaves s).tsr, txcf := (frameLeaves s).txcf } := by
  unfold frameLeaves
  split <;> rfl

/-! ## The sticky flags (R30 to R32) -/

theorem State.pushRx_ovr (s : State) (b : Byte) : (s.pushRx b).ovr = (s.ovr || s.rx.isFull s.params.rxCap) := by
  cases hfull : s.rx.isFull s.params.rxCap with
  | false => simp [State.pushRx_room b hfull]
  | true =>
    cases hpolicy : s.params.rxOverrunPolicy with
    | dropNewest => simp [State.pushRx_dropNewest b hfull hpolicy]
    | overwriteOldest => simp [State.pushRx_overwriteOldest b hfull hpolicy]

/-- The four sticky flags of `t` are those of `s`. -/
def SameSticky (s t : State) : Prop := t.ovr = s.ovr ∧ t.fe = s.fe ∧ t.pe = s.pe ∧ t.dor = s.dor

theorem SameSticky.refl (s : State) : SameSticky s s := ⟨rfl, rfl, rfl, rfl⟩

theorem SameSticky.of_eq {s t u : State} (h : t = u) (hu : SameSticky s u) : SameSticky s t := h ▸ hu

theorem State.acceptByte_sticky (s : State) (v : Byte) : SameSticky s (s.acceptByte v) :=
  .of_eq (s.acceptByte_frame v) (.refl s)

theorem writeEffect_sticky (v : Byte) (s : State) : SameSticky s (writeEffect v s) := by
  unfold writeEffect
  split
  · exact s.acceptByte_sticky v
  · exact .refl s

theorem tryWriteEffect_sticky (v : Byte) (s : State) : SameSticky s (tryWriteEffect v s) := by
  unfold tryWriteEffect
  split
  · exact .refl s
  · exact s.acceptByte_sticky v

/-- Everything an operation can do to the sticky flags: keep them; clear them; take a received frame's errors and the overrun; or lose a
frame on a full RDR. -/
theorem exec_sticky {i : Instr} {s t : State} (h : exec i s = .next t) :
    (SameSticky s t ∧ i ≠ .isrRxc ∧ ((∃ b fe pe, i = .uartRx b fe pe) → s.isOpen = true → s.rdr = none)) ∨
    ((i = .status ∨ ∃ baud p st d, i = .openUart baud p st d) ∧
      t.ovr = false ∧ t.fe = false ∧ t.pe = false ∧ t.dor = false) ∨
    (i = .isrRxc ∧ ∃ f, s.rdr = some f ∧
      t.ovr = (s.ovr || s.rx.isFull s.params.rxCap) ∧ t.fe = (s.fe || f.fe) ∧ t.pe = (s.pe || f.pe) ∧ t.dor = s.dor) ∨
    ((∃ b fe pe, i = .uartRx b fe pe) ∧ s.rdr ≠ none ∧ t.ovr = s.ovr ∧ t.fe = s.fe ∧ t.pe = s.pe ∧ t.dor = true) := by
  obtain ⟨-, ⟨hholds, rfl⟩ | ⟨-, hready, rfl⟩⟩ := exec_next.mp h
  · refine .inl ⟨.refl _, ?_, ?_⟩
    · rintro rfl
      cases hholds
    · rintro ⟨b, fe, pe, rfl⟩
      cases hholds
  · cases i with
    | openUart baud p st d =>
      cases d with
      | nine => exact .inl ⟨.refl s, nofun, nofun⟩
      | _ => exact .inr (.inl ⟨.inr ⟨_, _, _, _, rfl⟩, rfl, rfl, rfl, rfl⟩)
    | status => exact .inr (.inl ⟨.inl rfl, rfl, rfl, rfl, rfl⟩)
    | isrRxc =>
      obtain ⟨⟨f, hrdr⟩, -⟩ := State.pending_rxc_iff.mp (State.pending_of_vectorEnabled hready)
      have heffect : effectOf .isrRxc s = _ := receiveComplete_frame hrdr
      refine .inr (.inr (.inl ⟨rfl, f, hrdr, ?_⟩))
      rw [heffect, State.pushRx_ovr, State.pushRx_frame]
      exact ⟨rfl, rfl, rfl, rfl⟩
    | uartRx b fe pe =>
      cases hopen : s.isOpen with
      | false =>
        exact .inl ⟨.of_eq (frameArrives_closed b fe pe hopen) (.refl s), nofun, nofun⟩
      | true =>
        cases hrdr : s.rdr with
        | none =>
          exact .inl ⟨.of_eq (frameArrives_taken b fe pe hopen hrdr) (.refl s), nofun, fun _ _ => rfl⟩
        | some f =>
          have heffect : effectOf (.uartRx b fe pe) s = _ := frameArrives_lost b fe pe hopen hrdr
          rw [heffect]
          exact .inr (.inr (.inr ⟨⟨b, fe, pe, rfl⟩, nofun, rfl, rfl, rfl, rfl⟩))
    | write v => exact .inl ⟨writeEffect_sticky v s, nofun, nofun⟩
    | tryWrite v => exact .inl ⟨tryWriteEffect_sticky v s, nofun, nofun⟩
    | isrDre => exact .inl ⟨.of_eq (dataRegisterEmpty_frame s) (.refl s), nofun, nofun⟩
    | uartTxLoad => exact .inl ⟨.of_eq (loadShiftRegister_frame s) (.refl s), nofun, nofun⟩
    | uartTxDone => exact .inl ⟨.of_eq (frameLeaves_frame s) (.refl s), nofun, nofun⟩
    | _ => exact .inl ⟨.refl s, nofun, nofun⟩

/-- Settles O45, from the four things an operation can do to the flags. -/
theorem stickyFlagsAreSetAndClearedOnlyByTheirRules : Obligations.StickyFlagsAreSetAndClearedOnlyByTheirRules := by
  intro i s t h
  obtain ⟨⟨hovr, hfe, hpe, hdor⟩, hrxc, hlost⟩ | ⟨hclear, hovr, hfe, hpe, hdor⟩ | ⟨rfl, f, hrdr, hovr, hfe, hpe, hdor⟩ |
    ⟨⟨b, fe, pe, rfl⟩, hrdr, hovr, hfe, hpe, hdor⟩ := exec_sticky h
  · refine ⟨?_, ?_, ?_, ?_, ?_, ?_, fun hrx hopen hfull => absurd (hlost hrx hopen) hfull, ?_⟩ <;> simp_all
  · obtain rfl | ⟨baud, p, st, d, rfl⟩ := hclear <;> simp_all
  · simp_all
  · simp_all

/-! ## The direction (R27, R28) -/

theorem State.acceptByte_dir (s : State) (v : Byte) : (s.acceptByte v).dir = if s.txs = .idle then .transmit else s.dir := by
  cases htxs : s.txs with
  | idle => simp [State.acceptByte_idle v htxs]
  | sending => simp [State.acceptByte_sending v htxs]
  | draining => simp [State.acceptByte_draining v htxs]

theorem State.dePin_iff {s : State} : s.dePin = true ↔ (s.dir = .transmit ↔ s.params.deActiveHigh = true) := by
  cases hdir : s.dir <;> simp [State.dePin, hdir]

/-- A byte that WRITE or TRYWRITE accepts turns the direction from Idle only (R120, R158, R160). -/
theorem State.idle_of_acceptByte_dir {s : State} {v : Byte} (h : (s.acceptByte v).dir ≠ s.dir) :
    (s.acceptByte v).dir = .transmit ∧ s.txs = .idle := by
  rw [State.acceptByte_dir] at h ⊢
  split at h
  · next hidle => exact ⟨if_pos hidle, hidle⟩
  · exact absurd rfl h

theorem writeEffect_dir_ne {v : Byte} {s : State} (h : (writeEffect v s).dir ≠ s.dir) :
    (writeEffect v s).dir = .transmit ∧ s.txs = .idle := by
  unfold writeEffect at h ⊢
  split at h
  · next hopen =>
    rw [if_pos hopen]
    exact State.idle_of_acceptByte_dir h
  · exact absurd rfl h

theorem tryWriteEffect_dir_ne {v : Byte} {s : State} (h : (tryWriteEffect v s).dir ≠ s.dir) :
    (tryWriteEffect v s).dir = .transmit ∧ s.txs = .idle := by
  unfold tryWriteEffect at h ⊢
  split at h
  · exact absurd rfl h
  · next hroom =>
    rw [if_neg hroom]
    exact State.idle_of_acceptByte_dir h

theorem receiveComplete_dir (s : State) : (receiveComplete s).dir = s.dir := by
  unfold receiveComplete
  split
  · rfl
  · rw [State.pushRx_frame]

/-- Settles O46: of the effects, only the accepting path and ISR_TXC's body write the direction. -/
theorem directionChangesOnlyAtItsCallSites : Obligations.DirectionChangesOnlyAtItsCallSites := by
  refine ⟨fun i s t hexec hdir => ?_, fun s => State.dePin_iff⟩
  obtain ⟨-, ⟨-, rfl⟩ | ⟨-, -, rfl⟩⟩ := exec_next.mp hexec
  · exact absurd rfl hdir
  · cases i with
    | write v =>
      obtain ⟨htransmit, hidle⟩ := writeEffect_dir_ne hdir
      exact .inl ⟨htransmit, hidle, v, .inl rfl⟩
    | tryWrite v =>
      obtain ⟨htransmit, hidle⟩ := tryWriteEffect_dir_ne hdir
      exact .inl ⟨htransmit, hidle, v, .inr rfl⟩
    | isrTxc => exact .inr ⟨rfl, rfl⟩
    | isrRxc => exact absurd (receiveComplete_dir s) hdir
    | isrDre => exact absurd (congrArg State.dir (dataRegisterEmpty_frame s)) hdir
    | uartRx b fe pe => exact absurd (congrArg State.dir (frameArrives_frame b fe pe s)) hdir
    | uartTxLoad => exact absurd (congrArg State.dir (loadShiftRegister_frame s)) hdir
    | uartTxDone => exact absurd (congrArg State.dir (frameLeaves_frame s)) hdir
    | openUart baud p st d => cases d <;> exact absurd rfl hdir
    | _ => exact absurd rfl hdir

end Sys2Proof.Machine

/-! SUPPORT. The statements of 20_memory.md: no step observes a ring's unoccupied slots (R53), each ring index has one writer (R57),
repeated queries (R60), and the order of the bytes on the transmit path and on the receive path (R62, R63). -/

namespace Sys2Proof.Machine

/-! ## What the effects leave of the rings -/

theorem writeEffect_frame (v : Byte) (s : State) :
    writeEffect v s =
      { s with
        tx := (writeEffect v s).tx, dir := (writeEffect v s).dir, ie := (writeEffect v s).ie, txs := (writeEffect v s).txs,
        res := (writeEffect v s).res } := by
  unfold writeEffect
  split
  · exact s.acceptByte_frame v
  · rfl

theorem tryWriteEffect_frame (v : Byte) (s : State) :
    tryWriteEffect v s =
      { s with
        tx := (tryWriteEffect v s).tx, dir := (tryWriteEffect v s).dir, ie := (tryWriteEffect v s).ie,
        txs := (tryWriteEffect v s).txs, res := (tryWriteEffect v s).res } := by
  unfold tryWriteEffect
  split
  · rfl
  · exact s.acceptByte_frame v

theorem writeEffect_open {s : State} (v : Byte) (h : s.isOpen = true) : writeEffect v s = s.acceptByte v := by
  simp [writeEffect, h]

theorem writeEffect_closed {s : State} (v : Byte) (h : s.isOpen = false) : writeEffect v s = { s with res := 0 } := by
  simp [writeEffect, h]

theorem tryWriteEffect_room {s : State} (v : Byte) (h : (s.isOpen && !s.txFull) = true) :
    tryWriteEffect v s = s.acceptByte v := by
  obtain ⟨hopen, hroom⟩ : s.isOpen = true ∧ s.txFull = false := by simpa using h
  simp [tryWriteEffect, hopen, hroom]

theorem tryWriteEffect_noRoom {s : State} (v : Byte) (h : (s.isOpen && !s.txFull) = false) :
    tryWriteEffect v s = { s with res := 0 } := by
  have hrejects : (!s.isOpen || s.txFull) = true := by simpa [imp_iff_not_or] using h
  simp only [tryWriteEffect, hrejects, if_true]

theorem receiveComplete_none {s : State} (h : s.rdr = none) : receiveComplete s = s := by simp [receiveComplete, h]

/-- ISR_RXC's body writes the receive side only. -/
theorem receiveComplete_receiveSide (s : State) :
    receiveComplete s =
      { s with
        rx := (receiveComplete s).rx, rdr := (receiveComplete s).rdr, ovr := (receiveComplete s).ovr, fe := (receiveComplete s).fe,
        pe := (receiveComplete s).pe } := by
  cases hrdr : s.rdr with
  | none => rw [receiveComplete_none hrdr]
  | some f => rw [receiveComplete_frame hrdr, State.pushRx_frame]

theorem dataRegisterEmpty_tx (s : State) : (dataRegisterEmpty s).tx = (s.tx.pop s.params.txCap).2 := by
  cases hempty : s.tx.isEmpty with
  | false => rw [dataRegisterEmpty_byte hempty, Ring.pop_nonempty hempty]
  | true => rw [dataRegisterEmpty_empty hempty, Ring.pop_empty hempty]

theorem effectOf_rx {i : Instr} (s : State) (hopen : ∀ baud p st d, i ≠ .openUart baud p st d) (hclose : i ≠ .close)
    (hread : i ≠ .read) (hrxc : i ≠ .isrRxc) : (effectOf i s).rx = s.rx := by
  cases i with
  | openUart baud p st d => exact absurd rfl (hopen baud p st d)
  | close => exact absurd rfl hclose
  | read => exact absurd rfl hread
  | isrRxc => exact absurd rfl hrxc
  | write v => exact (congrArg State.rx (writeEffect_frame v s) :)
  | tryWrite v => exact (congrArg State.rx (tryWriteEffect_frame v s) :)
  | isrDre => exact (congrArg State.rx (dataRegisterEmpty_frame s) :)
  | uartRx b fe pe => exact (congrArg State.rx (frameArrives_frame b fe pe s) :)
  | uartTxLoad => exact (congrArg State.rx (loadShiftRegister_frame s) :)
  | uartTxDone => exact (congrArg State.rx (frameLeaves_frame s) :)
  | _ => rfl

theorem effectOf_tx {i : Instr} (s : State) (hopen : ∀ baud p st d, i ≠ .openUart baud p st d) (hclose : i ≠ .close)
    (hwrite : ∀ v, i ≠ .write v) (htryWrite : ∀ v, i ≠ .tryWrite v) (hdre : i ≠ .isrDre) : (effectOf i s).tx = s.tx := by
  cases i with
  | openUart baud p st d => exact absurd rfl (hopen baud p st d)
  | close => exact absurd rfl hclose
  | write v => exact absurd rfl (hwrite v)
  | tryWrite v => exact absurd rfl (htryWrite v)
  | isrDre => exact absurd rfl hdre
  | isrRxc => exact (congrArg State.tx (receiveComplete_receiveSide s) :)
  | uartRx b fe pe => exact (congrArg State.tx (frameArrives_frame b fe pe s) :)
  | uartTxLoad => exact (congrArg State.tx (loadShiftRegister_frame s) :)
  | uartTxDone => exact (congrArg State.tx (frameLeaves_frame s) :)
  | _ => rfl

/-! ## Rings that differ outside their occupied slots (R53) -/

/-- The same indices and the same bytes in the occupied slots. -/
structure Ring.SameSlots (n : Nat) (r q : Ring) : Prop where
  head : q.head = r.head
  tail : q.tail = r.tail
  contents : q.contents n = r.contents n

section
variable {n : Nat} {r q : Ring} (h : Ring.SameSlots n r q)
include h

theorem Ring.SameSlots.count : q.count n = r.count n := by simp [Ring.count, h.head, h.tail]

theorem Ring.SameSlots.isFull : q.isFull n = r.isFull n := by simp [Ring.isFull, h.count]

theorem Ring.SameSlots.isEmpty : q.isEmpty = r.isEmpty := by simp [Ring.isEmpty, h.head, h.tail]

theorem Ring.SameSlots.push (hr : r.wf n = true) (hq : q.wf n = true) (b : Byte) :
    Ring.SameSlots n (r.push n b).2 (q.push n b).2 := by
  cases hfull : r.isFull n with
  | true =>
    rw [Ring.push_full b hfull, Ring.push_full b (h.isFull.trans hfull)]
    exact h
  | false =>
    have hfull' := h.isFull.trans hfull
    have hcontents : (q.push n b).2.contents n = (r.push n b).2.contents n := by
      rw [Ring.contents_push hq b hfull', Ring.contents_push hr b hfull, h.contents]
    rw [Ring.push_room b hfull, Ring.push_room b hfull'] at hcontents ⊢
    exact ⟨h.head, congrArg (Ring.adv n) h.tail, hcontents⟩

/-- The oldest byte is in an occupied slot, and so are the bytes behind it. -/
theorem Ring.SameSlots.oldest (hr : r.wf n = true) (hq : q.wf n = true) (hempty : r.isEmpty = false) :
    Memory.read q.store q.head = Memory.read r.store r.head ∧ Ring.SameSlots n (r.dropOldest n) (q.dropOldest n) := by
  have hcontents := h.contents
  rw [Ring.contents_advance hr hempty, Ring.contents_advance hq (h.isEmpty.trans hempty)] at hcontents
  obtain ⟨hread, hrest⟩ := List.cons.inj hcontents
  exact ⟨hread, congrArg (Ring.adv n) h.head, h.tail, hrest⟩

theorem Ring.SameSlots.pop (hr : r.wf n = true) (hq : q.wf n = true) :
    (q.pop n).1 = (r.pop n).1 ∧ Ring.SameSlots n (r.pop n).2 (q.pop n).2 := by
  cases hempty : r.isEmpty with
  | true =>
    rw [Ring.pop_empty hempty, Ring.pop_empty (h.isEmpty.trans hempty)]
    exact ⟨rfl, h⟩
  | false =>
    obtain ⟨hread, hrest⟩ := h.oldest hr hq hempty
    rw [Ring.pop_nonempty hempty, Ring.pop_nonempty (h.isEmpty.trans hempty)]
    exact ⟨congrArg some hread, hrest⟩

end

theorem Ring.SameSlots.reset (n : Nat) (r q : Ring) : Ring.SameSlots n r.reset q.reset := ⟨rfl, rfl, by simp⟩

/-- A full ring holds a byte, since it has at least two slots (R10). -/
theorem Ring.nonempty_of_full {n : Nat} {r : Ring} (h : r.wf n = true) (hn : 2 ≤ n) (hfull : r.isFull n = true) :
    r.isEmpty = false := by
  rw [Bool.eq_false_iff, Ne, Ring.isEmpty_iff, ← Ring.count_zero_iff h, Ring.isFull_iff.mp hfull]
  omega

/-! ## States that differ outside the occupied slots -/

/-- The same state with other rings. -/
def State.withRings (s : State) (r q : Ring) : State := { s with rx := r, tx := q }

theorem SameView.of_eq {s t : State} {r q : Ring} (ht : t = s.withRings r q) (hrx : Ring.SameSlots s.params.rxCap s.rx r)
    (htx : Ring.SameSlots s.params.txCap s.tx q) : SameView s t := by
  subst ht
  refine ⟨?_, hrx.contents.symm, htx.contents.symm⟩
  simp [State.withRings, hrx.head, hrx.tail, htx.head, htx.tail]

/-- `SameView` in terms of the rings alone. -/
theorem SameView.exists_rings {s t : State} (h : SameView s t) :
    ∃ r q, t = s.withRings r q ∧ Ring.SameSlots s.params.rxCap s.rx r ∧ Ring.SameSlots s.params.txCap s.tx q := by
  obtain ⟨hstate, hrx, htx⟩ := h
  have hparams : s.params = t.params := (congrArg State.params hstate :)
  rw [← hparams] at hrx htx
  refine ⟨t.rx, t.tx, (congrArg (fun u : State => u.withRings t.rx t.tx) hstate.symm :), ⟨?_, ?_, hrx.symm⟩, ?_, ?_, htx.symm⟩
  · exact (congrArg (fun u : State => u.rx.head) hstate.symm :)
  · exact (congrArg (fun u : State => u.rx.tail) hstate.symm :)
  · exact (congrArg (fun u : State => u.tx.head) hstate.symm :)
  · exact (congrArg (fun u : State => u.tx.tail) hstate.symm :)

theorem SameView.refl (s : State) : SameView s s := ⟨rfl, rfl, rfl⟩

theorem State.acceptByte_withRings (s : State) (v : Byte) (r q : Ring) :
    (s.withRings r q).acceptByte v = (s.acceptByte v).withRings r (q.push s.params.txCap v).2 := by
  cases htxs : s.txs <;> simp [State.acceptByte, State.startBurst, State.assertTransmit, State.withRings, htxs]

theorem frameArrives_withRings (b : Byte) (fe pe : Bool) (s : State) (r q : Ring) :
    frameArrives b fe pe (s.withRings r q) = (frameArrives b fe pe s).withRings r q := by
  cases hopen : s.isOpen <;> cases hrdr : s.rdr <;> simp [frameArrives, State.withRings, hopen, hrdr]

theorem loadShiftRegister_withRings (s : State) (r q : Ring) :
    loadShiftRegister (s.withRings r q) = (loadShiftRegister s).withRings r q := by
  cases hudr : s.udr <;> simp [loadShiftRegister, State.withRings, hudr]

theorem frameLeaves_withRings (s : State) (r q : Ring) : frameLeaves (s.withRings r q) = (frameLeaves s).withRings r q := by
  cases htsr : s.tsr <;> simp [frameLeaves, State.withRings, htsr]

/-- Taking the frame out of RDR, with its errors, keeps the invariant (R131). -/
theorem State.Inv.takeFrame {s : State} (h : s.Inv) {f : RxFrame} (hrdr : s.rdr = some f) :
    ({ s with rdr := none, fe := s.fe || f.fe, pe := s.pe || f.pe } : State).Inv :=
  { h with closed := fun e => absurd ((h.isOpen_of_rdr hrdr).symm.trans e) nofun, rdr := nofun }

/-! ## No effect observes an unoccupied slot

`s.withRings r q` is the state that differs from `s` outside the occupied slots. -/

section
variable {s : State} {r q : Ring} (hs : s.Inv) (ht : (s.withRings r q).Inv) (hrx : Ring.SameSlots s.params.rxCap s.rx r)
  (htx : Ring.SameSlots s.params.txCap s.tx q)

include htx in
theorem State.holds_withRings (i : Instr) : (s.withRings r q).holds i = s.holds i := by
  cases i with
  | write v => exact congrArg (s.isOpen && ·) htx.isFull
  | _ => rfl

theorem State.ready_withRings (i : Instr) : (s.withRings r q).ready i = s.ready i := by
  cases i <;> rfl

include hrx htx

/-- An effect that neither reads nor writes a ring. -/
theorem effectOf_sameView_of_commutes {i : Instr} (hcommutes : effectOf i (s.withRings r q) = (effectOf i s).withRings r q)
    (hrxKept : (effectOf i s).rx = s.rx) (htxKept : (effectOf i s).tx = s.tx) :
    SameView (effectOf i s) (effectOf i (s.withRings r q)) :=
  .of_eq hcommutes (by rwa [effectOf_params, hrxKept]) (by rwa [effectOf_params, htxKept])

include hs ht

theorem State.acceptByte_sameView (v : Byte) : SameView (s.acceptByte v) ((s.withRings r q).acceptByte v) := by
  refine .of_eq (s.acceptByte_withRings v r q) ?_ ?_
  · rw [State.acceptByte_frame]
    exact hrx
  · rw [State.acceptByte_params, State.acceptByte_tx]
    exact htx.push hs.tx ht.tx v

theorem State.pushRx_sameView (b : Byte) : SameView (s.pushRx b) ((s.withRings r q).pushRx b) := by
  cases hfull : s.rx.isFull s.params.rxCap with
  | false =>
    rw [State.pushRx_room b hfull, State.pushRx_room (s := s.withRings r q) b (hrx.isFull.trans hfull)]
    exact .of_eq rfl (hrx.push hs.rx ht.rx b) htx
  | true =>
    have hfull' := hrx.isFull.trans hfull
    cases hpolicy : s.params.rxOverrunPolicy with
    | dropNewest =>
      rw [State.pushRx_dropNewest b hfull hpolicy, State.pushRx_dropNewest (s := s.withRings r q) b hfull' hpolicy]
      exact .of_eq rfl hrx htx
    | overwriteOldest =>
      obtain ⟨hcap, -⟩ := Params.wf_iff.mp hs.params
      obtain ⟨-, hdropped⟩ := hrx.oldest hs.rx ht.rx (Ring.nonempty_of_full hs.rx hcap hfull)
      rw [State.pushRx_overwriteOldest b hfull hpolicy, State.pushRx_overwriteOldest (s := s.withRings r q) b hfull' hpolicy]
      exact .of_eq rfl (hdropped.push (Ring.wf_dropOldest hs.rx) (Ring.wf_dropOldest ht.rx) b) htx

/-- ISR_RXC's body is push_rx in the state that has taken the frame (R131). -/
theorem receiveComplete_sameView : SameView (receiveComplete s) (receiveComplete (s.withRings r q)) := by
  cases hrdr : s.rdr with
  | none =>
    rw [receiveComplete_none hrdr, receiveComplete_none (s := s.withRings r q) hrdr]
    exact .of_eq rfl hrx htx
  | some f =>
    rw [receiveComplete_frame hrdr, receiveComplete_frame (s := s.withRings r q) hrdr]
    exact State.pushRx_sameView (hs.takeFrame hrdr) (ht.takeFrame hrdr) hrx htx f.b

theorem dataRegisterEmpty_sameView : SameView (dataRegisterEmpty s) (dataRegisterEmpty (s.withRings r q)) := by
  cases hempty : s.tx.isEmpty with
  | true =>
    rw [dataRegisterEmpty_empty hempty, dataRegisterEmpty_empty (s := s.withRings r q) (htx.isEmpty.trans hempty)]
    exact .of_eq rfl hrx htx
  | false =>
    obtain ⟨hread, hrest⟩ := htx.oldest hs.tx ht.tx hempty
    rw [dataRegisterEmpty_byte hempty, dataRegisterEmpty_byte (s := s.withRings r q) (htx.isEmpty.trans hempty)]
    exact .of_eq (by simp [State.withRings, Ring.dropOldest, hread]) hrx hrest

theorem effectOf_sameView (i : Instr) : SameView (effectOf i s) (effectOf i (s.withRings r q)) := by
  cases i with
  | openUart baud p st d =>
    cases d with
    | nine => exact .of_eq rfl hrx htx
    | _ => exact .of_eq rfl (.reset _ _ _) (.reset _ _ _)
  | close => exact .of_eq rfl (.reset _ _ _) (.reset _ _ _)
  | write v =>
    show SameView (writeEffect v s) (writeEffect v (s.withRings r q))
    cases hopen : s.isOpen with
    | true =>
      rw [writeEffect_open v hopen, writeEffect_open (s := s.withRings r q) v hopen]
      exact State.acceptByte_sameView hs ht hrx htx v
    | false =>
      rw [writeEffect_closed v hopen, writeEffect_closed (s := s.withRings r q) v hopen]
      exact .of_eq rfl hrx htx
  | tryWrite v =>
    show SameView (tryWriteEffect v s) (tryWriteEffect v (s.withRings r q))
    have hsame : (s.isOpen && !(s.withRings r q).txFull) = (s.isOpen && !s.txFull) := congrArg (s.isOpen && !·) htx.isFull
    cases hroom : s.isOpen && !s.txFull with
    | true =>
      rw [tryWriteEffect_room v hroom, tryWriteEffect_room (s := s.withRings r q) v (hsame.trans hroom)]
      exact State.acceptByte_sameView hs ht hrx htx v
    | false =>
      rw [tryWriteEffect_noRoom v hroom, tryWriteEffect_noRoom (s := s.withRings r q) v (hsame.trans hroom)]
      exact .of_eq rfl hrx htx
  | read =>
    obtain ⟨hbyte, hrest⟩ := hrx.pop hs.rx ht.rx
    exact .of_eq (by simp [effectOf, State.withRings, hbyte]) hrest htx
  | peek =>
    have hbyte : r.peek = s.rx.peek := by
      rw [Ring.peek_eq_pop s.params.rxCap, Ring.peek_eq_pop s.params.rxCap]
      exact (hrx.pop hs.rx ht.rx).1
    exact .of_eq (by simp [effectOf, State.withRings, hbyte]) hrx htx
  | available =>
    have hlen : r.len s.params.rxCap = s.rx.len s.params.rxCap := hrx.count
    exact .of_eq (by simp [effectOf, State.withRings, hlen]) hrx htx
  | isrRxc => exact receiveComplete_sameView hs ht hrx htx
  | isrDre => exact dataRegisterEmpty_sameView hs ht hrx htx
  | uartRx b fe pe =>
    exact effectOf_sameView_of_commutes hrx htx (frameArrives_withRings b fe pe s r q) (effectOf_rx s nofun nofun nofun nofun)
      (effectOf_tx s nofun nofun nofun nofun nofun)
  | uartTxLoad =>
    exact effectOf_sameView_of_commutes hrx htx (loadShiftRegister_withRings s r q) (effectOf_rx s nofun nofun nofun nofun)
      (effectOf_tx s nofun nofun nofun nofun nofun)
  | uartTxDone =>
    exact effectOf_sameView_of_commutes hrx htx (frameLeaves_withRings s r q) (effectOf_rx s nofun nofun nofun nofun)
      (effectOf_tx s nofun nofun nofun nofun nofun)
  | _ => exact .of_eq rfl hrx htx

end

/-! ## No step observes an unoccupied slot -/

theorem SameOutcome.whenRunning {s t : State} {o o' : Host.Outcome State Fault Refusal} (hstop : t.stop = s.stop)
    (h : SameOutcome o o') : SameOutcome (s.whenRunning o) (t.whenRunning o') := by
  unfold State.whenRunning
  rw [hstop]
  split
  · exact h
  · exact rfl
  · exact rfl

theorem exec_sameOutcome (i : Instr) {s t : State} (hs : s.Inv) (ht : t.Inv) (h : SameView s t) :
    SameOutcome (exec i s) (exec i t) := by
  obtain ⟨r, q, rfl, hrx, htx⟩ := h.exists_rings
  rw [exec_eq_attempt, exec_eq_attempt]
  refine SameOutcome.whenRunning rfl ?_
  rw [State.holds_withRings htx, State.ready_withRings]
  cases s.holds i with
  | true => exact h
  | false =>
    cases s.ready i with
    | true => exact effectOf_sameView hs ht hrx htx i
    | false => exact rfl

theorem SameView.takeWord {s t : State} (h : SameView s t) (p : Port) : SameView (s.takeWord p) (t.takeWord p) := by
  obtain ⟨r, q, rfl, hrx, htx⟩ := h.exists_rings
  cases p <;> exact .of_eq rfl hrx htx

theorem SameView.fetched {s t : State} (h : SameView s t) (i : Instr) : SameView (s.fetched i) (t.fetched i) := by
  obtain ⟨r, q, rfl, hrx, htx⟩ := h.exists_rings
  unfold State.fetched
  rw [State.holds_withRings htx]
  split
  · exact .of_eq rfl hrx htx
  · exact h.takeWord i.port

theorem SameView.raiseIllegal {s t : State} (h : SameView s t) (w : Word) : SameView (s.raiseIllegal w) (t.raiseIllegal w) := by
  obtain ⟨r, q, rfl, hrx, htx⟩ := h.exists_rings
  exact .of_eq rfl hrx htx

/-- Settles O21: the two states find the same thing to do, and each of the things a step can do keeps `SameView`. -/
theorem unoccupiedStorageIsNeverObserved : Obligations.UnoccupiedStorageIsNeverObserved := by
  intro s t hs ht h
  have hs := State.inv_iff.mp hs
  have ht := State.inv_iff.mp ht
  obtain ⟨r, q, rfl, hrx, htx⟩ := h.exists_rings
  have hrequest : (s.withRings r q).request = s.request := rfl
  unfold step
  rw [hrequest]
  split
  · exact SameView.refl _
  · exact SameOutcome.whenRunning rfl (SameView.of_eq rfl hrx htx)
  · next p w _ =>
    split
    · exact SameOutcome.whenRunning rfl ((h.takeWord p).raiseIllegal w)
    · next i _ => exact exec_sameOutcome i (hs.fetched i) (ht.fetched i) (h.fetched i)

/-! ## Who writes the ring indices (R57) -/

@[simp] theorem Ring.push_head (n : Nat) (r : Ring) (b : Byte) : (r.push n b).2.head = r.head := by
  unfold Ring.push
  split <;> rfl

@[simp] theorem Ring.pop_tail (n : Nat) (r : Ring) : (r.pop n).2.tail = r.tail := by
  unfold Ring.pop
  split <;> rfl

theorem writeEffect_txHead (v : Byte) (s : State) : (writeEffect v s).tx.head = s.tx.head := by
  cases hopen : s.isOpen with
  | true => simp [writeEffect_open v hopen]
  | false => rw [writeEffect_closed v hopen]

theorem tryWriteEffect_txHead (v : Byte) (s : State) : (tryWriteEffect v s).tx.head = s.tx.head := by
  cases hroom : s.isOpen && !s.txFull with
  | true => simp [tryWriteEffect_room v hroom]
  | false => rw [tryWriteEffect_noRoom v hroom]

/-- push_rx moves the head only to drop the oldest byte (R105). -/
theorem State.pushRx_head {s : State} (b : Byte) (h : s.params.rxOverrunPolicy = .dropNewest) :
    (s.pushRx b).rx.head = s.rx.head := by
  cases hfull : s.rx.isFull s.params.rxCap with
  | false => simp [State.pushRx_room b hfull]
  | true => rw [State.pushRx_dropNewest b hfull h]

theorem receiveComplete_rxHead {s : State} (h : s.params.rxOverrunPolicy = .dropNewest) :
    (receiveComplete s).rx.head = s.rx.head := by
  cases hrdr : s.rdr with
  | none => rw [receiveComplete_none hrdr]
  | some f =>
    rw [receiveComplete_frame hrdr]
    exact State.pushRx_head f.b h

section
variable {i : Instr} {s : State} (hopen : ∀ baud p st d, i ≠ .openUart baud p st d) (hclose : i ≠ .close)
include hopen hclose

theorem rxTail_writer (h : (effectOf i s).rx.tail ≠ s.rx.tail) : i = .isrRxc := by
  by_contra hrxc
  by_cases hread : i = .read
  · subst hread
    exact h (Ring.pop_tail _ _)
  · exact h (congrArg Ring.tail (effectOf_rx s hopen hclose hread hrxc))

theorem rxHead_writer (h : (effectOf i s).rx.head ≠ s.rx.head) :
    i = .read ∨ (i = .isrRxc ∧ s.params.rxOverrunPolicy = .overwriteOldest) := by
  by_cases hread : i = .read
  · exact .inl hread
  · by_cases hrxc : i = .isrRxc
    · subst hrxc
      cases hpolicy : s.params.rxOverrunPolicy with
      | dropNewest => exact absurd (receiveComplete_rxHead hpolicy) h
      | overwriteOldest => exact .inr ⟨rfl, rfl⟩
    · exact absurd (congrArg Ring.head (effectOf_rx s hopen hclose hread hrxc)) h

theorem txTail_writer (h : (effectOf i s).tx.tail ≠ s.tx.tail) : ∃ v, i = .write v ∨ i = .tryWrite v := by
  by_contra hwrite
  by_cases hdre : i = .isrDre
  · subst hdre
    exact h ((congrArg Ring.tail (dataRegisterEmpty_tx s)).trans (Ring.pop_tail _ _))
  · exact h (congrArg Ring.tail
      (effectOf_tx s hopen hclose (fun v e => hwrite ⟨v, .inl e⟩) (fun v e => hwrite ⟨v, .inr e⟩) hdre))

theorem txHead_writer (h : (effectOf i s).tx.head ≠ s.tx.head) : i = .isrDre := by
  by_contra hdre
  refine h (congrArg Ring.head (effectOf_tx s hopen hclose ?_ ?_ hdre))
  · rintro v rfl
    exact h (writeEffect_txHead v s)
  · rintro v rfl
    exact h (tryWriteEffect_txHead v s)

end

/-- Settles O44, index by index. -/
theorem eachIndexHasOneWriter : Obligations.EachIndexHasOneWriter := by
  intro i s t hexec hopen hclose
  obtain ⟨-, ⟨-, rfl⟩ | ⟨-, -, rfl⟩⟩ := exec_next.mp hexec
  · exact ⟨absurd rfl, absurd rfl, absurd rfl, absurd rfl⟩
  · exact ⟨rxTail_writer hopen hclose, rxHead_writer hopen hclose, txTail_writer hopen hclose, txHead_writer hopen hclose⟩

/-! ## Repeated commands (R60) -/

/-- What `exec` answers for a command that is not held. -/
theorem exec_notHeld {i : Instr} {s t : State} (hholds : s.holds i = false) (h : exec i s = .next t) :
    s.stop = .running ∧ t = effectOf i s := by
  obtain ⟨hstop, ⟨hheld, -⟩ | ⟨-, -, ht⟩⟩ := exec_next.mp h
  · rw [hholds] at hheld
    cases hheld
  · exact ⟨hstop, ht⟩

/-- Clearing the sticky flags clears bits 3:0 of the status byte and keeps the others (R33). -/
theorem statusByte_clearSticky_getLsbD (s : State) (k : Nat) :
    s.clearSticky.statusByte.getLsbD k = (decide (4 ≤ k) && s.statusByte.getLsbD k) := by
  by_cases hk : k < 8
  · simp only [State.statusByte, BitVec.getLsbD_append]
    interval_cases k <;> simp
  · rw [BitVec.getLsbD_of_ge _ k (by omega), BitVec.getLsbD_of_ge _ k (by omega), Bool.and_false]

theorem statusResult_clearSticky_high (s : State) :
    (statusResult s.clearSticky.statusByte).extractLsb' 4 28 = (statusResult s.statusByte).extractLsb' 4 28 := by
  refine BitVec.eq_of_getLsbD_eq fun k hk => ?_
  simp [statusResult, statusByte_clearSticky_getLsbD]

theorem statusResult_clearSticky_low (s : State) : (statusResult s.clearSticky.statusByte).extractLsb' 0 4 = 0 := by
  refine BitVec.eq_of_getLsbD_eq fun k hk => ?_
  simp [statusResult, statusByte_clearSticky_getLsbD, hk]

theorem closeEffect_closeEffect (s : State) : closeEffect (closeEffect s) = closeEffect s := rfl

/-- Settles O47: what PEEK, AVAILABLE and STATUS answer is not what they write, and CLOSE and FLUSH leave the transmit state as it is. -/
theorem repeatedQueriesAnswerTheSame : Obligations.RepeatedQueriesAnswerTheSame := by
  intro s t u _
  refine ⟨fun ht hu => ?_, fun ht hu => ?_, fun ht hu => ?_, fun hholds ht => ?_, fun hholds ht => ?_⟩
  · obtain ⟨-, rfl⟩ := exec_notHeld rfl ht
    obtain ⟨-, rfl⟩ := exec_notHeld rfl hu
    rfl
  · obtain ⟨-, rfl⟩ := exec_notHeld rfl ht
    obtain ⟨-, rfl⟩ := exec_notHeld rfl hu
    rfl
  · obtain ⟨-, rfl⟩ := exec_notHeld rfl ht
    obtain ⟨-, rfl⟩ := exec_notHeld rfl hu
    exact ⟨statusResult_clearSticky_high s, statusResult_clearSticky_low s⟩
  · obtain ⟨hstop, rfl⟩ := exec_notHeld hholds ht
    have hagain : (closeEffect s).enabled .close = true := State.enabled_iff.mpr ⟨hstop, hholds, rfl⟩
    exact ⟨(exec_enabled hagain).trans (congrArg _ (closeEffect_closeEffect s)), hholds⟩
  · obtain ⟨-, rfl⟩ := exec_notHeld hholds ht
    exact ⟨ht, hholds⟩

/-! ## The transmit path (R62) -/

theorem State.outgoing_of_empty {s : State} (htx : s.tx.contents s.params.txCap = []) (hudr : s.udr = none) (htsr : s.tsr = none) :
    s.outgoing = s.wire.map fun r => r.b := by
  simp [State.outgoing, State.inFlight, htx, hudr, htsr]

/-- At Idle nothing is in flight (R44). -/
theorem State.Inv.outgoing_idle {s : State} (h : s.Inv) (hidle : s.txs = .idle) : s.outgoing = s.wire.map fun r => r.b := by
  obtain ⟨hempty, hudr, htsr, -⟩ := h.idle hidle
  exact State.outgoing_of_empty (Ring.contents_empty h.tx hempty) hudr htsr

section
variable {s : State} (h : s.Inv)
include h

/-- OPEN finds nothing in flight, so what it does to the TX ring and to CFG loses and changes no byte. -/
theorem State.Inv.openEffect_outgoing (baud : BitVec 22) (p : Parity) (st : StopBits) (d : FrameBits) (hidle : s.txs = .idle) :
    (Machine.openEffect baud p st d s).outgoing = s.outgoing := by
  obtain ⟨-, hudr, htsr, -⟩ := h.idle hidle
  rw [h.outgoing_idle hidle]
  exact State.outgoing_of_empty (Ring.contents_reset _ _) hudr htsr

theorem State.Inv.closeEffect_outgoing (hidle : s.txs = .idle) : (Machine.closeEffect s).outgoing = s.outgoing := by
  obtain ⟨-, hudr, htsr, -⟩ := h.idle hidle
  rw [h.outgoing_idle hidle]
  exact State.outgoing_of_empty (Ring.contents_reset _ _) hudr htsr

theorem State.Inv.acceptByte_outgoing (v : Byte) (hroom : s.txFull = false) :
    (s.acceptByte v).outgoing = s.outgoing ++ [onWire s.cfg v] := by
  have hpush := Ring.contents_push h.tx v hroom
  rw [State.acceptByte_frame]
  simp [State.outgoing, State.inFlight, hpush]

/-- ISR_DRE moves the ring's oldest byte into the empty UDR (R132). -/
theorem State.Inv.dataRegisterEmpty_outgoing (hudr : s.udr = none) : (Machine.dataRegisterEmpty s).outgoing = s.outgoing := by
  cases hempty : s.tx.isEmpty with
  | true => rw [dataRegisterEmpty_empty hempty]; rfl
  | false =>
    rw [dataRegisterEmpty_byte hempty]
    simp [State.outgoing, State.inFlight, hudr, Ring.contents_advance h.tx hempty, Ring.dropOldest]

end

/-- UART_TX_LOAD moves the byte of UDR into the empty TSR (R191). -/
theorem loadShiftRegister_outgoing {s : State} {b : Byte} (hudr : s.udr = some b) (htsr : s.tsr = none) :
    (loadShiftRegister s).outgoing = s.outgoing := by
  rw [loadShiftRegister_byte hudr]
  simp [State.outgoing, State.inFlight, hudr, htsr]

/-- UART_TX_DONE moves the byte of TSR to the wire, masked (R192, R193). -/
theorem frameLeaves_outgoing {s : State} {e : ShiftEntry} (htsr : s.tsr = some e) : (frameLeaves s).outgoing = s.outgoing := by
  rw [frameLeaves_entry htsr]
  simp [State.outgoing, State.inFlight, htsr]

/-- A held command accepts no byte: WRITE, the only one that could, holds on a full ring (R158). -/
theorem State.accepted_of_holds {s : State} {i : Instr} (h : s.holds i = true) : s.accepted i = [] := by
  cases i with
  | write v =>
    obtain ⟨-, hfull⟩ : s.isOpen = true ∧ s.txFull = true := Bool.and_eq_true_iff.mp h
    simp [State.accepted, hfull]
  | tryWrite v => cases h
  | _ => rfl

/-- Settles O19. The enabling condition of a step says that the place it moves a byte into is free, or that nothing is in flight. -/
theorem theTransmitPathLosesNothing : Obligations.TheTransmitPathLosesNothing := by
  intro i s t hinv hexec
  have h := State.inv_iff.mp hinv
  obtain ⟨-, ⟨hheld, rfl⟩ | ⟨hholds, hready, rfl⟩⟩ := exec_next.mp hexec
  · rw [State.accepted_of_holds hheld, List.append_nil]
  · have kept (u : State) (hu : u.outgoing = s.outgoing) : u.outgoing = s.outgoing ++ [] := hu.trans (List.append_nil _).symm
    cases i with
    | write v =>
      show (writeEffect v s).outgoing = s.outgoing ++ if s.isOpen && !s.txFull then [onWire s.cfg v] else []
      cases hopen : s.isOpen with
      | true =>
        have hroom : s.txFull = false := by simpa [State.holds, hopen] using hholds
        simpa [writeEffect_open v hopen, hroom] using h.acceptByte_outgoing v hroom
      | false => simp [writeEffect_closed v hopen, State.outgoing, State.inFlight]
    | tryWrite v =>
      show (tryWriteEffect v s).outgoing = s.outgoing ++ if s.isOpen && !s.txFull then [onWire s.cfg v] else []
      cases hroom : s.isOpen && !s.txFull with
      | true =>
        rw [tryWriteEffect_room v hroom]
        exact h.acceptByte_outgoing v (by simpa using (Bool.and_eq_true_iff.mp hroom).2)
      | false => simp [tryWriteEffect_noRoom v hroom, State.outgoing, State.inFlight]
    | openUart baud p st d =>
      have hidle : (dataBitsToFrame d).isSome = true → s.txs = .idle := fun hd => by
        simpa [State.holds, State.txInProgress, hd] using hholds
      cases d with
      | nine => exact kept _ rfl
      | _ => exact kept _ (h.openEffect_outgoing baud p st _ (hidle rfl))
    | close => exact kept _ (h.closeEffect_outgoing (by simpa [State.holds, State.txInProgress] using hholds))
    | isrDre =>
      obtain ⟨hudr, -⟩ := State.pending_dre_iff.mp (State.pending_of_vectorEnabled hready)
      exact kept _ (h.dataRegisterEmpty_outgoing hudr)
    | uartTxLoad =>
      obtain ⟨hudr, htsr⟩ := Bool.and_eq_true_iff.mp hready
      obtain ⟨b, hudr⟩ := Option.isSome_iff_exists.mp hudr
      exact kept _ (loadShiftRegister_outgoing hudr (Option.isNone_iff_eq_none.mp htsr))
    | uartTxDone =>
      obtain ⟨e, htsr⟩ := Option.isSome_iff_exists.mp hready
      exact kept _ (frameLeaves_outgoing htsr)
    | isrRxc => exact kept _ (congrArg State.outgoing (receiveComplete_receiveSide s) :)
    | uartRx b fe pe => exact kept _ (congrArg State.outgoing (frameArrives_frame b fe pe s) :)
    | _ => exact kept _ rfl

theorem SentRun.inv {sent : List Byte} {s : State} (h : SentRun sent s) : s.Inv := by
  induction h with
  | reset p hp => exact State.Inv.resetWith hp
  | step i sent s t _ hagent ih =>
    obtain ⟨hwf, -, hexec⟩ := hagent
    exact ih.exec hwf hexec

/-- Along a run, the outgoing bytes are those accepted so far. -/
theorem SentRun.outgoing {sent : List Byte} {s : State} (h : SentRun sent s) : s.outgoing = sent := by
  induction h with
  | reset p hp => exact (State.Inv.resetWith hp).outgoing_idle rfl
  | step i sent s t hrun hagent ih =>
    obtain ⟨-, -, hexec⟩ := hagent
    rw [theTransmitPathLosesNothing i s t (State.inv_iff.mpr hrun.inv) hexec, ih]

/-- Settles O18: the wire is the part of the outgoing bytes that has left the line, and all of it when nothing is in flight. -/
theorem theWireCarriesTheAcceptedBytesInOrder : Obligations.TheWireCarriesTheAcceptedBytesInOrder := by
  intro sent s hrun
  refine ⟨⟨_, hrun.outgoing⟩, fun hidle => ?_⟩
  rw [← hrun.inv.outgoing_idle hidle, hrun.outgoing]

/-! ## The receive path (R63) -/

theorem State.pushRx_contents_dropNewest {s : State} (b : Byte) (hfull : s.rx.isFull s.params.rxCap = true)
    (hpolicy : s.params.rxOverrunPolicy = .dropNewest) :
    (s.pushRx b).rx.contents s.params.rxCap = s.rx.contents s.params.rxCap := by
  rw [State.pushRx_dropNewest b hfull hpolicy]

section
variable {s : State} (h : s.Inv)
include h

theorem State.Inv.pushRx_contents_room (b : Byte) (hroom : s.rx.isFull s.params.rxCap = false) :
    (s.pushRx b).rx.contents s.params.rxCap = s.rx.contents s.params.rxCap ++ [b] := by
  rw [State.pushRx_room b hroom]
  exact Ring.contents_push h.rx b hroom

/-- On a full ring `OverwriteOldest` drops the oldest byte to make room (R105). -/
theorem State.Inv.pushRx_contents_overwriteOldest (b : Byte) (hfull : s.rx.isFull s.params.rxCap = true)
    (hpolicy : s.params.rxOverrunPolicy = .overwriteOldest) :
    (s.pushRx b).rx.contents s.params.rxCap = (s.rx.contents s.params.rxCap ++ [b]).tail := by
  obtain ⟨hcap, -⟩ := Params.wf_iff.mp h.params
  rw [State.pushRx_overwriteOldest b hfull hpolicy, Ring.contents_advance h.rx (Ring.nonempty_of_full h.rx hcap hfull)]
  exact Ring.contents_push (Ring.wf_dropOldest h.rx) b (Ring.dropOldest_room h.rx hcap hfull)

end

@[simp] theorem openEffect_incoming (baud : BitVec 22) (p : Parity) (st : StopBits) (d : FrameBits) (s : State) :
    (openEffect baud p st d s).incoming = [] := by
  simp [State.incoming, openEffect]

@[simp] theorem closeEffect_incoming (s : State) : (closeEffect s).incoming = [] := by
  simp [State.incoming, closeEffect]

/-- What UART_RX does with its frame: it joins at the end, unless the block is closed or RDR is full (R190). -/
theorem frameArrives_incoming (b : Byte) (fe pe : Bool) (s : State) :
    if s.isOpen = true ∧ s.rdr = none then
      (frameArrives b fe pe s).incoming = s.incoming ++ [onWire s.cfg b] ∧ (frameArrives b fe pe s).dor = s.dor
    else
      (frameArrives b fe pe s).incoming = s.incoming ∧ (s.isOpen = true → (frameArrives b fe pe s).dor = true) := by
  cases hopen : s.isOpen with
  | false =>
    rw [frameArrives_closed b fe pe hopen, if_neg (by simp)]
    exact ⟨rfl, nofun⟩
  | true =>
    cases hrdr : s.rdr with
    | some f =>
      rw [frameArrives_lost b fe pe hopen hrdr, if_neg (by simp)]
      exact ⟨rfl, fun _ => rfl⟩
    | none =>
      rw [frameArrives_taken b fe pe hopen hrdr, if_pos ⟨rfl, rfl⟩]
      exact ⟨by simp [State.incoming, hrdr, receivedFrame], rfl⟩

/-- ISR_RXC empties RDR, so that the ring alone holds the bytes received (R131). -/
theorem receiveComplete_incoming {s : State} {f : RxFrame} (hrdr : s.rdr = some f) :
    (receiveComplete s).incoming =
      (({ s with rdr := none, fe := s.fe || f.fe, pe := s.pe || f.pe } : State).pushRx f.b).rx.contents s.params.rxCap := by
  rw [receiveComplete_frame hrdr, State.pushRx_frame]
  exact List.append_nil _

theorem receiveComplete_ovr {s : State} {f : RxFrame} (hrdr : s.rdr = some f) :
    (receiveComplete s).ovr = (s.ovr || s.rx.isFull s.params.rxCap) := by
  rw [receiveComplete_frame hrdr, State.pushRx_ovr]

/-- A full RDR holds the newest byte received. -/
theorem State.incoming_of_rdr {s : State} {f : RxFrame} (hrdr : s.rdr = some f) :
    s.incoming = s.rx.contents s.params.rxCap ++ [f.b] := by
  simp [State.incoming, hrdr]

section
variable {s : State} {f : RxFrame} (h : s.Inv) (hrdr : s.rdr = some f)
include h hrdr

theorem State.Inv.receiveComplete_incoming_room (hroom : s.rx.isFull s.params.rxCap = false) :
    (Machine.receiveComplete s).incoming = s.incoming := by
  rw [receiveComplete_incoming hrdr, State.incoming_of_rdr hrdr]
  exact (h.takeFrame hrdr).pushRx_contents_room f.b hroom

theorem State.Inv.receiveComplete_incoming_overwriteOldest (hfull : s.rx.isFull s.params.rxCap = true)
    (hpolicy : s.params.rxOverrunPolicy = .overwriteOldest) : (Machine.receiveComplete s).incoming = s.incoming.tail := by
  rw [receiveComplete_incoming hrdr, State.incoming_of_rdr hrdr]
  exact (h.takeFrame hrdr).pushRx_contents_overwriteOldest f.b hfull hpolicy

end

theorem receiveComplete_incoming_dropNewest {s : State} {f : RxFrame} (hrdr : s.rdr = some f)
    (hfull : s.rx.isFull s.params.rxCap = true) (hpolicy : s.params.rxOverrunPolicy = .dropNewest) :
    (receiveComplete s).incoming = s.rx.contents s.params.rxCap := by
  rw [receiveComplete_incoming hrdr]
  exact State.pushRx_contents_dropNewest f.b hfull hpolicy

/-- Settles O20: ISR_RXC, UART_RX, READ, OPEN and CLOSE by their own lemmas; every other effect leaves the ring and RDR alone. -/
theorem theReceivePathKeepsOrder : Obligations.TheReceivePathKeepsOrder := by
  intro i s t hinv hexec
  have h := State.inv_iff.mp hinv
  obtain ⟨-, ⟨hheld, rfl⟩ | ⟨-, hready, rfl⟩⟩ := exec_next.mp hexec
  · cases i with
    | openUart baud p st d => exact .inr ⟨rfl, .inl rfl⟩
    | close => exact .inr rfl
    | write v => exact rfl
    | flush => exact rfl
    | _ => cases hheld
  · cases i with
    | openUart baud p st d =>
      cases d with
      | nine => exact .inr ⟨rfl, .inr nofun⟩
      | _ => exact .inl (openEffect_incoming baud p st _ s)
    | close => exact .inl (closeEffect_incoming s)
    | read => exact congrArg (· ++ _) (Ring.pop_contents h.rx).2
    | uartRx b fe pe => exact frameArrives_incoming b fe pe s
    | isrRxc =>
      obtain ⟨⟨f, hrdr⟩, -⟩ := State.pending_rxc_iff.mp (State.pending_of_vectorEnabled hready)
      have hovr : (effectOf .isrRxc s).ovr = _ := receiveComplete_ovr hrdr
      cases hfull : s.rx.isFull s.params.rxCap with
      | false => exact ⟨h.receiveComplete_incoming_room hrdr hfull, by rw [hovr, hfull, Bool.or_false]⟩
      | true =>
        refine ⟨by rw [hovr, hfull, Bool.or_true], ?_⟩
        cases hpolicy : s.params.rxOverrunPolicy with
        | dropNewest => exact receiveComplete_incoming_dropNewest hrdr hfull hpolicy
        | overwriteOldest => exact h.receiveComplete_incoming_overwriteOldest hrdr hfull hpolicy
    | write v => exact (congrArg State.incoming (writeEffect_frame v s) :)
    | tryWrite v => exact (congrArg State.incoming (tryWriteEffect_frame v s) :)
    | isrDre => exact (congrArg State.incoming (dataRegisterEmpty_frame s) :)
    | uartTxLoad => exact (congrArg State.incoming (loadShiftRegister_frame s) :)
    | uartTxDone => exact (congrArg State.incoming (frameLeaves_frame s) :)
    | _ => exact rfl

end Sys2Proof.Machine

/-! SUPPORT. The statements of 30_encoding.md: the encoder and the decoder are inverse (R72 to R82, R85), the illegal words (R83), the
opcode map's match and mask (R77), foreign words (R84), and the list calls of write and try_write (R89, R90). -/

namespace Sys2Proof

/-! ## The fields of a word (R71) -/

/-- Two fields side by side, read as one field, are the one word after the other. -/
theorem append_eq_field_iff {k a m n : Nat} {w : BitVec k} {x : BitVec m} {y : BitVec n} :
    x ++ y = w.extractLsb' a (m + n) ↔ w.extractLsb' (a + n) m = x ∧ w.extractLsb' a n = y := by
  rw [← BitVec.extractLsb'_append_extractLsb'_eq_extractLsb' (start₂ := a + n) rfl]
  constructor
  · intro h
    have hhigh := congrArg (BitVec.extractLsb' n m) h
    have hlow := congrArg (BitVec.extractLsb' 0 n) h
    rw [BitVec.extractLsb'_append_eq_left, BitVec.extractLsb'_append_eq_left] at hhigh
    rw [BitVec.extractLsb'_append_eq_right, BitVec.extractLsb'_append_eq_right] at hlow
    exact ⟨hhigh.symm, hlow.symm⟩
  · rintro ⟨rfl, rfl⟩
    rfl

theorem append_eq_iff {m n : Nat} {w : BitVec (m + n)} {x : BitVec m} {y : BitVec n} :
    x ++ y = w ↔ w.extractLsb' n m = x ∧ w.extractLsb' 0 n = y := by
  have h := append_eq_field_iff (a := 0) (w := w) (x := x) (y := y)
  rwa [BitVec.extractLsb'_eq_self, Nat.zero_add] at h

theorem bit_eq_ofBool_iff {k a : Nat} {w : BitVec k} {b : Bool} : w.extractLsb' a 1 = BitVec.ofBool b ↔ w.getLsbD a = b := by
  constructor
  · intro h
    simpa using congrArg (BitVec.getLsbD · 0) h
  · rintro rfl
    refine BitVec.eq_of_getLsbD_eq fun j hj => ?_
    obtain rfl : j = 0 := by omega
    simp

/-! ## The words of each format, field by field (R72 to R76) -/

theorem formatN_eq_iff {w : Word} {op : BitVec 4} : formatN op = w ↔ opcode w = op ∧ w.extractLsb' 0 28 = 0 :=
  append_eq_iff (m := 4) (n := 28)

theorem formatB_eq_iff {w : Word} {op : BitVec 4} {v : Byte} :
    formatB op v = w ↔ (opcode w = op ∧ w.extractLsb' 8 20 = 0) ∧ w.extractLsb' 0 8 = v := by
  have hhigh := append_eq_field_iff (a := 8) (w := w) (x := op) (y := 0#20)
  exact (append_eq_iff (m := 24) (n := 8)).trans (and_congr_left' (eq_comm.trans hhigh))

theorem formatV_eq_iff {w : Word} {vec : BitVec 2} :
    formatV vec = w ↔ (opcode w = 0xC#4 ∧ w.extractLsb' 2 26 = 0) ∧ w.extractLsb' 0 2 = vec := by
  have hhigh := append_eq_field_iff (a := 2) (w := w) (x := 0xC#4) (y := 0#26)
  exact (append_eq_iff (m := 30) (n := 2)).trans (and_congr_left' (eq_comm.trans hhigh))

theorem formatF_eq_iff {w : Word} {b : Byte} {fe pe : Bool} :
    formatF b fe pe = w ↔
      (((opcode w = 0xD#4 ∧ w.extractLsb' 10 18 = 0) ∧ w.getLsbD 9 = pe) ∧ w.getLsbD 8 = fe) ∧ w.extractLsb' 0 8 = b := by
  have hop := append_eq_field_iff (a := 10) (w := w) (x := 0xD#4) (y := 0#18)
  have hpe := append_eq_field_iff (a := 9) (w := w) (x := 0xD#4 ++ 0#18) (y := BitVec.ofBool pe)
  have hfe := append_eq_field_iff (a := 8) (w := w) (x := 0xD#4 ++ 0#18 ++ BitVec.ofBool pe) (y := BitVec.ofBool fe)
  exact (append_eq_iff (m := 24) (n := 8)).trans (and_congr_left' (eq_comm.trans (hfe.trans
    (and_congr (eq_comm.trans (hpe.trans (and_congr (eq_comm.trans hop) bit_eq_ofBool_iff))) bit_eq_ofBool_iff))))

theorem formatO_eq_iff {w : Word} {baud : BitVec 22} {p : BitVec 2} {s : BitVec 1} {d : BitVec 3} :
    formatO baud p s d = w ↔
      (((opcode w = 0x1#4 ∧ w.extractLsb' 26 2 = p) ∧ w.extractLsb' 25 1 = s) ∧ w.extractLsb' 22 3 = d) ∧
        w.extractLsb' 0 22 = baud := by
  have hp := append_eq_field_iff (a := 26) (w := w) (x := 0x1#4) (y := p)
  have hs := append_eq_field_iff (a := 25) (w := w) (x := 0x1#4 ++ p) (y := s)
  have hd := append_eq_field_iff (a := 22) (w := w) (x := 0x1#4 ++ p ++ s) (y := d)
  exact (append_eq_iff (m := 10) (n := 22)).trans (and_congr_left' (eq_comm.trans (hd.trans
    (and_congr_left' (eq_comm.trans (hs.trans (and_congr_left' (eq_comm.trans hp))))))))

/-! ## The operand codes (R81, R82) -/

theorem parityOfCode_some {c : BitVec 2} {p : Parity} : parityOfCode c = some p ↔ p.code = c := by
  revert c
  cases p <;> decide

theorem parityOfCode_none {c : BitVec 2} : parityOfCode c = none ↔ c = 0b11 := by
  revert c
  decide

theorem stopOfCode_eq_iff {c : BitVec 1} {st : StopBits} : stopOfCode c = st ↔ st.code = c := by
  revert c
  cases st <;> decide

theorem dataBitsOfCode_some {c : BitVec 3} {d : DataBits} : dataBitsOfCode c = some d ↔ d.code = c := by
  revert c
  cases d <;> decide

theorem dataBitsOfCode_none {c : BitVec 3} : dataBitsOfCode c = none ↔ 5 ≤ c.toNat := by
  revert c
  decide

/-! ## What each format's decoder answers -/

theorem decodeFormatN_op {w : Word} {i j : Instr} : decodeFormatN j w = .op i ↔ w.extractLsb' 0 28 = 0 ∧ j = i := by
  by_cases hzero : w.extractLsb' 0 28 = 0#28 <;> simp [decodeFormatN, hzero]

theorem decodeFormatN_illegal {w : Word} {j : Instr} : (∃ r, decodeFormatN j w = .illegal r) ↔ w.extractLsb' 0 28 ≠ 0 := by
  by_cases hzero : w.extractLsb' 0 28 = 0#28 <;> simp [decodeFormatN, hzero]

theorem decodeFormatB_op {w : Word} {i : Instr} {mk : Byte → Instr} :
    decodeFormatB mk w = .op i ↔ w.extractLsb' 8 20 = 0 ∧ mk (w.extractLsb' 0 8) = i := by
  by_cases hzero : w.extractLsb' 8 20 = 0#20 <;> simp [decodeFormatB, hzero]

theorem decodeFormatB_illegal {w : Word} {mk : Byte → Instr} :
    (∃ r, decodeFormatB mk w = .illegal r) ↔ w.extractLsb' 8 20 ≠ 0 := by
  by_cases hzero : w.extractLsb' 8 20 = 0#20 <;> simp [decodeFormatB, hzero]

theorem decodeFormatF_op {w : Word} {i : Instr} :
    decodeFormatF w = .op i ↔
      w.extractLsb' 10 18 = 0 ∧ .uartRx (w.extractLsb' 0 8) (w.getLsbD 8) (w.getLsbD 9) = i := by
  by_cases hzero : w.extractLsb' 10 18 = 0#18 <;> simp [decodeFormatF, hzero]

theorem decodeFormatF_illegal {w : Word} : (∃ r, decodeFormatF w = .illegal r) ↔ w.extractLsb' 10 18 ≠ 0 := by
  by_cases hzero : w.extractLsb' 10 18 = 0#18 <;> simp [decodeFormatF, hzero]

theorem vector_cases (c : BitVec 2) : c = 0b00#2 ∨ c = 0b01#2 ∨ c = 0b10#2 ∨ c = 0b11#2 := by
  revert c
  decide

theorem decodeFormatV_op {w : Word} {i : Instr} (h : decodeFormatV w = .op i) :
    w.extractLsb' 2 26 = 0 ∧ encode i = formatV (w.extractLsb' 0 2) := by
  by_cases hzero : w.extractLsb' 2 26 = 0
  · refine ⟨hzero, ?_⟩
    rw [decodeFormatV, if_pos hzero] at h
    rcases vector_cases (w.extractLsb' 0 2) with hvec | hvec | hvec | hvec <;> rw [hvec] at h ⊢ <;> cases h <;> rfl
  · rw [decodeFormatV, if_neg hzero] at h
    cases h

theorem decodeFormatV_illegal {w : Word} :
    (∃ r, decodeFormatV w = .illegal r) ↔ w.extractLsb' 2 26 ≠ 0 ∨ w.extractLsb' 0 2 = 0b00 := by
  by_cases hzero : w.extractLsb' 2 26 = 0#26
  · rcases vector_cases (w.extractLsb' 0 2) with hvec | hvec | hvec | hvec <;> simp [decodeFormatV, hzero, hvec]
  · simp [decodeFormatV, hzero]

theorem decodeOpen_op {w : Word} {i : Instr} :
    decodeOpen w = .op i ↔
      ∃ p d, p.code = w.extractLsb' 26 2 ∧ d.code = w.extractLsb' 22 3 ∧ w.extractLsb' 0 22 ≠ 0 ∧
        .openUart (w.extractLsb' 0 22) p (stopOfCode (w.extractLsb' 25 1)) d = i := by
  simp only [← parityOfCode_some, ← dataBitsOfCode_some]
  unfold decodeOpen
  cases parityOfCode (w.extractLsb' 26 2) with
  | none => simp
  | some p =>
    cases dataBitsOfCode (w.extractLsb' 22 3) with
    | none => simp
    | some d => by_cases hbaud : w.extractLsb' 0 22 = 0#22 <;> simp [hbaud]

theorem decodeOpen_illegal {w : Word} :
    (∃ r, decodeOpen w = .illegal r) ↔
      w.extractLsb' 26 2 = 0b11 ∨ 5 ≤ (w.extractLsb' 22 3).toNat ∨ w.extractLsb' 0 22 = 0 := by
  rw [← parityOfCode_none, ← dataBitsOfCode_none]
  unfold decodeOpen
  cases parityOfCode (w.extractLsb' 26 2) with
  | none => simp
  | some p =>
    cases dataBitsOfCode (w.extractLsb' 22 3) with
    | none => simp
    | some d => by_cases hbaud : w.extractLsb' 0 22 = 0#22 <;> simp [hbaud]

/-! ## The decoder, format by format (R77) -/

/-- The opcodes whose words have format N (R72, R77). -/
def formatNOpcodes : List (BitVec 4) := [0x2#4, 0x5#4, 0x6#4, 0x7#4, 0x8#4, 0x9#4, 0xA#4, 0xB#4, 0xE#4, 0xF#4]

/-- The opcodes whose words have format B (R73, R77). -/
def formatBOpcodes : List (BitVec 4) := [0x3#4, 0x4#4]

/-- How a word is decoded: its opcode has a format, and the operation or operations of that opcode are encoded in the same format. -/
inductive DecodesBy (w : Word) : Prop where
  | reserved (hop : opcode w = 0x0#4) (hdecode : decode w = .illegal .reservedOpcode)
  | formatO (hop : opcode w = 0x1#4) (hdecode : decode w = decodeOpen w)
  | formatN (j : Instr) (hop : opcode w ∈ formatNOpcodes)
      (hdecode : decode w = decodeFormatN j w) (hencode : encode j = formatN (opcode w))
  | formatB (mk : Byte → Instr) (hop : opcode w ∈ formatBOpcodes) (hdecode : decode w = decodeFormatB mk w)
      (hencode : ∀ v, encode (mk v) = formatB (opcode w) v)
  | formatV (hop : opcode w = 0xC#4) (hdecode : decode w = decodeFormatV w)
  | formatF (hop : opcode w = 0xD#4) (hdecode : decode w = decodeFormatF w)

theorem decodesBy (w : Word) : DecodesBy w := by
  rcases opcode_cases (opcode w) with o | o | o | o | o | o | o | o | o | o | o | o | o | o | o | o
  · exact .reserved o (decode_opcode_reserved o)
  · exact .formatO o (decode_opcode_open o)
  · exact .formatN .close (by simp [o, formatNOpcodes]) (decode_opcode_close o) (congrArg formatN o.symm)
  · exact .formatB .write (by simp [o, formatBOpcodes]) (decode_opcode_write o) fun v => congrArg (Sys2Proof.formatB · v) o.symm
  · exact .formatB .tryWrite (by simp [o, formatBOpcodes]) (decode_opcode_tryWrite o) fun v => congrArg (Sys2Proof.formatB · v) o.symm
  · exact .formatN .read (by simp [o, formatNOpcodes]) (decode_opcode_read o) (congrArg formatN o.symm)
  · exact .formatN .peek (by simp [o, formatNOpcodes]) (decode_opcode_peek o) (congrArg formatN o.symm)
  · exact .formatN .available (by simp [o, formatNOpcodes]) (decode_opcode_available o) (congrArg formatN o.symm)
  · exact .formatN .flush (by simp [o, formatNOpcodes]) (decode_opcode_flush o) (congrArg formatN o.symm)
  · exact .formatN .status (by simp [o, formatNOpcodes]) (decode_opcode_status o) (congrArg formatN o.symm)
  · exact .formatN .csEnter (by simp [o, formatNOpcodes]) (decode_opcode_csEnter o) (congrArg formatN o.symm)
  · exact .formatN .csExit (by simp [o, formatNOpcodes]) (decode_opcode_csExit o) (congrArg formatN o.symm)
  · exact .formatV o (decode_opcode_vector o)
  · exact .formatF o (decode_opcode_uartRx o)
  · exact .formatN .uartTxLoad (by simp [o, formatNOpcodes]) (decode_opcode_uartTxLoad o) (congrArg formatN o.symm)
  · exact .formatN .uartTxDone (by simp [o, formatNOpcodes]) (decode_opcode_uartTxDone o) (congrArg formatN o.symm)

/-! ## The encoder and the decoder are inverse (R85) -/

theorem decodeFormatB_formatB (mk : Byte → Instr) (op : BitVec 4) (v : Byte) : decodeFormatB mk (formatB op v) = .op (mk v) := by
  obtain ⟨⟨-, hzero⟩, hv⟩ := formatB_eq_iff.mp (rfl : formatB op v = _)
  exact decodeFormatB_op.mpr ⟨hzero, congrArg mk hv⟩

theorem opcode_formatB (op : BitVec 4) (v : Byte) : opcode (formatB op v) = op := (formatB_eq_iff.mp rfl).1.1

theorem decode_formatF (b : Byte) (fe pe : Bool) : decode (formatF b fe pe) = .op (.uartRx b fe pe) := by
  obtain ⟨⟨⟨⟨hop, hzero⟩, hpe⟩, hfe⟩, hb⟩ := formatF_eq_iff.mp (rfl : formatF b fe pe = _)
  rw [decode_opcode_uartRx hop, decodeFormatF_op]
  exact ⟨hzero, by rw [hb, hfe, hpe]⟩

theorem decode_formatO {baud : BitVec 22} (p : Parity) (st : StopBits) (d : DataBits) (hbaud : baud ≠ 0) :
    decode (formatO baud p.code st.code d.code) = .op (.openUart baud p st d) := by
  obtain ⟨⟨⟨⟨hop, hp⟩, hst⟩, hd⟩, hb⟩ := formatO_eq_iff.mp (rfl : formatO baud p.code st.code d.code = _)
  rw [decode_opcode_open hop, decodeOpen_op]
  exact ⟨p, d, hp.symm, hd.symm, hb.trans_ne hbaud, by rw [hb, stopOfCode_eq_iff.mpr hst.symm]⟩

/-- Settles O1: operand by operand for the formats O, B and F; an operation without operands is one word, which the decoder evaluates. -/
theorem encodeThenDecodeGivesTheOperation : Obligations.EncodeThenDecodeGivesTheOperation := by
  intro i hwf
  cases i with
  | openUart baud p st d => exact decode_formatO p st d (by simpa [Instr.wellFormed] using hwf)
  | write v => exact (decode_opcode_write (opcode_formatB _ v)).trans (decodeFormatB_formatB .write _ v)
  | tryWrite v => exact (decode_opcode_tryWrite (opcode_formatB _ v)).trans (decodeFormatB_formatB .tryWrite _ v)
  | uartRx b fe pe => exact decode_formatF b fe pe
  | _ => rfl

/-- Settles O2: by the format of the word's opcode, whose fields are all the bits of the word. -/
theorem decodeThenEncodeGivesTheWord : Obligations.DecodeThenEncodeGivesTheWord := by
  intro w i h
  refine ⟨decode_wellFormed h, ?_⟩
  cases decodesBy w with
  | reserved _ hdecode => exact nomatch hdecode.symm.trans h
  | formatO hop hdecode =>
    obtain ⟨p, d, hp, hd, -, rfl⟩ := decodeOpen_op.mp (hdecode.symm.trans h)
    exact formatO_eq_iff.mpr ⟨⟨⟨⟨hop, hp.symm⟩, (stopOfCode_eq_iff.mp rfl).symm⟩, hd.symm⟩, rfl⟩
  | formatN j _ hdecode hencode =>
    obtain ⟨hzero, rfl⟩ := decodeFormatN_op.mp (hdecode.symm.trans h)
    exact hencode.trans (formatN_eq_iff.mpr ⟨rfl, hzero⟩)
  | formatB mk _ hdecode hencode =>
    obtain ⟨hzero, rfl⟩ := decodeFormatB_op.mp (hdecode.symm.trans h)
    exact (hencode _).trans (formatB_eq_iff.mpr ⟨⟨rfl, hzero⟩, rfl⟩)
  | formatV hop hdecode =>
    obtain ⟨hzero, hencode⟩ := decodeFormatV_op (hdecode.symm.trans h)
    exact hencode.trans (formatV_eq_iff.mpr ⟨⟨hop, hzero⟩, rfl⟩)
  | formatF hop hdecode =>
    obtain ⟨hzero, rfl⟩ := decodeFormatF_op.mp (hdecode.symm.trans h)
    exact formatF_eq_iff.mpr ⟨⟨⟨⟨hop, hzero⟩, rfl⟩, rfl⟩, rfl⟩

/-! ## The words of the spec (R91) -/

/-- An example word is checked by encoding its operation: the round trip gives the decoding. -/
theorem decode_and_encode_of_encode {w : Word} {i : Instr} (hwf : i.wellFormed = true) (hencode : encode i = w) :
    decode w = .op i ∧ encode i = w :=
  ⟨hencode ▸ encodeThenDecodeGivesTheOperation i hwf, hencode⟩

/-- Settles O5, word by word. -/
theorem specExampleWordsDecode : Obligations.SpecExampleWordsDecode :=
  ⟨decode_and_encode_of_encode rfl rfl, decode_and_encode_of_encode rfl rfl, decode_and_encode_of_encode rfl rfl,
    decode_and_encode_of_encode rfl rfl, decode_and_encode_of_encode rfl rfl, decode_and_encode_of_encode rfl rfl,
    decode_and_encode_of_encode rfl rfl⟩

/-! ## Match and mask (R77) -/

/-- The word of an operation fits its own row. -/
theorem encode_fits (i : Instr) : encode i &&& i.maskBits = i.matchBits := by
  cases i with
  | openUart baud p st d => exact (Laws.RowOfWord.openUart baud p st d).1
  | write v => exact (Laws.RowOfWord.write v).1
  | tryWrite v => exact (Laws.RowOfWord.tryWrite v).1
  | uartRx b fe pe => exact (Laws.RowOfWord.uartRx b fe pe).1
  | _ => rfl

/-- Every mask covers the opcode. -/
theorem opcode_of_fits {w : Word} {i : Instr} (h : w &&& i.maskBits = i.matchBits) : opcode w = opcode i.matchBits := by
  have hmask : opcode i.maskBits = BitVec.allOnes 4 := by cases i <;> simp [Instr.maskBits, opcode]
  calc opcode w = opcode w &&& opcode i.maskBits := by rw [hmask, BitVec.and_allOnes]
    _ = opcode (w &&& i.maskBits) := BitVec.extractLsb'_and.symm
    _ = opcode i.matchBits := by rw [h]

/-- A word that fits a row fixes the row's match bits: opcode 0xC has three rows whose masks cover the whole word, every other opcode
one row, whose match bits are the opcode alone. -/
theorem matchBits_of_fits {w : Word} {i : Instr} (h : w &&& i.maskBits = i.matchBits) :
    i.matchBits = if opcode w = 0xC#4 then w else opcode w ++ 0#28 := by
  rw [opcode_of_fits h]
  cases i with
  | isrRxc | isrDre | isrTxc => exact h.symm.trans BitVec.and_allOnes
  | _ =>
    rw [if_neg]
    all_goals
      simp only [Instr.matchBits]
      decide

/-- Settles O4: a word that decodes is the word of its operation, which fits that operation's row. -/
theorem matchAndMaskSelectOneRow : Obligations.MatchAndMaskSelectOneRow := by
  intro w
  have hfits : ∀ i, decode w = .op i → w &&& i.maskBits = i.matchBits := fun i hdecode => by
    obtain ⟨-, rfl⟩ := decodeThenEncodeGivesTheWord w i hdecode
    exact encode_fits i
  refine ⟨hfits, fun i j hi hj => (matchBits_of_fits hi).trans (matchBits_of_fits hj).symm, fun hnone => ?_⟩
  cases hdecode : decode w with
  | op i => exact absurd (hfits i hdecode) (hnone i)
  | illegal r => exact ⟨r, rfl⟩

/-! ## The illegal words (R83) -/

/-- The clauses of R83 for the other formats do not speak of an opcode of format N. -/
theorem opcode_formatN_only {o : BitVec 4} (h : o ∈ formatNOpcodes) :
    o ≠ 0x0#4 ∧ o ∉ formatBOpcodes ∧ o ≠ 0xC#4 ∧ o ≠ 0xD#4 ∧ o ≠ 0x1#4 := by
  revert o
  decide

theorem opcode_formatB_only {o : BitVec 4} (h : o ∈ formatBOpcodes) :
    o ≠ 0x0#4 ∧ o ∉ formatNOpcodes ∧ o ≠ 0xC#4 ∧ o ≠ 0xD#4 ∧ o ≠ 0x1#4 := by
  revert o
  decide

end Sys2Proof

namespace Sys2Proof.Machine

/-- A word that is no legal operation of the port it is offered on faults, and nothing else of the block changes (R83, R84, R211). -/
theorem step_raisesIllegal {s : State} {p : Port} {w : Word} (hstop : s.stop = .running) (hrequest : s.request = .word p w)
    (hlegal : legalOn p w = none) :
    ∃ t, step s = .next t ∧ t = { s with stop := .faulted .illegalCommand w, prog := t.prog, sched := t.sched } := by
  refine ⟨(s.takeWord p).raiseIllegal w, ?_, by cases p <;> rfl⟩
  simp [step, hrequest, hlegal, hstop]

theorem legalOn_illegal {p : Port} {w : Word} {r : IllegalReason} (h : decode w = .illegal r) : legalOn p w = none :=
  legalOn_none.mpr fun _ hdecode => nomatch h.symm.trans hdecode

/-- Settles O3: format by format, each format's decoder refuses exactly the clause of R83 that names its opcodes. -/
theorem illegalWordsAreExactlyTheListedOnes : Obligations.IllegalWordsAreExactlyTheListedOnes := by
  refine fun w => ⟨?_, fun ⟨r, hdecode⟩ s p hstop hrequest => step_raisesIllegal hstop hrequest (legalOn_illegal hdecode)⟩
  show _ ↔ opcode w = _ ∨ (opcode w ∈ formatNOpcodes ∧ _) ∨ (opcode w ∈ formatBOpcodes ∧ _) ∨ (opcode w = _ ∧ _) ∨
    (opcode w = _ ∧ _) ∨ (opcode w = _ ∧ _)
  cases decodesBy w with
  | reserved hop hdecode => simp [hdecode, hop]
  | formatO hop hdecode =>
    rw [hdecode, decodeOpen_illegal]
    simp [hop, formatNOpcodes, formatBOpcodes]
  | formatN j hop hdecode _ =>
    rw [hdecode, decodeFormatN_illegal]
    simp [hop, opcode_formatN_only hop]
  | formatB mk hop hdecode _ =>
    rw [hdecode, decodeFormatB_illegal]
    simp [hop, opcode_formatB_only hop]
  | formatV hop hdecode =>
    rw [hdecode, decodeFormatV_illegal]
    simp [hop, formatNOpcodes, formatBOpcodes]
  | formatF hop hdecode =>
    rw [hdecode, decodeFormatF_illegal]
    simp [hop, formatNOpcodes, formatBOpcodes]

/-- Settles O52: the host's port performs no operation of another port. -/
theorem aForeignWordInTheHostProgramFaults : Obligations.AForeignWordInTheHostProgramFaults := by
  intro s w i hstop hrequest hdecode hport
  refine step_raisesIllegal hstop hrequest (legalOn_none.mpr fun j hj => ?_)
  obtain rfl : i = j := Decoded.op.inj (hdecode.symm.trans hj)
  exact hport

/-! ## The room of the TX ring (R103, R160) -/

/-- How many bytes the TX ring still takes. -/
def State.txRoom (s : State) : Nat := s.params.txCap - 1 - s.tx.len s.params.txCap

theorem State.txRoom_of_full {s : State} (h : s.txFull = true) : s.txRoom = 0 := by
  have hcount := Ring.isFull_iff.mp h
  unfold State.txRoom Ring.len
  omega

/-- An accepted byte takes one place of the ring. -/
theorem State.txRoom_acceptByte {s : State} (v : Byte) (hwf : s.tx.wf s.params.txCap = true) (hroom : s.txFull = false) :
    s.txRoom = (s.acceptByte v).txRoom + 1 := by
  have hpush := Ring.count_push hwf v hroom
  have hlt := Ring.count_lt (r := (s.tx.push s.params.txCap v).2) (Nat.zero_lt_of_lt (Ring.wf_iff.mp hwf).1)
  simp only [State.txRoom, Ring.len, State.acceptByte_params, State.acceptByte_tx]
  omega

theorem State.acceptByte_txWf {s : State} (v : Byte) (hwf : s.tx.wf s.params.txCap = true) :
    (s.acceptByte v).tx.wf (s.acceptByte v).params.txCap = true := by
  rw [State.acceptByte_params, State.acceptByte_tx]
  exact Ring.wf_push hwf v

/-- A TRYWRITE either accepts its byte or leaves only a 0 in RES (R160). -/
theorem tryWriteEffect_cases (v : Byte) (s : State) :
    (s.isOpen = true ∧ s.txFull = false ∧ tryWriteEffect v s = s.acceptByte v) ∨
      ((s.isOpen = true → s.txFull = true) ∧ tryWriteEffect v s = { s with res := 0 }) := by
  cases hroom : s.isOpen && !s.txFull with
  | true =>
    obtain ⟨hopen, hfull⟩ : s.isOpen = true ∧ s.txFull = false := by simpa using hroom
    exact .inl ⟨hopen, hfull, tryWriteEffect_room v hroom⟩
  | false => exact .inr ⟨by simpa using hroom, tryWriteEffect_noRoom v hroom⟩

/-! ## try_write with no other agent between its commands (R90, log 23) -/

theorem tryWriteList_accepted {s : State} {b : Byte} (bs : List Byte) (hstop : s.stop = .running)
    (haccept : tryWriteEffect b s = s.acceptByte b) :
    s.tryWriteList (b :: bs) = (((s.acceptByte b).tryWriteList bs).1 + 1, ((s.acceptByte b).tryWriteList bs).2) := by
  have hexec : exec (.tryWrite b) s = .next (s.acceptByte b) := haccept ▸ exec_enabled (enabled_tryWrite b hstop)
  simp [State.tryWriteList, hexec]

theorem tryWriteList_rejected {s : State} {b : Byte} (bs : List Byte) (hstop : s.stop = .running)
    (hreject : tryWriteEffect b s = { s with res := 0 }) : s.tryWriteList (b :: bs) = (0, { s with res := 0 }) := by
  have hexec : exec (.tryWrite b) s = .next { s with res := 0 } := hreject ▸ exec_enabled (enabled_tryWrite b hstop)
  simp [State.tryWriteList, hexec]

/-- Byte by byte while there is room. -/
theorem tryWriteList_open (bs : List Byte) {s : State} (hwf : s.tx.wf s.params.txCap = true) (hstop : s.stop = .running)
    (hopen : s.isOpen = true) :
    (s.tryWriteList bs).1 = min bs.length s.txRoom ∧
      (s.tryWriteList bs).2.tx.contents s.params.txCap = s.tx.contents s.params.txCap ++ bs.take (s.tryWriteList bs).1 := by
  induction bs generalizing s with
  | nil => simp [State.tryWriteList]
  | cons b bs ih =>
    obtain ⟨-, hfull, haccept⟩ | ⟨hfull, hreject⟩ := tryWriteEffect_cases b s
    · obtain ⟨hcount, hcontents⟩ := ih (State.acceptByte_txWf b hwf) ((s.acceptByte_stop b).trans hstop)
        ((s.acceptByte_isOpen b).trans hopen)
      rw [State.acceptByte_params, State.acceptByte_tx, Ring.contents_push hwf b hfull] at hcontents
      rw [tryWriteList_accepted bs hstop haccept, State.txRoom_acceptByte b hwf hfull, hcontents, hcount]
      simp
    · rw [tryWriteList_rejected bs hstop hreject, State.txRoom_of_full (hfull hopen)]
      simp

theorem tryWriteList_closed (bs : List Byte) {s : State} (hstop : s.stop = .running) (hclosed : s.isOpen = false) :
    (s.tryWriteList bs).1 = 0 ∧ (s.tryWriteList bs).2.tx = s.tx := by
  cases bs with
  | nil => exact ⟨rfl, rfl⟩
  | cons b bs =>
    rw [tryWriteList_rejected bs hstop (tryWriteEffect_noRoom b (by simp [hclosed]))]
    exact ⟨rfl, rfl⟩

/-! ## A list call over any run (R17, R89, R90, R138) -/

/-- Induction over a whole call: it has no command left, or another agent steps first, or one of its own commands does, after which it
ends (`last`) or goes on (`own`). -/
theorem listCall_induction {mk : Byte → Instr} {stopAtZero : Bool} {P : State → List Byte → Nat → Prop}
    (nil : ∀ s, P s [] 0)
    (other : ∀ s t w b bs k, s.performWord w = some t → portOfWord w ≠ .host → P t (b :: bs) k → P s (b :: bs) k)
    (last : ∀ s t b bs, s.performWord (encode (mk b)) = some t → stopAtZero = true → t.res = 0 → P s (b :: bs) 0)
    (own : ∀ s t b bs k, s.performWord (encode (mk b)) = some t → (stopAtZero = true → t.res ≠ 0) → P t bs k →
      P s (b :: bs) (t.res.toNat + k))
    {s u : State} {bs : List Byte} {ws : List Word} {k : Nat} (h : State.listCall mk stopAtZero s bs ws = some (k, u)) :
    P s bs k := by
  fun_induction State.listCall mk stopAtZero s bs ws generalizing k with
  | case1 s =>
    cases h
    exact nil _
  | case5 s b bs t hstops hperform hport =>
    obtain ⟨hzero, hres⟩ : stopAtZero = true ∧ t.res = 0 := by simpa using hstops
    cases h
    exact last _ _ b bs hperform hzero hres
  | case8 s b bs ws t hgoes k' u' hcall hperform hport ih =>
    cases h
    exact own _ _ b bs _ hperform (by simpa using hgoes) (ih hcall)
  | case10 s b bs w ws t hperform hport ih => exact other _ _ w b bs k hperform hport (ih h)
  | _ => cases h

theorem performWord_tryWrite {s t : State} {b : Byte} (h : s.performWord (encode (.tryWrite b)) = some t) :
    t = tryWriteEffect b s := by
  obtain ⟨-, ⟨hlegal, -⟩ | ⟨i, hlegal, -, rfl⟩⟩ := performWord_some.mp h
  · exact nomatch (legalOn_tryWrite b).1.symm.trans hlegal
  · obtain rfl : .tryWrite b = i := Option.some.inj ((legalOn_tryWrite b).1.symm.trans hlegal)
    rfl

theorem performWord_write {s t : State} {b : Byte} (h : s.performWord (encode (.write b)) = some t) :
    t = writeEffect b s := by
  obtain ⟨-, ⟨hlegal, -⟩ | ⟨i, hlegal, -, rfl⟩⟩ := performWord_some.mp h
  · exact nomatch (legalOn_write b).1.symm.trans hlegal
  · obtain rfl : .write b = i := Option.some.inj ((legalOn_write b).1.symm.trans hlegal)
    rfl

/-- What the count `k` of a try_write keeps to, from the state of its first step. -/
def TryWriteBounds (s : State) (bs : List Byte) (k : Nat) : Prop :=
  s.tx.wf s.params.txCap = true →
    k ≤ bs.length ∧ (s.isOpen = false → k = 0) ∧ (s.isOpen = true → min bs.length s.txRoom ≤ k)

/-- Another agent's step makes no room smaller, so the room before it is a lower bound still. -/
theorem TryWriteBounds.of_otherAgent {s t : State} {w : Word} {bs : List Byte} {k : Nat} (hperform : s.performWord w = some t)
    (hport : portOfWord w ≠ .host) (h : TryWriteBounds t bs k) : TryWriteBounds s bs k := by
  intro hwf
  obtain ⟨hopen, hparams, hring⟩ := performWord_otherAgent hperform hport
  obtain ⟨htwf, hcount⟩ := hring hwf
  have hroom : s.txRoom ≤ t.txRoom := by
    simp only [State.txRoom, Ring.len, hparams]
    omega
  obtain ⟨hle, hclosed, hmin⟩ := h (hparams ▸ htwf)
  rw [hopen] at hclosed hmin
  exact ⟨hle, hclosed, fun hs => le_trans (min_le_min_left _ hroom) (hmin hs)⟩

theorem TryWriteBounds.of_rejected {s : State} {b : Byte} (bs : List Byte) (hres : (tryWriteEffect b s).res = 0) :
    TryWriteBounds s (b :: bs) 0 := by
  intro _
  refine ⟨Nat.zero_le _, fun _ => rfl, fun hopen => ?_⟩
  obtain ⟨-, -, haccept⟩ | ⟨hfull, -⟩ := tryWriteEffect_cases b s
  · rw [haccept] at hres
    cases hres
  · simp [State.txRoom_of_full (hfull hopen)]

theorem TryWriteBounds.of_accepted {s : State} {b : Byte} {bs : List Byte} {k : Nat} (hres : (tryWriteEffect b s).res ≠ 0)
    (h : TryWriteBounds (tryWriteEffect b s) bs k) : TryWriteBounds s (b :: bs) ((tryWriteEffect b s).res.toNat + k) := by
  intro hwf
  obtain ⟨hopen, hfull, haccept⟩ | ⟨-, hreject⟩ := tryWriteEffect_cases b s
  · rw [haccept] at h ⊢
    obtain ⟨hle, -, hmin⟩ := h (State.acceptByte_txWf b hwf)
    have hmin := hmin ((s.acceptByte_isOpen b).trans hopen)
    have hroom := State.txRoom_acceptByte b hwf hfull
    have hone : (s.acceptByte b).res.toNat = 1 := rfl
    rw [List.length_cons, hopen, hone]
    exact ⟨by omega, nofun, fun _ => by omega⟩
  · exact absurd (congrArg State.res hreject) hres

theorem tryWriteRun_bounds {s t : State} {bs : List Byte} {ws : List Word} {k : Nat} (h : s.tryWriteRun bs ws = some (k, t)) :
    TryWriteBounds s bs k :=
  listCall_induction (fun s _ => by simp) (fun _ _ _ _ _ _ hperform hport => .of_otherAgent hperform hport)
    (fun s t b bs hperform _ hres => .of_rejected bs (performWord_tryWrite hperform ▸ hres))
    (fun s t b bs k hperform hres ih => by
      obtain rfl := performWord_tryWrite hperform
      exact .of_accepted (hres rfl) ih) h

/-- What the sum `k` of a write is (R89). -/
def WriteSum (s : State) (bs : List Byte) (k : Nat) : Prop := k = if s.isOpen = true then bs.length else 0

/-- A performed WRITE of an open block is accepted, since it waits while the ring is full; one of a closed block is not (R158). -/
theorem WriteSum.of_write {s : State} {b : Byte} {bs : List Byte} {k : Nat} (h : WriteSum (writeEffect b s) bs k) :
    WriteSum s (b :: bs) ((writeEffect b s).res.toNat + k) := by
  unfold WriteSum at h ⊢
  cases hopen : s.isOpen with
  | true =>
    rw [writeEffect_open b hopen] at h ⊢
    simp [h, hopen, Nat.add_comm]
  | false =>
    rw [writeEffect_closed b hopen] at h ⊢
    simp [h, hopen]

theorem writeRun_sum {s t : State} {bs : List Byte} {ws : List Word} {k : Nat} (h : s.writeRun bs ws = some (k, t)) :
    WriteSum s bs k := by
  refine listCall_induction (stopAtZero := false) (fun s => ?nil) (fun s t w b bs k hperform hport ih => ?other)
    (fun _ _ _ _ _ hstops => nomatch hstops) (fun s t b bs k hperform _ ih => ?own) h
  case nil => simp [WriteSum]
  case other =>
    obtain ⟨hopen, -⟩ := performWord_otherAgent hperform hport
    unfold WriteSum at ih ⊢
    rwa [hopen] at ih
  case own =>
    obtain rfl := performWord_write hperform
    exact .of_write ih

/-- Settles O49: the back-to-back call by induction on the list, the calls over any run by induction over the call. -/
theorem tryWriteOfAListAcceptsAPrefix : Obligations.TryWriteOfAListAcceptsAPrefix := by
  intro s bs hinv hstop
  have hwf := (State.inv_iff.mp hinv).tx
  exact ⟨tryWriteList_open bs hwf hstop, tryWriteList_closed bs hstop, fun _ _ _ hrun => tryWriteRun_bounds hrun hwf,
    fun _ _ _ hrun => writeRun_sum hrun⟩

end Sys2Proof.Machine

/-! SUPPORT. The statements of 40_ring_buffer.md: what runs of pushes and pops do to a ring's contents (R106, R107), and what push_rx
does under each overrun policy (R105). -/

namespace Sys2Proof.Machine

/-! ## Runs of pushes and pops, in terms of the contents -/

theorem Ring.isFull_of_count_lt {n : Nat} {r : Ring} (h : r.count n < n - 1) : r.isFull n = false := by
  rw [Bool.eq_false_iff, Ne, Ring.isFull_iff]
  omega

/-- While the bytes leave one slot unused, every push succeeds, and together they append the bytes to the contents. -/
theorem Ring.pushAll_contents {n : Nat} {bs : List Byte} :
    ∀ {r : Ring}, r.wf n = true → r.count n + bs.length < n →
      (r.pushAll n bs).1 = bs.length ∧ (r.pushAll n bs).2.wf n = true ∧
        (r.pushAll n bs).2.contents n = r.contents n ++ bs := by
  induction bs with
  | nil => exact fun hwf _ => ⟨rfl, hwf, (List.append_nil _).symm⟩
  | cons b bs ih =>
    intro r hwf hroom
    rw [List.length_cons] at hroom
    have hfull : r.isFull n = false := Ring.isFull_of_count_lt (by omega)
    have hpushed : (r.push n b).1 = true := by rw [Ring.push_room b hfull]
    have hcount := Ring.count_push hwf b hfull
    obtain ⟨hall, hwf', hcontents⟩ := ih (Ring.wf_push hwf b) (by omega)
    refine ⟨?_, hwf', ?_⟩
    · simp only [Ring.pushAll, hpushed, hall, if_true, List.length_cons, Nat.add_comm]
    · simp only [Ring.pushAll, hcontents, Ring.contents_push hwf b hfull, List.append_assoc, List.singleton_append]

/-- `m` pops answer the first `m` bytes of the contents, or all of them if there are fewer, and leave the others. -/
theorem Ring.popAll_contents {n m : Nat} :
    ∀ {r : Ring}, r.wf n = true →
      (r.popAll n m).1 = (r.contents n).take m ∧ (r.popAll n m).2.contents n = (r.contents n).drop m := by
  induction m with
  | zero => exact fun _ => ⟨rfl, rfl⟩
  | succ m ih =>
    intro r hwf
    obtain ⟨holdest, hrest⟩ := Ring.pop_contents hwf
    obtain ⟨hanswers, hleft⟩ := ih (Ring.wf_pop hwf)
    simp only [Ring.popAll, holdest, hanswers, hleft, hrest]
    cases r.contents n with
    | nil => simp
    | cons b bs => simp

/-- From an empty ring, fewer bytes than slots are all pushed and are then the contents. -/
theorem Ring.pushAll_empty {n : Nat} {r : Ring} {bs : List Byte} (hwf : r.wf n = true) (hempty : r.isEmpty = true)
    (hlength : bs.length < n) :
    (r.pushAll n bs).1 = bs.length ∧ (r.pushAll n bs).2.wf n = true ∧ (r.pushAll n bs).2.contents n = bs := by
  have hcount := (Ring.count_zero_iff hwf).mpr (Ring.isEmpty_iff.mp hempty)
  simpa only [Ring.contents_empty hwf hempty, List.nil_append] using Ring.pushAll_contents hwf (by omega : _ + bs.length < n)

/-- Settles O6: the pushed bytes are the contents, of which the pops take the first `m`. -/
theorem pushesThenPopsObeyTheLengthLaw : Obligations.PushesThenPopsObeyTheLengthLaw := by
  intro n r bs m hwf hempty hlength _
  obtain ⟨hall, hwf', hcontents⟩ := Ring.pushAll_empty hwf hempty hlength
  obtain ⟨hanswers, hleft⟩ := Ring.popAll_contents (m := m) hwf'
  rw [hcontents] at hanswers hleft
  refine ⟨hall, hanswers, ?_⟩
  rw [Ring.len, ← Ring.length_contents, hleft, List.length_drop]

/-- Settles O7: after `n - 1` pushes the contents have `n - 1` bytes, which is what makes a ring full. -/
theorem aRingHoldsOneByteLessThanItsSlots : Obligations.ARingHoldsOneByteLessThanItsSlots := by
  intro n r hwf
  have hslots : 0 < n := Nat.zero_lt_of_lt (Ring.wf_iff.mp hwf).1
  refine ⟨Nat.le_sub_one_of_lt (Ring.count_lt hslots), fun hempty bs b hlength => ?_⟩
  obtain ⟨hall, -, hcontents⟩ := Ring.pushAll_empty hwf hempty (by omega : bs.length < n)
  have hfull : (r.pushAll n bs).2.isFull n = true := by
    rw [Ring.isFull_iff, ← Ring.length_contents, hcontents, hlength]
  exact ⟨hall.trans hlength, hfull, Ring.push_full b hfull⟩

/-! ## The overrun policy (R105) -/

/-- The push of `OverwriteOldest` on a full ring: the oldest byte goes and the new one joins the end. -/
theorem Ring.contents_overwriteOldest {n : Nat} {r : Ring} (h : r.wf n = true) (hn : 2 ≤ n) (b : Byte) (hfull : r.isFull n = true) :
    ((r.dropOldest n).push n b).2.contents n = (r.contents n).tail ++ [b] := by
  rw [Ring.contents_push (Ring.wf_dropOldest h) b (Ring.dropOldest_room h hn hfull),
    Ring.contents_advance h (Ring.nonempty_of_full h hn hfull), List.tail_cons]

/-- Settles O8: the frame of push_rx, then its three cases. -/
theorem pushRxFollowsTheOverrunPolicy : Obligations.PushRxFollowsTheOverrunPolicy := by
  intro s b hwf hcap
  refine ⟨s.pushRx_frame b, fun hroom => ?_, fun hfull hpolicy => ?_, fun hfull hpolicy => ?_⟩
  · rw [State.pushRx_room b hroom]
    exact ⟨Ring.contents_push hwf b hroom, Ring.push_head .., rfl⟩
  · rw [State.pushRx_dropNewest b hfull hpolicy]
    exact ⟨rfl, rfl⟩
  · rw [State.pushRx_overwriteOldest b hfull hpolicy]
    exact ⟨Ring.contents_overwriteOldest hwf hcap b hfull, Ring.push_head .., rfl⟩

end Sys2Proof.Machine

/-! SUPPORT. The statement of 41_direction_controller.md: the bus contract (R124). -/

namespace Sys2Proof.Machine

/-- Receive is the direction of Idle alone (R44 to R46). -/
theorem State.Inv.idle_of_receive {s : State} (h : s.Inv) (hreceive : s.dir = .receive) : s.txs = .idle := by
  by_contra hbusy
  simp [h.transmit_of_not_idle hbusy] at hreceive

/-- The direction goes from Transmit to Receive in ISR_TXC only: the other call sites assert Transmit (R120, R121). -/
theorem AgentStep.isrTxc_of_release {i : Instr} {s t : State} (h : AgentStep i s t) (hs : s.dir = .transmit)
    (ht : t.dir = .receive) : i = .isrTxc := by
  obtain ⟨-, -, hexec⟩ := h
  have hchanged : t.dir ≠ s.dir := by simp [hs, ht]
  obtain ⟨htransmit, -⟩ | ⟨-, hisr⟩ := directionChangesOnlyAtItsCallSites.1 i s t hexec hchanged
  · simp [ht] at htransmit
  · exact hisr

/-- Settles O17: the wire is a clause of the invariant, Receive means Idle, and the direction has one releasing call site. -/
theorem theBusContractHoldsOnEveryRun : Obligations.TheBusContractHoldsOnEveryRun := by
  intro s hreach
  refine ⟨hreach.inv.wire, fun hreceive => ?_, fun _ _ hagent => hagent.isrTxc_of_release⟩
  obtain ⟨hempty, hudr, htsr, -⟩ := hreach.inv.idle (hreach.inv.idle_of_receive hreceive)
  exact ⟨hempty, hudr, htsr⟩

end Sys2Proof.Machine

/-! SUPPORT. The statements of 42_interrupt_handlers.md: which vector is enabled (R134 to R137), what each handler does (R131 to R133),
and what the handlers leave unchanged (R140, R220). -/

namespace Sys2Proof.Machine

/-! ## The enabled vector (R134, R135) -/

section
variable {s : State}

theorem State.vectorEnabled_iff {v : IrqVector} :
    s.vectorEnabled v = true ↔ s.gie = true ∧ s.pending v = true ∧ s.highest v = true := by
  simp only [State.vectorEnabled, Bool.and_eq_true, and_assoc]

theorem State.highest_dre_iff : s.highest .dre = true ↔ s.pending .rxc = false := by simp [State.highest]

theorem State.highest_txc_iff : s.highest .txc = true ↔ s.pending .rxc = false ∧ s.pending .dre = false := by
  simp [State.highest]

theorem State.pending_rxc_eq_false_iff : s.pending .rxc = false ↔ ¬(s.rdr ≠ none ∧ s.ie.rxcie = true) := by
  rw [← Bool.not_eq_true, State.pending_rxc_iff, Option.ne_none_iff_exists']

theorem State.pending_dre_eq_false_iff : s.pending .dre = false ↔ ¬(s.udr = none ∧ s.ie.dreie = true) := by
  rw [← Bool.not_eq_true, State.pending_dre_iff]

theorem State.vectorEnabled_rxc_iff :
    s.vectorEnabled .rxc = true ↔ s.gie = true ∧ s.rdr ≠ none ∧ s.ie.rxcie = true := by
  simp only [State.vectorEnabled_iff, State.pending_rxc_iff, State.highest, and_true, Option.ne_none_iff_exists']

theorem State.vectorEnabled_dre_iff :
    s.vectorEnabled .dre = true ↔
      s.gie = true ∧ s.udr = none ∧ s.ie.dreie = true ∧ ¬(s.rdr ≠ none ∧ s.ie.rxcie = true) := by
  rw [State.vectorEnabled_iff, State.pending_dre_iff, State.highest_dre_iff, State.pending_rxc_eq_false_iff, and_assoc]

theorem State.vectorEnabled_txc_iff :
    s.vectorEnabled .txc = true ↔
      s.gie = true ∧ s.txcf = true ∧ s.ie.txcie = true ∧ ¬(s.rdr ≠ none ∧ s.ie.rxcie = true) ∧
        ¬(s.udr = none ∧ s.ie.dreie = true) := by
  rw [State.vectorEnabled_iff, State.pending_txc_iff, State.highest_txc_iff, State.pending_rxc_eq_false_iff,
    State.pending_dre_eq_false_iff, and_assoc]

/-- The first pending vector in the order of R135. -/
def State.firstPending (s : State) : Option IrqVector := [.rxc, .dre, .txc].find? s.pending

/-- The enabled vector is the first pending one, behind the gate: the priority leaves no choice. -/
theorem State.vectorEnabled_iff_firstPending {v : IrqVector} :
    s.vectorEnabled v = true ↔ s.gie = true ∧ s.firstPending = some v := by
  rw [State.vectorEnabled_iff, State.firstPending]
  refine and_congr_right fun _ => ?_
  cases hrxc : s.pending .rxc with
  | true => cases v <;> simp [State.highest, hrxc]
  | false =>
    cases hdre : s.pending .dre with
    | true => cases v <;> simp [State.highest, hrxc, hdre]
    | false => cases v <;> simp [State.highest, hrxc, hdre]

end

/-! ## A handler is performed exactly when its vector is enabled (R134) -/

/-- The operation that handles a vector. -/
def IrqVector.handler : IrqVector → Instr
  | .rxc => .isrRxc
  | .dre => .isrDre
  | .txc => .isrTxc

/-- A handler never holds, so it answers a next state only as an enabled step. -/
theorem exec_handler_next (v : IrqVector) {s t : State} :
    exec v.handler s = .next t ↔ s.stop = .running ∧ s.vectorEnabled v = true ∧ t = effectOf v.handler s := by
  have hholds : s.holds v.handler = false := by cases v <;> rfl
  have hready : s.ready v.handler = s.vectorEnabled v := by cases v <;> rfl
  simp [exec_next, hholds, hready]

theorem exec_handler_isNext (v : IrqVector) {s : State} :
    (∃ t, exec v.handler s = .next t) ↔ s.stop = .running ∧ s.vectorEnabled v = true := by
  simp only [exec_handler_next, exists_and_left, exists_eq, and_true]

/-- Settles O31, vector by vector. -/
theorem aHandlerRunsExactlyWhenEnabled : Obligations.AHandlerRunsExactlyWhenEnabled := fun _ =>
  ⟨(exec_handler_isNext .rxc).trans (and_congr_right' State.vectorEnabled_rxc_iff),
    (exec_handler_isNext .dre).trans (and_congr_right' State.vectorEnabled_dre_iff),
    (exec_handler_isNext .txc).trans (and_congr_right' State.vectorEnabled_txc_iff)⟩

/-- Settles O32: a list has one first pending vector, and has one as soon as something is pending. -/
theorem oneVectorIsEnabledAtATime : Obligations.OneVectorIsEnabledAtATime := by
  intro s
  refine ⟨fun v w hv hw => ?_, fun hdre => ?_, fun htxc => ?_, fun hgie ⟨v, hpending⟩ => ?_, fun hgie v => ?_⟩
  · obtain ⟨-, hfirst⟩ := State.vectorEnabled_iff_firstPending.mp hv
    obtain ⟨-, hfirst'⟩ := State.vectorEnabled_iff_firstPending.mp hw
    exact Option.some.inj (hfirst.symm.trans hfirst')
  · obtain ⟨-, -, hhighest⟩ := State.vectorEnabled_iff.mp hdre
    exact State.highest_dre_iff.mp hhighest
  · obtain ⟨-, -, hhighest⟩ := State.vectorEnabled_iff.mp htxc
    exact State.highest_txc_iff.mp hhighest
  · have hsome : s.firstPending.isSome = true := List.find?_isSome.mpr ⟨v, by cases v <;> simp, hpending⟩
    obtain ⟨w, hfirst⟩ := Option.isSome_iff_exists.mp hsome
    exact ⟨w, State.vectorEnabled_iff_firstPending.mpr ⟨hgie, hfirst⟩⟩
  · simp [State.vectorEnabled, hgie]

/-! ## ISR_RXC (R131) -/

/-- Settles O33: the frame taken out of RDR is pushed, and O8 says what the push does. -/
theorem isrRxcFollowsItsRule : Obligations.IsrRxcFollowsItsRule := by
  refine ⟨rfl, fun s f hstop hinv hgie hrdr hrxcie => ?_⟩
  have h := State.inv_iff.mp hinv
  obtain ⟨hcap, -⟩ := Params.wf_iff.mp h.params
  have henabled : s.vectorEnabled .rxc = true := State.vectorEnabled_rxc_iff.mpr ⟨hgie, by simp [hrdr], hrxcie⟩
  obtain ⟨hframe, hroom, hdropNewest, hoverwriteOldest⟩ := pushRxFollowsTheOverrunPolicy
    { s with rdr := none, fe := s.fe || f.fe, pe := s.pe || f.pe } f.b h.rx hcap
  refine ⟨_, (exec_handler_next .rxc).mpr ⟨hstop, henabled, (receiveComplete_frame hrdr).symm⟩, (h.rdr f hrdr).1, hframe, hroom,
    hdropNewest, fun hfull hpolicy => ?_⟩
  obtain ⟨hcontents, -, hovr⟩ := hoverwriteOldest hfull hpolicy
  exact ⟨hcontents, hovr⟩

/-! ## ISR_DRE (R132) -/

theorem Ring.contents_eq_nil_iff {n : Nat} {r : Ring} (h : r.wf n = true) : r.contents n = [] ↔ r.isEmpty = true := by
  rw [← List.length_eq_zero_iff, Ring.length_contents, Ring.count_zero_iff h, Ring.isEmpty_iff]

/-- A ring with an oldest byte: it is at the head, and the others are what dropping it leaves. -/
theorem Ring.contents_eq_cons {n : Nat} {r : Ring} {b : Byte} {rest : List Byte} (h : r.wf n = true)
    (hcontents : r.contents n = b :: rest) :
    r.isEmpty = false ∧ Memory.read r.store r.head = b ∧ (r.dropOldest n).contents n = rest := by
  have hempty : r.isEmpty = false := by
    rw [← Bool.not_eq_true, ← Ring.contents_eq_nil_iff h, hcontents]
    exact List.cons_ne_nil b rest
  obtain ⟨holdest, hothers⟩ := List.cons.inj ((Ring.contents_advance h hempty).symm.trans hcontents)
  exact ⟨hempty, holdest, hothers⟩

/-- Settles O34: by the invariant DREIE means Sending; the body's two cases are those of the ring. -/
theorem isrDreFollowsItsRule : Obligations.IsrDreFollowsItsRule := by
  refine ⟨rfl, fun s hstop hinv hgie hudr hdreie hrxc => ?_⟩
  have h := State.inv_iff.mp hinv
  have henabled : s.vectorEnabled .dre = true := State.vectorEnabled_dre_iff.mpr ⟨hgie, hudr, hdreie, hrxc⟩
  refine ⟨h.sending_of_dreie hdreie, fun b rest hcontents => ?_, fun hcontents => ?_⟩
  · obtain ⟨hempty, rfl, hothers⟩ := Ring.contents_eq_cons h.tx hcontents
    exact ⟨_, (exec_handler_next .dre).mpr ⟨hstop, henabled, (dataRegisterEmpty_byte hempty).symm⟩, rfl, hothers, rfl, rfl⟩
  · have hempty := (Ring.contents_eq_nil_iff h.tx).mp hcontents
    exact (exec_handler_next .dre).mpr ⟨hstop, henabled, (dataRegisterEmpty_empty hempty).symm⟩

/-! ## ISR_TXC (R133) -/

/-- Settles O35: by the invariant TXCIE means Draining, where DRE is not pending, and TXCF stands on empty registers only. -/
theorem isrTxcFollowsItsRule : Obligations.IsrTxcFollowsItsRule := by
  refine ⟨rfl, fun s hstop hinv hgie htxcf htxcie hrxc => ?_⟩
  have h := State.inv_iff.mp hinv
  have htxs := h.draining_of_txcie htxcie
  obtain ⟨-, hdreie, -, hempty, -⟩ := h.draining htxs
  obtain ⟨hudr, htsr⟩ := h.txcf htxcf
  have henabled : s.vectorEnabled .txc = true :=
    State.vectorEnabled_txc_iff.mpr ⟨hgie, htxcf, htxcie, hrxc, by simp [hdreie]⟩
  exact ⟨htxs, hempty, hudr, htsr, (exec_handler_next .txc).mpr ⟨hstop, henabled, rfl⟩⟩

/-! ## What the handlers leave unchanged (R140, R220) -/

@[simp] theorem Ring.pop_store (n : Nat) (r : Ring) : (r.pop n).2.store = r.store := by
  unfold Ring.pop
  split <;> rfl

/-- A push stores at the tail only (R100). -/
theorem Ring.read_push_of_ne_tail {n : Nat} {r : Ring} (h : r.wf n = true) (b : Byte) {a : Nat} (ha : a ≠ r.tail) :
    Memory.read (r.push n b).2.store a = Memory.read r.store a := by
  obtain ⟨-, -, hstore, -⟩ := Ring.wf_iff.mp h
  cases hfull : r.isFull n with
  | true => rw [Ring.push_full b hfull]
  | false => rw [Ring.push_room b hfull, Memory.read_write hstore, if_neg ha]

/-- push_rx stores at the tail only: dropping the oldest byte moves the head (R105). -/
theorem State.pushRx_read_of_ne_tail {s : State} (h : s.rx.wf s.params.rxCap = true) (b : Byte) {a : Nat} (ha : a ≠ s.rx.tail) :
    Memory.read (s.pushRx b).rx.store a = Memory.read s.rx.store a := by
  cases hfull : s.rx.isFull s.params.rxCap with
  | false =>
    rw [State.pushRx_room b hfull]
    exact Ring.read_push_of_ne_tail h b ha
  | true =>
    cases hpolicy : s.params.rxOverrunPolicy with
    | dropNewest => rw [State.pushRx_dropNewest b hfull hpolicy]
    | overwriteOldest =>
      rw [State.pushRx_overwriteOldest b hfull hpolicy]
      exact Ring.read_push_of_ne_tail (Ring.wf_dropOldest h) b ha

theorem receiveComplete_read_of_ne_tail {s : State} (h : s.rx.wf s.params.rxCap = true) {a : Nat} (ha : a ≠ s.rx.tail) :
    Memory.read (receiveComplete s).rx.store a = Memory.read s.rx.store a := by
  cases hrdr : s.rdr with
  | none => rw [receiveComplete_none hrdr]
  | some f =>
    rw [receiveComplete_frame hrdr]
    exact State.pushRx_read_of_ne_tail (s := { s with rdr := none, fe := s.fe || f.fe, pe := s.pe || f.pe }) h f.b ha

theorem dataRegisterEmpty_rxcie (s : State) : (dataRegisterEmpty s).ie.rxcie = s.ie.rxcie := by
  cases hempty : s.tx.isEmpty with
  | false => rw [dataRegisterEmpty_byte hempty]
  | true => rw [dataRegisterEmpty_empty hempty]

/-- Settles O42, handler by handler: the frame of its body, and what the body does to the storage. -/
theorem handlersFrame : Obligations.HandlersFrame := by
  intro s t hinv
  have h := State.inv_iff.mp hinv
  refine ⟨fun hexec => ?_, fun hexec => ?_, fun hexec => ?_⟩
  · obtain ⟨-, -, rfl⟩ := (exec_handler_next .rxc).mp hexec
    have hframe := receiveComplete_receiveSide s
    exact ⟨hframe, fun _ ha => receiveComplete_read_of_ne_tail h.rx ha,
      fun a => (congrArg (fun u => Memory.read u.tx.store a) hframe :)⟩
  · obtain ⟨-, -, rfl⟩ := (exec_handler_next .dre).mp hexec
    have hframe := dataRegisterEmpty_frame s
    have htx := dataRegisterEmpty_tx s
    refine ⟨hframe, (congrArg Ring.tail htx).trans (Ring.pop_tail _ _), dataRegisterEmpty_rxcie s, fun a => ⟨?_, ?_⟩⟩
    · exact (congrArg (fun u => Memory.read u.rx.store a) hframe :)
    · exact congrArg (Memory.read · a) ((congrArg Ring.store htx).trans (Ring.pop_store _ _))
  · obtain ⟨-, -, rfl⟩ := (exec_handler_next .txc).mp hexec
    exact ⟨rfl, rfl, rfl, fun _ => ⟨rfl, rfl⟩⟩

end Sys2Proof.Machine

/-! SUPPORT. The statements of 43_public_api.md: what each host command holds on and does (R150 to R173), that only the critical-section
commands write GIE (R35), and what the host commands leave unchanged. -/

namespace Sys2Proof

/-! ## The words of the host commands (R72 to R74) -/

theorem opcode_formatO (baud : BitVec 22) (p : BitVec 2) (st : BitVec 1) (d : BitVec 3) : opcode (formatO baud p st d) = 0x1#4 := by
  obtain ⟨⟨⟨⟨hop, -⟩, -⟩, -⟩, -⟩ := formatO_eq_iff.mp (rfl : formatO baud p st d = _)
  exact hop

/-- The operand of a format B word stands in bits 7:0, below its opcode (R73). -/
theorem formatB_eq_or (op : BitVec 4) (v : Byte) : formatB op v = formatN op ||| v.zeroExtend 32 := by
  refine BitVec.eq_of_getLsbD_eq fun k hk => ?_
  simp only [formatB, formatN, BitVec.getLsbD_or, BitVec.getLsbD_append, BitVec.truncate_eq_setWidth, BitVec.getLsbD_setWidth]
  by_cases hlow : k < 8
  · simp [hlow, hk, show k < 28 by omega]
  · have hhigh : v.getLsbD k = false := BitVec.getLsbD_of_ge v k (by omega)
    simp [hlow, hhigh, show k - 8 - 20 = k - 28 by omega, show k - 8 < 20 ↔ k < 28 by omega]

end Sys2Proof

namespace Sys2Proof.Machine

/-! ## When a host command is performed (R215, R216) -/

theorem State.ready_host {i : Instr} (s : State) (h : i.port = .host) : s.ready i = true := by
  cases i with
  | isrRxc | isrDre | isrTxc | uartRx | uartTxLoad | uartTxDone => cases h
  | _ => rfl

/-- A host command that does not hold is performed: only its hold can keep it from its effect. -/
theorem exec_hostCommand {i : Instr} {s : State} (hport : i.port = .host) (hstop : s.stop = .running) (hholds : s.holds i = false) :
    exec i s = .next (effectOf i s) :=
  exec_enabled (State.enabled_iff.mpr ⟨hstop, hholds, s.ready_host hport⟩)

theorem State.txInProgress_iff {s : State} : s.txInProgress = true ↔ s.txs ≠ .idle := by simp [State.txInProgress]

theorem State.txInProgress_eq_false_iff {s : State} : s.txInProgress = false ↔ s.txs = .idle := by simp [State.txInProgress]

/-! ## OPEN (R150, R213) -/

section
variable {baud : BitVec 22} {p : Parity} {st : StopBits} {d : DataBits} {f : FrameBits}

theorem dataBitsToFrame_of_ne_nine (h : d ≠ .nine) : ∃ f, dataBitsToFrame d = some f := by
  cases d with
  | nine => exact absurd rfl h
  | _ => exact ⟨_, rfl⟩

theorem State.holds_openUart (s : State) (h : dataBitsToFrame d = some f) : s.holds (.openUart baud p st d) = s.txInProgress := by
  simp [State.holds, h]

theorem effectOf_openUart (s : State) (h : dataBitsToFrame d = some f) :
    effectOf (.openUart baud p st d) s = openEffect baud p st f s := by
  simp [effectOf, h]

end

/-- Settles O22: the data bits decide between the refusal, which never holds, and OPEN's effect, which holds while not Idle. -/
theorem openFollowsItsRule : Obligations.OpenFollowsItsRule := by
  refine ⟨fun _ _ _ _ => opcode_formatO .., fun s baud p st d hstop => ⟨?_, fun hbits hbusy => ?_, fun f hf hidle => ?_⟩⟩
  · rintro rfl
    exact exec_hostCommand rfl hstop rfl
  · obtain ⟨f, hf⟩ := dataBitsToFrame_of_ne_nine hbits
    rw [s.holds_openUart hf]
    exact State.txInProgress_iff.mpr hbusy
  · have hholds : s.holds (.openUart baud p st d) = false := (s.holds_openUart hf).trans (State.txInProgress_eq_false_iff.mpr hidle)
    rw [exec_hostCommand rfl hstop hholds, effectOf_openUart s hf]
    rfl

/-! ## CLOSE (R155) -/

theorem Ring.reset_eq_self {r : Ring} (hhead : r.head = 0) (htail : r.tail = 0) : r.reset = r := by
  obtain ⟨store, head, tail⟩ := r
  cases hhead
  cases htail
  rfl

theorem InterruptEnables.eq_disabled {e : InterruptEnables} (hrxcie : e.rxcie = false) (hdreie : e.dreie = false)
    (htxcie : e.txcie = false) : e = { rxcie := false, dreie := false, txcie := false } := by
  obtain ⟨rxcie, dreie, txcie⟩ := e
  cases hrxcie
  cases hdreie
  cases htxcie
  rfl

/-- A closed block is as CLOSE would leave it (R47). -/
theorem State.Inv.closeEffect_eq_self {s : State} (h : s.Inv) (hclosed : s.isOpen = false) : Machine.closeEffect s = s := by
  obtain ⟨-, hrxcie, hdreie, htxcie, -, hrxHead, hrxTail, htxHead, htxTail, hrdr⟩ := h.closed hclosed
  rw [Machine.closeEffect, Ring.reset_eq_self hrxHead hrxTail, Ring.reset_eq_self htxHead htxTail,
    ← InterruptEnables.eq_disabled hrxcie hdreie htxcie, ← hrdr, ← hclosed]

theorem exec_close {s : State} (hstop : s.stop = .running) (hidle : s.txs = .idle) : exec .close s = .next (closeEffect s) :=
  exec_hostCommand rfl hstop (State.txInProgress_eq_false_iff.mpr hidle)

/-- Settles O23: a closed block is Idle, and CLOSE's effect finds nothing to change in it. -/
theorem closeFollowsItsRule : Obligations.CloseFollowsItsRule := by
  refine ⟨rfl, fun s hstop hinv => ?_⟩
  have h := State.inv_iff.mp hinv
  refine ⟨State.txInProgress_iff.mpr, fun hidle => ⟨exec_close hstop hidle, ?_⟩, fun hclosed => ?_⟩
  · obtain ⟨-, -, -, -, -, -, hdir⟩ := h.idle hidle
    exact hdir
  · obtain ⟨hidle, -⟩ := h.closed hclosed
    exact ⟨(exec_close hstop hidle).trans (congrArg _ (h.closeEffect_eq_self hclosed)), State.txInProgress_eq_false_iff.mpr hidle⟩

/-! ## WRITE and TRYWRITE (R158, R160) -/

theorem State.acceptByte_txs (s : State) (v : Byte) : (s.acceptByte v).txs = .sending := by
  cases htxs : s.txs with
  | idle => rw [State.acceptByte_idle v htxs]
  | sending => rw [State.acceptByte_sending v htxs, htxs]
  | draining => rw [State.acceptByte_draining v htxs]

theorem State.acceptByte_ie (s : State) (v : Byte) :
    (s.acceptByte v).ie = if s.txs = .sending then s.ie else { rxcie := s.ie.rxcie, dreie := true, txcie := false } := by
  cases htxs : s.txs with
  | idle => simp [State.acceptByte_idle v htxs]
  | sending => simp [State.acceptByte_sending v htxs]
  | draining => simp [State.acceptByte_draining v htxs]

@[simp] theorem State.acceptByte_txHead (s : State) (v : Byte) : (s.acceptByte v).tx.head = s.tx.head := by
  rw [State.acceptByte_tx, Ring.push_head]

/-- What a WRITE or a TRYWRITE of `v` that is accepted in `s` leaves as `t` (R158). -/
def AcceptedInto (s : State) (v : Byte) (t : State) : Prop :=
  t = { s with tx := t.tx, dir := t.dir, ie := t.ie, txs := t.txs, res := t.res } ∧
    t.tx.head = s.tx.head ∧ t.tx.contents s.params.txCap = s.tx.contents s.params.txCap ++ [v] ∧
    t.dir = (if s.txs = .idle then .transmit else s.dir) ∧
    t.ie = (if s.txs = .sending then s.ie else { rxcie := s.ie.rxcie, dreie := true, txcie := false }) ∧
    t.txs = .sending ∧ t.res = 1

theorem State.Inv.acceptedInto {s : State} (h : s.Inv) (v : Byte) (hroom : s.txFull = false) :
    AcceptedInto s v (s.acceptByte v) := by
  refine ⟨s.acceptByte_frame v, s.acceptByte_txHead v, ?_, s.acceptByte_dir v, s.acceptByte_ie v, s.acceptByte_txs v, rfl⟩
  rw [State.acceptByte_tx]
  exact Ring.contents_push h.tx v hroom

/-- Draining has an empty ring (R46), and an empty ring is not full. -/
theorem State.Inv.txFull_of_draining {s : State} (h : s.Inv) (htxs : s.txs = .draining) : s.txFull = false := by
  obtain ⟨-, -, -, hempty, -⟩ := h.draining htxs
  obtain ⟨-, -, hcap, -⟩ := Params.wf_iff.mp h.params
  by_contra hfull
  rw [Ring.nonempty_of_full h.tx hcap (Bool.eq_true_of_not_eq_false hfull)] at hempty
  cases hempty

/-- Settles O24: what a WRITE that does not hold does is decided by whether the block is open. -/
theorem writeFollowsItsRule : Obligations.WriteFollowsItsRule := by
  refine ⟨formatB_eq_or 0x3#4, fun s v hstop hinv => ?_⟩
  have h := State.inv_iff.mp hinv
  have hholds : s.holds (.write v) = (s.isOpen && s.txFull) := rfl
  refine ⟨fun hclosed => ?_, fun hopen hfull => ?_, fun hopen hroom => ?_, fun hdraining => ?_⟩
  · rw [exec_hostCommand rfl hstop (by rw [hholds, hclosed, Bool.false_and])]
    exact congrArg _ (writeEffect_closed v hclosed)
  · exact Bool.and_eq_true_iff.mpr ⟨hopen, hfull⟩
  · have hperformed : s.holds (.write v) = false := Bool.and_eq_false_imp.mpr fun _ => hroom
    exact ⟨hperformed, _, (exec_hostCommand rfl hstop hperformed).trans (congrArg _ (writeEffect_open v hopen)), h.acceptedInto v hroom⟩
  · exact Bool.and_eq_false_imp.mpr fun _ => h.txFull_of_draining hdraining

/-- Settles O25: a TRYWRITE finds room in an open block, or is rejected. -/
theorem tryWriteFollowsItsRule : Obligations.TryWriteFollowsItsRule := by
  refine ⟨formatB_eq_or 0x4#4, fun s v hstop hinv => ?_⟩
  have h := State.inv_iff.mp hinv
  have hexec : exec (.tryWrite v) s = .next (tryWriteEffect v s) := exec_hostCommand rfl hstop rfl
  refine ⟨rfl, fun hreject => ?_, fun hopen hroom => ?_⟩
  · have hnoRoom : (s.isOpen && !s.txFull) = false := by
      obtain hclosed | hfull := hreject
      · simp [hclosed]
      · simp [State.txFull, hfull]
    exact hexec.trans (congrArg _ (tryWriteEffect_noRoom v hnoRoom))
  · have haccept := tryWriteEffect_room (s := s) v (by simp [State.txFull, hopen, hroom])
    exact ⟨_, hexec.trans (congrArg _ haccept), h.acceptedInto v hroom⟩

/-! ## READ and PEEK (R162, R164) -/

theorem byteResult_some (b : Byte) : byteResult (some b) = 0x100#32 ||| b.zeroExtend 32 := by
  revert b
  decide

theorem State.Inv.rx_isEmpty_of_closed {s : State} (h : s.Inv) (hclosed : s.isOpen = false) : s.rx.isEmpty = true := by
  obtain ⟨-, -, -, -, -, hhead, htail, -⟩ := h.closed hclosed
  exact Ring.isEmpty_iff.mpr (hhead.trans htail.symm)

/-- Settles O26: PEEK answers what the pop of READ answers, and the pop's two cases are those of the contents. -/
theorem readAndPeekAnswerTheOldestByte : Obligations.ReadAndPeekAnswerTheOldestByte := by
  refine ⟨rfl, rfl, fun s hstop hinv => ?_⟩
  have h := State.inv_iff.mp hinv
  obtain ⟨hanswer, hleft⟩ := Ring.pop_contents h.rx
  refine ⟨rfl, rfl, _, _, exec_hostCommand rfl hstop rfl, exec_hostCommand rfl hstop rfl, rfl, ?_, fun hclosed => ?_, ?_⟩
  · simp only [effectOf, Ring.peek_eq_pop s.params.rxCap]
  · have hpop := Ring.pop_empty (n := s.params.rxCap) (h.rx_isEmpty_of_closed hclosed)
    exact congrArg (fun x => byteResult x.1) hpop
  · cases hcontents : s.rx.contents s.params.rxCap with
    | nil =>
      have hpop := Ring.pop_empty (n := s.params.rxCap) ((Ring.contents_eq_nil_iff h.rx).mp hcontents)
      exact ⟨congrArg Prod.snd hpop, (congrArg (fun x => byteResult x.1) hpop :)⟩
    | cons b rest =>
      rw [hcontents] at hanswer hleft
      exact ⟨hleft, Ring.pop_tail _ _, Ring.pop_store _ _, (congrArg byteResult hanswer).trans (byteResult_some b)⟩

/-! ## AVAILABLE (R165) -/

/-- Settles O27: the length is below RX_CAP, so that the result word holds it. -/
theorem availableCountsTheReceivedBytes : Obligations.AvailableCountsTheReceivedBytes := by
  refine ⟨rfl, fun s hstop hinv => ⟨rfl, _, exec_hostCommand rfl hstop rfl, rfl, ?_⟩⟩
  have h := State.inv_iff.mp hinv
  obtain ⟨hcap, hcapMax, -⟩ := Params.wf_iff.mp h.params
  have hlt : s.rx.count s.params.rxCap < s.params.rxCap := Ring.count_lt (by omega)
  have hres : (effectOf .available s).res.toNat = s.rx.count s.params.rxCap := by
    simp only [effectOf, countResult, Ring.len, BitVec.toNat_ofNat]
    omega
  rw [hres, Ring.length_contents]
  exact ⟨rfl, by omega⟩

/-! ## STATUS (R33, R166) -/

theorem statusResult_getLsbD (b : Byte) (k : Nat) : (statusResult b).getLsbD k = b.getLsbD k := by
  have hlt : b.getLsbD k = true → k < 32 := fun h => (BitVec.lt_of_getLsbD h).trans (by decide)
  simpa [statusResult] using hlt

theorem statusResult_extractLsb' (b : Byte) (a n : Nat) : (statusResult b).extractLsb' a n = b.extractLsb' a n := by
  refine BitVec.eq_of_getLsbD_eq fun k _ => ?_
  simp only [BitVec.getLsbD_extractLsb', statusResult_getLsbD]

theorem statusResult_lt (b : Byte) : (statusResult b).toNat < 256 := by
  rw [statusResult, BitVec.toNat_setWidth]
  exact (Nat.mod_le _ _).trans_lt b.isLt

theorem State.statusByte_txs (s : State) : s.statusByte.extractLsb' 4 2 = s.txs.code := by
  refine BitVec.eq_of_getLsbD_eq fun k hk => ?_
  simp only [State.statusByte, BitVec.getLsbD_extractLsb', BitVec.getLsbD_append]
  interval_cases k <;> simp

/-- The bits of the status byte, TXS apart (R33). -/
theorem State.statusByte_bits (s : State) :
    s.statusByte.getLsbD 0 = s.ovr ∧ s.statusByte.getLsbD 1 = s.fe ∧ s.statusByte.getLsbD 2 = s.pe ∧
      s.statusByte.getLsbD 3 = s.dor ∧ s.statusByte.getLsbD 6 = decide (s.dir = .transmit) ∧ s.statusByte.getLsbD 7 = s.isOpen := by
  simp only [State.statusByte, BitVec.getLsbD_append]
  simp [beq_eq_decide]

/-- Settles O28: the result word is the status byte with zeros above. -/
theorem statusReportsAndClearsTheFlags : Obligations.StatusReportsAndClearsTheFlags := by
  refine ⟨rfl, fun s hstop => ⟨rfl, _, exec_hostCommand rfl hstop rfl, rfl, ?_⟩⟩
  show (statusResult s.statusByte).toNat < 256 ∧ _
  obtain ⟨hovr, hfe, hpe, hdor, hdir, hopen⟩ := s.statusByte_bits
  have hbit := statusResult_getLsbD s.statusByte
  exact ⟨statusResult_lt _, (hbit 0).trans hovr, (hbit 1).trans hfe, (hbit 2).trans hpe, (hbit 3).trans hdor,
    (statusResult_extractLsb' _ 4 2).trans s.statusByte_txs, (hbit 6).trans hdir, (hbit 7).trans hopen⟩

/-! ## FLUSH (R168) -/

/-- Settles O29: FLUSH has no effect but its hold, and a closed block is Idle by the invariant. -/
theorem flushFollowsItsRule : Obligations.FlushFollowsItsRule := by
  refine ⟨rfl, fun s hstop => ⟨State.txInProgress_iff.mpr, fun hidle => ?_, fun hinv hclosed => ?_⟩⟩
  · have hholds : s.holds .flush = false := State.txInProgress_eq_false_iff.mpr hidle
    exact ⟨hholds, exec_hostCommand rfl hstop hholds⟩
  · obtain ⟨hidle, -⟩ := (State.inv_iff.mp hinv).closed hclosed
    exact hidle

/-! ## CS_ENTER and CS_EXIT (R172, R173) -/

/-- Only the critical-section commands write GIE (R35). -/
theorem effectOf_gie {i : Instr} (s : State) (henter : i ≠ .csEnter) (hexit : i ≠ .csExit) : (effectOf i s).gie = s.gie := by
  by_cases hport : i.port = .host
  · cases i with
    | csEnter => exact absurd rfl henter
    | csExit => exact absurd rfl hexit
    | openUart baud p st d => cases d <;> rfl
    | write v => exact (congrArg State.gie (writeEffect_frame v s) :)
    | tryWrite v => exact (congrArg State.gie (tryWriteEffect_frame v s) :)
    | isrRxc | isrDre | isrTxc | uartRx | uartTxLoad | uartTxDone => cases hport
    | _ => rfl
  · obtain ⟨-, -, -, hgie, -⟩ := effectOf_otherAgent s hport
    exact hgie

/-- Settles O30: with GIE at 1 the gate is open, and what is left of a vector's enabling is its being pending and highest. -/
theorem onlyTheCriticalSectionCommandsWriteGie : Obligations.OnlyTheCriticalSectionCommandsWriteGie := by
  refine ⟨rfl, rfl, fun s hstop => ⟨rfl, exec_hostCommand rfl hstop rfl, rfl, exec_hostCommand rfl hstop rfl, fun v => ?_⟩,
    fun i s t hexec henter hexit => ?_⟩
  · show (true && s.pending v && s.highest v) = _
    rw [Bool.true_and]
  · obtain ⟨-, ⟨-, rfl⟩ | ⟨-, -, rfl⟩⟩ := exec_next.mp hexec
    · rfl
    · exact effectOf_gie s henter hexit

/-! ## What the host commands leave unchanged -/

/-- Settles O39, command by command: each writes its own elements, and READ's pop moves the head alone. -/
theorem queryCommandsFrame : Obligations.QueryCommandsFrame := by
  intro i s t hi hexec
  obtain ⟨-, ⟨-, rfl⟩ | ⟨-, -, rfl⟩⟩ := exec_next.mp hexec
  · exact ⟨rfl, fun _ => ⟨rfl, rfl⟩, rfl, fun _ => rfl, fun _ => ⟨rfl, rfl, rfl, rfl⟩, fun _ _ => rfl, fun _ => rfl⟩
  · cases i with
    | peek | available =>
      exact ⟨rfl, fun _ => ⟨rfl, rfl⟩, rfl, fun _ => rfl, fun _ => ⟨rfl, rfl, rfl, rfl⟩, effectOf_gie s, by simp⟩
    | status => exact ⟨rfl, fun _ => ⟨rfl, rfl⟩, rfl, fun _ => rfl, absurd rfl, effectOf_gie s, by simp⟩
    | flush | csEnter | csExit =>
      exact ⟨rfl, fun _ => ⟨rfl, rfl⟩, rfl, fun _ => rfl, fun _ => ⟨rfl, rfl, rfl, rfl⟩, effectOf_gie s, fun _ => rfl⟩
    | read =>
      exact ⟨rfl, fun a => ⟨congrArg (Memory.read · a) (Ring.pop_store _ _), rfl⟩, Ring.pop_tail _ _, absurd rfl,
        fun _ => ⟨rfl, rfl, rfl, rfl⟩, effectOf_gie s, by simp⟩
    | _ => simp at hi

/-- Everything a WRITE or a TRYWRITE can leave: it is held, or it is not accepted, or its byte is. -/
theorem exec_writeCommand_next {i : Instr} {v : Byte} {s t : State} (hi : i = .write v ∨ i = .tryWrite v) (h : exec i s = .next t) :
    t = s ∨ t = { s with res := 0 } ∨ t = s.acceptByte v := by
  obtain ⟨-, ⟨-, rfl⟩ | ⟨-, -, rfl⟩⟩ := exec_next.mp h
  · exact .inl rfl
  · obtain rfl | rfl := hi
    · obtain hopen | hclosed := s.isOpen.eq_false_or_eq_true
      · exact .inr (.inr (writeEffect_open v hopen))
      · exact .inr (.inl (writeEffect_closed v hclosed))
    · obtain ⟨-, -, haccept⟩ | ⟨-, hreject⟩ := tryWriteEffect_cases v s
      · exact .inr (.inr haccept)
      · exact .inr (.inl hreject)

theorem State.acceptByte_rxcie (s : State) (v : Byte) : (s.acceptByte v).ie.rxcie = s.ie.rxcie := by
  rw [State.acceptByte_ie]
  split <;> rfl

/-- Settles O40: an accepted byte is pushed, and a push stores at the tail only. -/
theorem writeCommandsFrame : Obligations.WriteCommandsFrame := by
  intro i v s t hi hinv hexec
  obtain rfl | rfl | rfl := exec_writeCommand_next hi hexec
  · exact ⟨rfl, rfl, rfl, fun _ _ => rfl, fun _ => rfl⟩
  · exact ⟨rfl, rfl, rfl, fun _ _ => rfl, fun _ => rfl⟩
  · have hframe := s.acceptByte_frame v
    refine ⟨hframe, s.acceptByte_txHead v, s.acceptByte_rxcie v, fun a ha => ?_,
      fun a => (congrArg (fun u => Memory.read u.rx.store a) hframe :)⟩
    rw [State.acceptByte_tx]
    exact Ring.read_push_of_ne_tail (State.inv_iff.mp hinv).tx v ha

/-- Everything OPEN can leave: it is held, or it configures an Idle block, or it is refused. -/
theorem exec_openUart_next {baud : BitVec 22} {p : Parity} {st : StopBits} {d : DataBits} {s t : State}
    (h : exec (.openUart baud p st d) s = .next t) :
    t = s ∨ (∃ f, s.txs = .idle ∧ t = openEffect baud p st f s) ∨ ∃ w, t = s.refuse .nineBitData w := by
  obtain ⟨-, ⟨-, rfl⟩ | ⟨hholds, -, rfl⟩⟩ := exec_next.mp h
  · exact .inl rfl
  · by_cases hbits : d = .nine
    · subst hbits
      exact .inr (.inr ⟨_, rfl⟩)
    · obtain ⟨f, hf⟩ := dataBitsToFrame_of_ne_nine hbits
      rw [s.holds_openUart hf] at hholds
      exact .inr (.inl ⟨f, State.txInProgress_eq_false_iff.mp hholds, effectOf_openUart s hf⟩)

/-- OPEN's effect writes TXS too, which is Idle already. -/
theorem openEffect_frame (baud : BitVec 22) (p : Parity) (st : StopBits) (f : FrameBits) {s : State} (hidle : s.txs = .idle) :
    openEffect baud p st f s =
      { s with
        cfg := (openEffect baud p st f s).cfg, rx := s.rx.reset, tx := s.tx.reset, ovr := false, fe := false, pe := false, dor := false,
        rdr := none, ie := (openEffect baud p st f s).ie, isOpen := true } := by
  rw [openEffect, ← hidle]
  rfl

theorem exec_close_next {s t : State} (h : exec .close s = .next t) : t = s ∨ t = closeEffect s := by
  obtain ⟨-, ⟨-, rfl⟩ | ⟨-, -, rfl⟩⟩ := exec_next.mp h
  · exact .inl rfl
  · exact .inr rfl

/-- Settles O41, from what OPEN can leave and what CLOSE can leave: emptying a ring stores nothing (R104). -/
theorem lifecycleCommandsFrame : Obligations.LifecycleCommandsFrame := by
  intro i s t hexec
  refine ⟨?_, ?_, ?_⟩
  · rintro ⟨baud, p, st, d, rfl⟩
    obtain rfl | ⟨f, hidle, rfl⟩ | ⟨w, rfl⟩ := exec_openUart_next hexec
    · rfl
    · exact openEffect_frame baud p st f hidle
    · rfl
  · rintro rfl
    obtain rfl | rfl := exec_close_next hexec
    · rfl
    · rfl
  · rintro (⟨baud, p, st, d, rfl⟩ | rfl) a
    · obtain rfl | ⟨f, -, rfl⟩ | ⟨w, rfl⟩ := exec_openUart_next hexec <;> exact ⟨rfl, rfl⟩
    · obtain rfl | rfl := exec_close_next hexec <;> exact ⟨rfl, rfl⟩

end Sys2Proof.Machine

/-! SUPPORT. The statements of 44_uart_events.md: what each event of the UART does (R190 to R192), what the events leave unchanged, and
that frames taken in time are received in order. -/

namespace Sys2Proof

/-! ## The word of UART_RX (R76) -/

/-- The operands of a format F word stand in bits 9:0, below its opcode: bit by bit. -/
theorem formatF_eq_or (b : Byte) (fe pe : Bool) :
    formatF b fe pe =
      formatN 0xD#4 ||| b.zeroExtend 32 ||| (BitVec.ofBool fe).zeroExtend 32 <<< 8 ||| (BitVec.ofBool pe).zeroExtend 32 <<< 9 := by
  refine BitVec.eq_of_getLsbD_eq fun k hk => ?_
  simp only [formatF, formatN, BitVec.getLsbD_or, BitVec.getLsbD_append]
  interval_cases k <;> simp

end Sys2Proof

namespace Sys2Proof.Machine

/-! ## The mask of the data bits (R193) -/

theorem dmask_toNat (d : FrameBits) : (dmask d).toNat = 2 ^ d.toNat - 1 := by cases d <;> rfl

theorem onWire_toNat (c : FrameConfig) (b : Byte) : (onWire c b).toNat = b.toNat % 2 ^ c.dbits.toNat := by
  rw [onWire, BitVec.toNat_and, dmask_toNat, Nat.and_two_pow_sub_one_eq_mod]

/-! ## When an event is performed (R190 to R192) -/

/-- No event of the UART holds, so it answers a next state only as an enabled step. -/
theorem exec_uartEvent_next {i : Instr} {s t : State} (hport : i.port = .uart) :
    exec i s = .next t ↔ s.stop = .running ∧ s.ready i = true ∧ t = effectOf i s := by
  have hholds : s.holds i = false := by
    cases i with
    | uartRx | uartTxLoad | uartTxDone => rfl
    | _ => cases hport
  simp [exec_next, hholds]

theorem exec_uartRx {s : State} (b : Byte) (fe pe : Bool) (hstop : s.stop = .running) :
    exec (.uartRx b fe pe) s = .next (frameArrives b fe pe s) :=
  (exec_uartEvent_next rfl).mpr ⟨hstop, rfl, rfl⟩

theorem State.ready_uartTxLoad_iff {s : State} : s.ready .uartTxLoad = true ↔ s.udr ≠ none ∧ s.tsr = none := by
  simp [State.ready, Option.isSome_iff_ne_none]

theorem State.ready_uartTxDone_iff {s : State} : s.ready .uartTxDone = true ↔ s.tsr ≠ none := by
  simp [State.ready, Option.isSome_iff_ne_none]

/-! ## The three events (R190 to R192) -/

/-- Settles O36: the three cases of a frame's arrival. -/
theorem uartRxFollowsItsRule : Obligations.UartRxFollowsItsRule := by
  refine ⟨formatF_eq_or, fun s b fe pe hstop => ?_⟩
  rw [exec_uartRx b fe pe hstop]
  refine ⟨fun hclosed => ?_, fun hopen hrdr => ?_, fun hopen hrdr => ?_⟩
  · rw [frameArrives_closed b fe pe hclosed]
  · obtain ⟨f, hf⟩ := Option.ne_none_iff_exists'.mp hrdr
    rw [frameArrives_lost b fe pe hopen hf]
  · rw [frameArrives_taken b fe pe hopen hrdr]
    exact ⟨_, rfl, onWire_toNat s.cfg b, rfl, by simp [receivedFrame]⟩

/-- Settles O37: the event is ready on a full data register and an empty shift register. -/
theorem uartTxLoadFollowsItsRule : Obligations.UartTxLoadFollowsItsRule := by
  refine ⟨rfl, fun s hstop => ⟨fun b hudr htsr => ?_, fun hblocked => ?_⟩⟩
  · have hready : s.ready .uartTxLoad = true := State.ready_uartTxLoad_iff.mpr ⟨by simp [hudr], htsr⟩
    exact (exec_uartEvent_next rfl).mpr ⟨hstop, hready, (loadShiftRegister_byte hudr).symm⟩
  · rintro ⟨t, hexec⟩
    obtain ⟨-, hready, -⟩ := (exec_uartEvent_next rfl).mp hexec
    obtain ⟨hudr, htsr⟩ := State.ready_uartTxLoad_iff.mp hready
    exact hblocked.elim hudr (absurd htsr)

/-- Settles O38: the event is ready on a full shift register, whose byte leaves masked. -/
theorem uartTxDoneFollowsItsRule : Obligations.UartTxDoneFollowsItsRule := by
  refine ⟨rfl, fun s hstop => ⟨fun e htsr => ?_, fun htsr => ?_⟩⟩
  · have hready : s.ready .uartTxDone = true := State.ready_uartTxDone_iff.mpr (by simp [htsr])
    refine ⟨{ b := onWire s.cfg e.b, deStart := e.deStart, deEnd := s.dir },
      (exec_uartEvent_next rfl).mpr ⟨hstop, hready, ?_⟩, onWire_toNat s.cfg e.b, rfl, rfl⟩
    simp [effectOf, frameLeaves_entry htsr]
  · rintro ⟨t, hexec⟩
    obtain ⟨-, hready, -⟩ := (exec_uartEvent_next rfl).mp hexec
    exact State.ready_uartTxDone_iff.mp hready htsr

/-! ## What the events leave unchanged -/

/-- No event of the UART touches a ring (R57). -/
theorem effectOf_uartEvent_rings {i : Instr} (s : State) (hport : i.port = .uart) :
    (effectOf i s).rx = s.rx ∧ (effectOf i s).tx = s.tx := by
  cases i with
  | uartRx | uartTxLoad | uartTxDone => exact ⟨effectOf_rx s nofun nofun nofun nofun, effectOf_tx s nofun nofun nofun nofun nofun⟩
  | _ => cases hport

/-- Settles O43, event by event: the frame of its effect; the rings, storage included, are no event's to write. -/
theorem uartEventsFrame : Obligations.UartEventsFrame := by
  intro s t
  refine ⟨fun b fe pe hexec => ?_, fun hexec => ?_, fun hexec => ?_, fun i hport hexec a => ?_⟩
  · obtain ⟨-, -, rfl⟩ := (exec_uartEvent_next rfl).mp hexec
    exact frameArrives_frame b fe pe s
  · obtain ⟨-, -, rfl⟩ := (exec_uartEvent_next rfl).mp hexec
    exact loadShiftRegister_frame s
  · obtain ⟨-, -, rfl⟩ := (exec_uartEvent_next rfl).mp hexec
    exact frameLeaves_frame s
  · obtain ⟨-, -, rfl⟩ := (exec_uartEvent_next hport).mp hexec
    obtain ⟨hrx, htx⟩ := effectOf_uartEvent_rings s hport
    rw [hrx, htx]
    exact ⟨rfl, rfl⟩

/-! ## Frames taken in time (R131, R190) -/

/-- The word of an operation belongs to the operation's agent (R84). -/
theorem portOfWord_encode (i : Instr) : portOfWord (encode i) = i.port := by
  cases i with
  | openUart baud p st d => exact (Laws.RowOfWord.openUart baud p st d).2
  | write v => exact (Laws.RowOfWord.write v).2
  | tryWrite v => exact (Laws.RowOfWord.tryWrite v).2
  | uartRx b fe pe => exact (Laws.RowOfWord.uartRx b fe pe).2
  | _ => rfl

/-- A script performs an enabled operation by its word, which decodes to it on the port of its agent (R230). -/
theorem runScript_encode {i : Instr} {s : State} (ws : List Word) (hwf : i.wellFormed = true) (henabled : s.enabled i = true) :
    s.runScript (encode i :: ws) = (effectOf i s).runScript ws := by
  obtain ⟨hstop, -⟩ := State.enabled_iff.mp henabled
  have hlegal : legalOn (portOfWord (encode i)) (encode i) = some i :=
    legalOn_some.mpr ⟨encodeThenDecodeGivesTheOperation i hwf, (portOfWord_encode i).symm⟩
  have hperform : s.performWord (encode i) = some (effectOf i s) :=
    performWord_some.mpr ⟨hstop, .inr ⟨i, hlegal, henabled, rfl⟩⟩
  rw [State.runScript, hperform]

/-- A frame without errors that ISR_RXC takes from RDR at once: its byte is pushed, and nothing else is left of it. -/
theorem receiveComplete_frameArrives {s : State} (b : Byte) (hopen : s.isOpen = true) (hrdr : s.rdr = none) :
    receiveComplete (frameArrives b false false s) = s.pushRx (onWire s.cfg b) := by
  rw [frameArrives_taken b false false hopen hrdr, receiveComplete_frame rfl]
  congr 1
  simp [receivedFrame, ← hrdr]

/-- The two words of a frame taken in time: UART_RX finds RDR empty, and ISR_RXC follows before anything else. -/
theorem State.runScript_frame {s : State} (b : Byte) (ws : List Word) (hstop : s.stop = .running) (hgie : s.gie = true)
    (hrxcie : s.ie.rxcie = true) (hopen : s.isOpen = true) (hrdr : s.rdr = none) :
    s.runScript (encode (.uartRx b false false) :: encode .isrRxc :: ws) = (s.pushRx (onWire s.cfg b)).runScript ws := by
  have hrxc : (frameArrives b false false s).enabled .isrRxc = true := by
    rw [frameArrives_taken b false false hopen hrdr]
    exact State.enabled_iff.mpr ⟨hstop, rfl, State.vectorEnabled_rxc_iff.mpr ⟨hgie, nofun, hrxcie⟩⟩
  calc s.runScript (encode (.uartRx b false false) :: encode .isrRxc :: ws)
    _ = (frameArrives b false false s).runScript (encode .isrRxc :: ws) :=
      runScript_encode _ rfl (State.enabled_iff.mpr ⟨hstop, rfl, rfl⟩)
    _ = (receiveComplete (frameArrives b false false s)).runScript ws := runScript_encode ws rfl hrxc
    _ = (s.pushRx (onWire s.cfg b)).runScript ws := by rw [receiveComplete_frameArrives b hopen hrdr]

/-- Settles O59, by induction on the bytes: one frame taken in time pushes its byte, and leaves the block ready for the next. -/
theorem framesTakenInTimeAreReceivedInOrder : Obligations.FramesTakenInTimeAreReceivedInOrder := by
  intro s bs hinv hstop hgie hopen hrdr hroom
  induction bs generalizing s with
  | nil => exact ⟨s, rfl, (List.append_nil _).symm, rfl⟩
  | cons b bs ih =>
    rw [List.length_cons, Ring.len] at hroom
    have h := State.inv_iff.mp hinv
    obtain ⟨hrxcie, -⟩ := h.opened hopen
    have hfull : s.rx.isFull s.params.rxCap = false := Ring.isFull_of_count_lt (by omega)
    have hpush := State.pushRx_room (onWire s.cfg b) hfull
    have hpushed := h.pushRx (onWire s.cfg b) hopen
    have hcontents := h.pushRx_contents_room (onWire s.cfg b) hfull
    rw [hpush] at hpushed hcontents
    have hcount := Ring.count_push h.rx (onWire s.cfg b) hfull
    obtain ⟨t, hrun, hreceived, hframe⟩ :=
      ih _ (State.inv_iff.mpr hpushed) hstop hgie hopen hrdr (by simp only [Ring.len]; omega)
    refine ⟨t, ?_, ?_, hframe⟩
    · exact (State.runScript_frame b _ hstop hgie hrxcie hopen hrdr).trans (hpush ▸ hrun)
    · rw [List.map_cons, List.append_cons, ← hcontents]
      exact hreceived

end Sys2Proof.Machine

/-! SUPPORT. The statements of 60_exceptions.md: a step performs the offered word (R222), what is not enabled gives no state (R230), holds
(R216), the order of outcomes (R215), scripts as machine runs (R230), and the draining of a burst (R132, R133, R191, R192, R216). -/

namespace Sys2Proof.Machine

/-! ## The step of an offered word (R84, R222) -/

section
variable {s : State} {p : Port} {w : Word} {i : Instr}

theorem step_legal (hrequest : s.request = .word p w) (hdecode : decode w = .op i) (hport : i.port = p) :
    step s = exec i (s.fetched i) := by
  simp [step, hrequest, legalOn_some.mpr ⟨hdecode, hport⟩]

theorem State.fetched_held (hholds : s.holds i = true) : s.fetched i = s.endTurn := by simp [State.fetched, hholds]

theorem State.fetched_notHeld (hholds : s.holds i = false) : s.fetched i = s.takeWord i.port := by simp [State.fetched, hholds]

/-- Only the host has commands to be used up: the other agents' words stand in their turns. -/
theorem State.fetched_eq (s : State) (i : Instr) :
    s.fetched i =
      { s with
        sched := s.sched.tail
        prog := if i.port = .host ∧ s.holds i = false then s.prog.tail else s.prog } := by
  cases hholds : s.holds i with
  | true => simp [State.fetched_held hholds, State.endTurn]
  | false => cases hport : i.port <;> simp [State.fetched_notHeld hholds, State.takeWord, State.endTurn, State.nextCommand, hport]

/-- Settles O50: the state in which the operation is performed is `State.fetched`. -/
theorem aStepRunsTheDecodedOperation : Obligations.AStepRunsTheDecodedOperation := by
  rintro s p w i hrequest hdecode rfl
  rw [step_legal hrequest hdecode rfl, State.fetched_eq]

/-! ## What is not enabled (R230) -/

/-- Only the handlers and the two transmit events have an enabling condition of their own (R134, R191, R192). -/
theorem State.mem_of_ready_eq_false (h : s.ready i = false) : i ∈ [Instr.isrRxc, .isrDre, .isrTxc, .uartTxLoad, .uartTxDone] := by
  cases i with
  | isrRxc | isrDre | isrTxc | uartTxLoad | uartTxDone => simp
  | _ => cases h

end

/-- Settles O51: what is neither held nor enabled in a running block is not ready. -/
theorem whatIsNotEnabledProducesNoState : Obligations.WhatIsNotEnabledProducesNoState := by
  intro s i hstop hholds henabled
  have hready : s.ready i = false := by simpa [State.enabled, hstop, hholds] using henabled
  rw [exec_eq_attempt]
  exact ⟨State.attempt_notEnabled hstop hholds hready, State.mem_of_ready_eq_false hready⟩

/-! ## Holds (R216) -/

theorem exec_held {s : State} {i : Instr} (hstop : s.stop = .running) (hholds : s.holds i = true) : exec i s = .next s := by
  rw [exec_eq_attempt, State.attempt_held hstop hholds]

theorem dataBitsToFrame_isSome_iff {d : DataBits} : (dataBitsToFrame d).isSome = true ↔ d ≠ .nine := by
  cases d <;> simp [dataBitsToFrame]

theorem State.holds_iff {s : State} {i : Instr} : s.holds i = true ↔
    (∃ v, i = .write v) ∧ s.isOpen = true ∧ s.tx.isFull s.params.txCap = true ∨
    (i = .flush ∨ i = .close ∨ ∃ baud p st d, i = .openUart baud p st d ∧ d ≠ .nine) ∧ s.txs ≠ .idle := by
  cases i with
  | openUart baud p st d => simp [State.holds, State.txInProgress_iff, dataBitsToFrame_isSome_iff]
  | close | flush => simp [State.holds, State.txInProgress_iff]
  | write v => simp [State.holds, State.txFull]
  | _ => simp [State.holds]

/-- Settles O54: a held command is performed in the state whose turn is over, any other in the state whose command is used up too. -/
theorem aHeldCommandIsTriedAgain : Obligations.AHeldCommandIsTriedAgain := by
  refine ⟨fun s i => State.holds_iff, fun s w i hstop hrequest hdecode hport => ?_⟩
  rw [step_legal hrequest hdecode hport]
  refine ⟨fun hholds => ?_, fun hholds => ⟨effectOf i (s.takeWord .host), ?_, (effectOf_inputs i _).1⟩⟩
  · have hheld : s.endTurn.holds i = true := (s.holds_withInputs s.prog s.sched.tail i).trans hholds
    rw [State.fetched_held hholds]
    exact exec_held hstop hheld
  · have hfree : (s.takeWord .host).holds i = false := (s.holds_withInputs s.prog.tail s.sched.tail i).trans hholds
    rw [State.fetched_notHeld hholds, hport]
    exact exec_hostCommand hport hstop hfree

/-! ## The order of outcomes (R215) -/

/-- Settles O56: an illegal word names no operation to refuse or hold, and OPEN with nine bits never holds. -/
theorem outcomesFollowTheirPrecedence : Obligations.OutcomesFollowTheirPrecedence := by
  refine ⟨fun s p w r hstop hrequest hdecode => ?_, fun s w baud p st hstop hrequest hdecode => ?_, fun s i => exec_held⟩
  · obtain ⟨t, hstep, ht⟩ := step_raisesIllegal hstop hrequest (legalOn_illegal hdecode)
    exact ⟨t, hstep, congrArg State.stop ht⟩
  · obtain ⟨-, rfl⟩ := decodeThenEncodeGivesTheWord _ _ hdecode
    rw [step_legal hrequest hdecode rfl]
    exact ⟨_, exec_hostCommand rfl hstop rfl, rfl⟩

/-! ## Scripts (R230) -/

/-- Offering a word changes the model's own inputs only. -/
theorem State.offer_inputs (s : State) (w : Word) : ∃ p q, s.offer w = s.withInputs p q := by
  unfold State.offer
  split <;> exact ⟨_, _, rfl⟩

theorem State.enabled_offer (s : State) (w : Word) (i : Instr) : (s.offer w).enabled i = s.enabled i := by
  obtain ⟨p, q, hoffer⟩ := s.offer_inputs w
  rw [hoffer, State.enabled_withInputs]

theorem State.raiseIllegal_offer (s : State) (v w : Word) : (s.offer v).raiseIllegal w = (s.raiseIllegal w).offer v := by
  unfold State.offer
  split <;> rfl

theorem effectOf_offer (i : Instr) (s : State) (v : Word) : effectOf i (s.offer v) = (effectOf i s).offer v := by
  obtain ⟨hprog, hsched⟩ := effectOf_inputs i s
  unfold State.offer
  rw [hprog, hsched]
  split <;> exact effectOf_withInputs i s _ _

/-- A word is performed alike with further words waiting behind it. -/
theorem performWord_offer {s t : State} {w : Word} (h : s.performWord w = some t) (v : Word) :
    (s.offer v).performWord w = some (t.offer v) := by
  rw [performWord_some] at h ⊢
  obtain ⟨hstop, ⟨hlegal, rfl⟩ | ⟨i, hlegal, henabled, rfl⟩⟩ := h
  · exact ⟨(s.stop_offer v).trans hstop, .inl ⟨hlegal, (s.raiseIllegal_offer v w).symm⟩⟩
  · exact ⟨(s.stop_offer v).trans hstop, .inr ⟨i, hlegal, (s.enabled_offer v i).trans henabled, (effectOf_offer i s v).symm⟩⟩

theorem performWord_loadScript {s t : State} {w : Word} (h : s.performWord w = some t) (ws : List Word) :
    (s.loadScript ws).performWord w = some (t.loadScript ws) := by
  induction ws with
  | nil => exact h
  | cons v ws ih => exact performWord_offer ih v

/-- An offered word that can be performed is what the machine's next step performs. -/
theorem step_offer {s t : State} {w : Word} (h : s.performWord w = some t) : step (s.offer w) = .next t := by
  obtain ⟨hstop, ⟨hlegal, rfl⟩ | ⟨i, hlegal, henabled, rfl⟩⟩ := performWord_some.mp h
  · simp [step, s.request_offer, s.takeWord_offer, hlegal, hstop]
  · obtain ⟨hdecode, hport⟩ := legalOn_some.mp hlegal
    obtain ⟨-, hholds, -⟩ := State.enabled_iff.mp henabled
    rw [step_legal (s.request_offer w) hdecode hport, State.fetched_notHeld ((s.holds_offer w i).trans hholds), hport,
      s.takeWord_offer, exec_enabled henabled]

theorem run_loadScript {s t : State} {ws : List Word} (h : s.runScript ws = some t) :
    Host.Core.run Sys2Proof.core ws.length (s.loadScript ws) = .next t := by
  induction ws generalizing s with
  | nil => exact congrArg _ (Option.some.inj h)
  | cons w ws ih =>
    rw [State.runScript] at h
    cases hperform : s.performWord w with
    | none => simp [hperform] at h
    | some u =>
      have hrun : u.runScript ws = some t := by simpa [hperform] using h
      have hstep : step (s.loadScript (w :: ws)) = .next (u.loadScript ws) := step_offer (performWord_loadScript hperform ws)
      exact (run_next (M := Sys2Proof.core) hstep).trans (ih hrun)

/-- Settles O57, by induction on the script; what the machine had to do before comes after it, so that there need be nothing. -/
theorem aScriptRunIsAMachineRun : Obligations.AScriptRunIsAMachineRun := fun _ _ _ _ _ hrun => run_loadScript hrun

/-! ## The draining of a burst (R132, R133, R191, R192) -/

/-- The operations that move a burst on. -/
def drainers : List Instr := [.isrDre, .isrTxc, .uartTxLoad, .uartTxDone]

/-- Nothing keeps the handlers of a burst from running: the block runs, delivers interrupts, and has no received frame waiting. -/
structure State.Undisturbed (s : State) : Prop where
  inv : s.Inv
  stop : s.stop = .running
  gie : s.gie = true
  rdr : s.rdr = none

/-- The handler steps that move no byte and are still to come: into Draining, and into Idle. -/
def TxState.stepsToIdle : TxState → Nat
  | .idle => 0
  | .sending => 2
  | .draining => 1

/-- The steps that bring a burst to Idle: three for a byte in the ring, two in UDR, one in TSR, and those that move no byte. -/
def State.stepsToIdle (s : State) : Nat :=
  3 * s.tx.count s.params.txCap + 2 * s.udr.toList.length + s.tsr.toList.length + s.txs.stepsToIdle

theorem State.stepsToIdle_le (s : State) : s.stepsToIdle ≤ 3 * s.inFlight.length + 2 := by
  have hphase : s.txs.stepsToIdle ≤ 2 := by cases s.txs <;> decide
  simp only [State.stepsToIdle, State.inFlight, List.length_append, List.length_map, Ring.length_contents]
  omega

theorem effectOf_drainer_rdr {i : Instr} (s : State) (h : i ∈ drainers) : (effectOf i s).rdr = s.rdr := by
  simp only [drainers, List.mem_cons, List.not_mem_nil, or_false] at h
  obtain rfl | rfl | rfl | rfl := h
  · exact (congrArg State.rdr (dataRegisterEmpty_frame s) :)
  · rfl
  · exact (congrArg State.rdr (loadShiftRegister_frame s) :)
  · exact (congrArg State.rdr (frameLeaves_frame s) :)

theorem drainer_wellFormed {i : Instr} (h : i ∈ drainers) : i.wellFormed = true := by
  revert i
  decide

theorem drainer_port {i : Instr} (h : i ∈ drainers) : i.port ≠ .host := by
  revert i
  decide

theorem State.accepted_drainer {i : Instr} (s : State) (h : i ∈ drainers) : s.accepted i = [] := by
  simp only [drainers, List.mem_cons, List.not_mem_nil, or_false] at h
  obtain rfl | rfl | rfl | rfl := h <;> rfl

section
variable {s : State} (h : s.Undisturbed)
include h

theorem State.Undisturbed.effectOf {i : Instr} (hi : i ∈ drainers) (henabled : s.enabled i = true) :
    (effectOf i s).Undisturbed := by
  obtain ⟨-, hholds, hready⟩ := State.enabled_iff.mp henabled
  obtain ⟨-, -, -, hgie, -, hstop⟩ := effectOf_otherAgent s (drainer_port hi)
  exact {
    inv := h.inv.effectOf (drainer_wellFormed hi) hholds hready
    stop := hstop.trans h.stop
    gie := hgie.trans h.gie
    rdr := (effectOf_drainer_rdr s hi).trans h.rdr }

/-- A drainer loses no byte and queues none (R62). -/
theorem State.Undisturbed.effectOf_outgoing {i : Instr} (hi : i ∈ drainers) (henabled : s.enabled i = true) :
    (Machine.effectOf i s).outgoing = s.outgoing := by
  have hkept := theTransmitPathLosesNothing i s _ (State.inv_iff.mpr h.inv) (exec_enabled henabled)
  rwa [s.accepted_drainer hi, List.append_nil] at hkept

theorem State.Undisturbed.rxc_notPending : ¬(s.rdr ≠ none ∧ s.ie.rxcie = true) := fun ⟨hrdr, _⟩ => hrdr h.rdr

theorem State.Undisturbed.drain_done {e : ShiftEntry} (htsr : s.tsr = some e) :
    s.enabled .uartTxDone = true ∧ (frameLeaves s).stepsToIdle < s.stepsToIdle := by
  refine ⟨State.enabled_iff.mpr ⟨h.stop, rfl, State.ready_uartTxDone_iff.mpr (by simp [htsr])⟩, ?_⟩
  simp [frameLeaves_entry htsr, State.stepsToIdle, htsr]

theorem State.Undisturbed.drain_load {b : Byte} (hudr : s.udr = some b) (htsr : s.tsr = none) :
    s.enabled .uartTxLoad = true ∧ (loadShiftRegister s).stepsToIdle < s.stepsToIdle := by
  refine ⟨State.enabled_iff.mpr ⟨h.stop, rfl, State.ready_uartTxLoad_iff.mpr ⟨by simp [hudr], htsr⟩⟩, ?_⟩
  simp [loadShiftRegister_byte hudr, State.stepsToIdle, hudr, htsr]

/-- ISR_DRE moves a byte of the ring one place on, or leaves Sending. -/
theorem State.Undisturbed.drain_dre (hudr : s.udr = none) (hsending : s.txs = .sending) :
    s.enabled .isrDre = true ∧ (dataRegisterEmpty s).stepsToIdle < s.stepsToIdle := by
  obtain ⟨-, hdreie, -⟩ := h.inv.sending hsending
  refine ⟨State.enabled_iff.mpr ⟨h.stop, rfl, State.vectorEnabled_dre_iff.mpr ⟨h.gie, hudr, hdreie, h.rxc_notPending⟩⟩, ?_⟩
  cases hempty : s.tx.isEmpty with
  | true => simp [dataRegisterEmpty_empty hempty, State.stepsToIdle, hsending, TxState.stepsToIdle]
  | false =>
    have hcount := congrArg List.length (Ring.contents_advance h.inv.tx hempty)
    simp only [Ring.length_contents, List.length_cons, Ring.dropOldest] at hcount
    simp only [dataRegisterEmpty_byte hempty, State.stepsToIdle, hudr, Option.toList_none, Option.toList_some, List.length_nil,
      List.length_singleton]
    omega

/-- In Draining with TSR empty the last byte has left the line, so ISR_TXC's condition stands (R46). -/
theorem State.Undisturbed.drain_txc (htsr : s.tsr = none) (hdraining : s.txs = .draining) :
    s.enabled .isrTxc = true ∧ (transmitComplete (s.enterVector .txc)).stepsToIdle < s.stepsToIdle := by
  obtain ⟨-, hdreie, htxcie, -, -, hlast⟩ := h.inv.draining hdraining
  have htxcf : s.txcf = true := hlast.resolve_left (absurd htsr)
  refine ⟨State.enabled_iff.mpr ⟨h.stop, rfl, State.vectorEnabled_txc_iff.mpr ⟨h.gie, htxcf, htxcie, h.rxc_notPending, ?_⟩⟩, ?_⟩
  · simp [hdreie]
  · simp [transmitComplete, State.stepsToIdle, hdraining, TxState.stepsToIdle]

/-- While a burst is in flight some operation is enabled that brings it nearer to Idle: by where its oldest byte stands. -/
theorem State.Undisturbed.exists_drainer (hbusy : s.txs ≠ .idle) :
    ∃ i ∈ drainers, s.enabled i = true ∧ (Machine.effectOf i s).stepsToIdle < s.stepsToIdle := by
  cases htsr : s.tsr with
  | some e => exact ⟨.uartTxDone, by decide, h.drain_done htsr⟩
  | none =>
    cases hudr : s.udr with
    | some b => exact ⟨.uartTxLoad, by decide, h.drain_load hudr htsr⟩
    | none =>
      cases htxs : s.txs with
      | idle => exact absurd htxs hbusy
      | sending => exact ⟨.isrDre, by decide, h.drain_dre hudr htxs⟩
      | draining => exact ⟨.isrTxc, by decide, h.drain_txc htsr htxs⟩

end

/-- The run to Idle, by induction on the steps it takes at most. -/
theorem State.Undisturbed.exists_drain {s : State} (h : s.Undisturbed) :
    ∃ (is : List Instr) (t : State), (∀ i ∈ is, i ∈ drainers) ∧ is.length ≤ s.stepsToIdle ∧
      s.runScript (is.map encode) = some t ∧ t.Inv ∧ t.txs = .idle ∧ t.outgoing = s.outgoing := by
  by_cases hidle : s.txs = .idle
  · exact ⟨[], s, nofun, Nat.zero_le _, rfl, h.inv, hidle, rfl⟩
  · obtain ⟨i, hi, henabled, hnearer⟩ := h.exists_drainer hidle
    obtain ⟨is, t, his, hlength, hrun, hinv, htxs, houtgoing⟩ := (h.effectOf hi henabled).exists_drain
    refine ⟨i :: is, t, List.forall_mem_cons.mpr ⟨hi, his⟩, hlength.trans_lt hnearer, ?_, hinv, htxs, ?_⟩
    · rw [List.map_cons, runScript_encode _ (drainer_wellFormed hi) henabled, hrun]
    · rw [houtgoing, h.effectOf_outgoing hi henabled]
termination_by s.stepsToIdle

/-- Settles O58: at the end of the run to Idle nothing is in flight, so the wire is all that was outgoing. -/
theorem aBurstDrainsToIdle : Obligations.ABurstDrainsToIdle := by
  intro s hinv hstop hgie hrdr _
  have h : s.Undisturbed := { inv := State.inv_iff.mp hinv, stop := hstop, gie := hgie, rdr := hrdr }
  obtain ⟨is, t, his, hlength, hrun, ht, hidle, houtgoing⟩ := h.exists_drain
  obtain ⟨-, -, -, -, -, -, hreceive⟩ := ht.idle hidle
  exact ⟨is, t, his, hlength.trans s.stepsToIdle_le, hrun, hidle, hreceive, (ht.outgoing_idle hidle).symm.trans houtgoing⟩

end Sys2Proof.Machine

/-! SUPPORT. The statements of 70_reset_and_hazards.md: the commands on a closed block (R244), and a hold kept with interrupts masked
(R253, R217). -/

namespace Sys2Proof.Machine

/-! ## The commands on a closed block (R244) -/

section
variable {s : State} (h : s.Inv) (hclosed : s.isOpen = false)
include h hclosed

theorem State.Inv.effectOf_read_closed : Machine.effectOf .read s = { s with res := 0 } := by
  simp only [Machine.effectOf, Ring.pop_empty (h.rx_isEmpty_of_closed hclosed), byteResult]

theorem State.Inv.effectOf_peek_closed : Machine.effectOf .peek s = { s with res := 0 } := by
  simp only [Machine.effectOf, Ring.peek_eq_pop s.params.rxCap, Ring.pop_empty (h.rx_isEmpty_of_closed hclosed), byteResult]

theorem State.Inv.effectOf_available_closed : Machine.effectOf .available s = { s with res := 0 } := by
  have hcount : s.rx.count s.params.rxCap = 0 :=
    (Ring.count_zero_iff h.rx).mpr (Ring.isEmpty_iff.mp (h.rx_isEmpty_of_closed hclosed))
  simp only [Machine.effectOf, Ring.len, hcount, countResult, BitVec.ofNat_eq_ofNat]

end

/-- Settles O48, command by command: closed, the rings are empty and the block is Idle, so no command holds and none finds anything to
do. -/
theorem commandsOnAClosedInstanceAreDefined : Obligations.CommandsOnAClosedInstanceAreDefined := by
  intro s hinv hstop hclosed
  have h := State.inv_iff.mp hinv
  obtain ⟨hidle, -⟩ := h.closed hclosed
  have hfree : s.txInProgress = false := State.txInProgress_eq_false_iff.mpr hidle
  have hperform {i : Instr} {t : State} (hport : i.port = .host) (hholds : s.holds i = false) (heffect : effectOf i s = t) :
      exec i s = .next t := heffect ▸ exec_hostCommand hport hstop hholds
  refine ⟨fun v => ⟨?write, ?tryWrite⟩, ?read, ?peek, ?available, ?flushEnabled, ?flush, ?closeEnabled, ?close, ?status, ?uartRx⟩
  case write =>
    have hholds : s.holds (.write v) = false := by simp [State.holds, hclosed]
    exact hperform rfl hholds (writeEffect_closed v hclosed)
  case tryWrite => exact hperform rfl rfl (tryWriteEffect_noRoom v (by simp [hclosed]))
  case read => exact hperform rfl rfl (h.effectOf_read_closed hclosed)
  case peek => exact hperform rfl rfl (h.effectOf_peek_closed hclosed)
  case available => exact hperform rfl rfl (h.effectOf_available_closed hclosed)
  case flushEnabled => exact State.enabled_iff.mpr ⟨hstop, hfree, rfl⟩
  case flush => exact hperform rfl hfree rfl
  case closeEnabled => exact State.enabled_iff.mpr ⟨hstop, hfree, rfl⟩
  case close => exact hperform (i := .close) rfl hfree (h.closeEffect_eq_self hclosed)
  case status =>
    obtain ⟨-, -, -, -, -, hbit⟩ := s.statusByte_bits
    exact ⟨_, hperform rfl rfl rfl, (statusResult_getLsbD _ 7).trans (hbit.trans hclosed)⟩
  case uartRx =>
    intro b fe pe
    rw [exec_uartRx b fe pe hstop, frameArrives_closed b fe pe hclosed]

/-! ## Holds with interrupts masked (R217, R253) -/

/-- A hold reads whether the block is open, the TX ring and the state of the transmit path, and nothing else (R216). -/
theorem State.holds_congr {s t : State} (hparams : t.params = s.params) (hopen : t.isOpen = s.isOpen) (htx : t.tx = s.tx)
    (htxs : t.txs = s.txs) (i : Instr) : t.holds i = s.holds i := by
  cases i with
  | openUart | close | flush => simp only [State.holds, State.txInProgress, htxs]
  | write => simp only [State.holds, State.txFull, hparams, hopen, htx]
  | _ => rfl

/-- What lifts a hold is a handler's step: no event of the UART touches what a hold reads (R217). -/
theorem effectOf_uartEvent_holds {j : Instr} (s : State) (hport : j.port = .uart) (i : Instr) :
    (effectOf j s).holds i = s.holds i := by
  obtain ⟨hopen, -, hparams, -⟩ := effectOf_otherAgent (i := j) s (by simp [hport])
  obtain ⟨-, htx⟩ := effectOf_uartEvent_rings s hport
  have htxs : (effectOf j s).txs = s.txs := by
    cases j with
    | uartRx b fe pe => exact (congrArg State.txs (frameArrives_frame b fe pe s) :)
    | uartTxLoad => exact (congrArg State.txs (loadShiftRegister_frame s) :)
    | uartTxDone => exact (congrArg State.txs (frameLeaves_frame s) :)
    | _ => cases hport
  exact State.holds_congr hparams hopen htx htxs i

/-- With GIE at 0 no vector is enabled (R134). -/
theorem exec_handler_masked {s t : State} (v : IrqVector) (hmasked : s.gie = false) : exec v.handler s ≠ .next t := by
  intro hexec
  obtain ⟨-, henabled, -⟩ := (exec_handler_next v).mp hexec
  obtain ⟨hgie, -⟩ := State.vectorEnabled_iff.mp henabled
  exact absurd (hgie.symm.trans hmasked) nofun

/-- Settles O55: masked, the interrupt unit has no step, and an event of the UART writes neither GIE nor what a hold reads. -/
theorem aMaskedHoldIsNeverLifted : Obligations.AMaskedHoldIsNeverLifted := by
  intro i j s t hmasked hholds hother hexec
  have hport : j.port = .uart := by
    cases j with
    | isrRxc => exact absurd hexec (exec_handler_masked .rxc hmasked)
    | isrDre => exact absurd hexec (exec_handler_masked .dre hmasked)
    | isrTxc => exact absurd hexec (exec_handler_masked .txc hmasked)
    | uartRx | uartTxLoad | uartTxDone => rfl
    | _ => exact absurd rfl hother
  obtain ⟨-, -, rfl⟩ := (exec_uartEvent_next hport).mp hexec
  obtain ⟨-, -, -, hgie, -⟩ := effectOf_otherAgent s hother
  exact ⟨hgie.trans hmasked, (effectOf_uartEvent_holds s hport i).trans hholds⟩

end Sys2Proof.Machine
